-- ==== Sys2Proof/Word.lean ====
section
/-! DEFINITION. The sizes of the data of the 7700 CPU (R8) and the data width that the flags m and x select. -/

namespace Sys2Proof

/-- A byte of memory (R8). -/
abbrev Byte := BitVec 8

/-- The contents of a 16-bit register, or a 16-bit datum (R8, R20). -/
abbrev Word := BitVec 16

/-- A 24-bit address: the bank in bits 23..16, the offset in bits 15..0 (R60). -/
abbrev Addr := BitVec 24

/-- The data width `W` of R11: 8 bits when the governing flag (m or x) is 1, 16 bits when it is 0. -/
inductive Width where
  | w8
  | w16
  deriving DecidableEq, Repr

end Sys2Proof
end

