-- ==== Sys2Proof/Machine/Bits.lean ====
section
/-! DEFINITION. The bit-field, byte-order and sign-extension helpers of R11, R13, R18 and R64. -/

namespace Sys2Proof.Machine

/-- The low byte (`AL` of `A`, and so on). -/
def loByte (w : Word) : Byte := w.extractLsb' 0 8

/-- The high byte (`AH` of `A`, and so on). -/
def hiByte (w : Word) : Byte := w.extractLsb' 8 8

/-- `hi:lo` as a 16-bit value: little-endian data have the low byte at the lower address (R64). -/
def mkWord (hi lo : Byte) : Word := hi ++ lo

/-- `bank:offs` as a 24-bit address (R11). -/
def mkAddr (bank : Byte) (offs : Word) : Addr := bank ++ offs

/-- The bank of a 24-bit address (R60). -/
def addrBank (a : Addr) : Byte := a.extractLsb' 16 8

/-- The low 16 bits of a 24-bit address. -/
def addrOffs (a : Addr) : Word := a.extractLsb' 0 16

/-- `zext_24` of a byte. -/
def zext24b (v : Byte) : Addr := v.setWidth 24

/-- `zext_24` of a 16-bit value. -/
def zext24 (v : Word) : Addr := v.setWidth 24

/-- `sext_24` of an 8-bit displacement (R102). -/
def sext24b (v : Byte) : Addr := v.signExtend 24

/-- `sext_24` of a 16-bit displacement (R332). -/
def sext24 (v : Word) : Addr := v.signExtend 24

end Sys2Proof.Machine
end

