-- ==== Sys2Proof/Config.lean ====
section
/-! DEFINITION. What the chip and the board fix and the manual leaves to them (the parameters of R9), and the
free values: constants without a body, of which nothing can be proved but that they exist. -/

namespace Sys2Proof

/-- `SERIES` of R2 and R9: which instruction set the chip has. -/
inductive Series where
  | s7700   -- 7700, 7770 and 7790 Series: 103 instructions
  | s7750   -- 7750 Series: 108 instructions
  deriving DecidableEq, Repr

/-- What stands at an address (`MEM` of R9, R61). -/
inductive Kind where
  | ram
  | rom
  | device
  | unmapped
  deriving DecidableEq, Repr

/-- One stretch of the memory map: every address from `first` to `last`, both included. -/
structure Region where
  first : Nat
  last : Nat
  kind : Kind
  deriving DecidableEq, Repr

/-- One interrupt source with the bank-0 address of its vector (`VEC(src)` of R9, R404). -/
structure Source where
  src : Nat
  vector : Word
  deriving DecidableEq, Repr

/-- The parameters of R9 that a chip and its board fix.  They are plain data in `State` (assumption log 3), so
that a statement about every state holds for every chip; no step changes them.
An address that no region of `regions` covers is RAM (assumption log 4).  `sources` is the set of interrupt sources
of the chip; a request from any other source is outside what R404 allows (assumption log 17). -/
structure Chip where
  series : Series
  singleChip : Bool
  absIndBank : Byte
  vecZeroDiv : Word
  vecWdt : Word
  wdtLevel : BitVec 3
  regions : List Region
  sources : List Source
  deriving DecidableEq, Repr

/-- The chip of `State.reset`.  PRESUMED: `ABS_IND_BANK` = 00, `VEC_ZERODIV` = FFFC, `VEC_WDT` = FFF6,
`WDT_LEVEL` = 7 are the defaults that section 1 of `92_eei_decisions.md` marks 'from general knowledge'
(assumption log 5).  DESIGN CHOICE: the 7750 Series, which has every instruction (assumption log 5), and a memory
map that is RAM throughout (assumption log 4). -/
def Chip.standard : Chip where
  series := .s7750
  singleChip := false
  absIndBank := 0x00#8
  vecZeroDiv := 0xFFFC#16
  vecWdt := 0xFFF6#16
  wdtLevel := 7#3
  regions := []
  sources := []

/-- The vector addresses of the chip beside the BRK and the reset vector, which R404 fixes. -/
def Chip.vectors (c : Chip) : List Word :=
  c.vecZeroDiv :: c.vecWdt :: c.sources.map Source.vector

/-- Whether an interrupt source is one of the chip's (`IRQ` of R9). -/
def Chip.lists (c : Chip) (n : Nat) : Bool := c.sources.any fun e => e.src == n

/-- R404: a model requires the vector parameters to be addresses in 00:0000..00:FFFE, distinct from each other and
from the BRK and reset vectors; a source has one vector; and every region lies in the address space of R60. -/
def Chip.wf (c : Chip) : Bool :=
  (c.vectors.all fun v => v != 0xFFFF#16 && v != 0xFFFA#16 && v != 0xFFFE#16)
    && decide c.vectors.Nodup
    && decide (c.sources.map Source.src).Nodup
    && (c.regions.all fun r => decide (r.first ≤ r.last) && decide (r.last < 2 ^ 24))

/-- A byte that the environment draws: the value read from an unmapped address (D12) or from a device register
(R73), and AH after a block transfer with m = 1 (D16).  Free: the n-th draw of a run. -/
opaque Config.freeByte : Nat → BitVec 8

/-- A 16-bit value that the environment draws: the accumulators after a division overflow (D24), the result of
decimal arithmetic on digits above 9 (D23), a register after a reset event (D7).  Free. -/
opaque Config.freeWord : Nat → BitVec 16

/-- A flag that the environment draws: N, V, Z after decimal arithmetic (D22, D23), N, V, Z, C after a reset
event (D7).  Free. -/
opaque Config.freeBit : Nat → Bool

/-- What `vectorIn` gives for a source that the chip does not have: free.  `Safety.legal` bars every request from such
a source, so that the vector of a request taken in a legal state is one that R404 allows (assumption log 17). -/
opaque Config.irqVector : Nat → BitVec 16

end Sys2Proof
end

