-- ==== Sys2Proof/Syntax.lean ====
section
/-! DEFINITION. The instructions of the 7700 Family: one constructor per mnemonic of the opcode table (the rows
that share a mnemonic are its operand forms, and the form is an argument: assumption log 2), with its operands
as data. -/

namespace Sys2Proof

/-- `Acc`: accumulator A, or B with the 42 code in front (R18, R126). -/
inductive Acc where
  | a
  | b
  deriving DecidableEq, Repr

/-- An immediate whose length the flag m or x selects when the instruction is decoded (R124). -/
inductive Imm where
  | i8 (v : Byte)
  | i16 (v : Word)
  deriving DecidableEq, Repr

/-- The addressing modes that name a datum in memory (R83 to R97, R105, R106), each with its operand bytes. -/
inductive Mode where
  | dir (dd : Byte)
  | dirX (dd : Byte)
  | dirY (dd : Byte)
  | dInd (dd : Byte)
  | dXInd (dd : Byte)
  | dIndY (dd : Byte)
  | dIndL (dd : Byte)
  | dIndLY (dd : Byte)
  | abs (mmll : Word)
  | absX (mmll : Word)
  | absY (mmll : Word)
  | abl (hhmmll : Addr)
  | ablX (hhmmll : Addr)
  | sr (nn : Byte)
  | srIndY (nn : Byte)
  deriving DecidableEq, Repr

/-- A source operand: an immediate (R81) or a datum in memory. -/
inductive Operand where
  | imm (v : Imm)
  | mem (mode : Mode)
  deriving DecidableEq, Repr

/-- What a shift, rotate, increment or decrement works on: an accumulator (R82) or a datum in memory. -/
inductive Target where
  | acc (r : Acc)
  | mem (mode : Mode)
  deriving DecidableEq, Repr

/-- The addressing modes of JMP and JSR (R92, R96, R98, R99, R100). -/
inductive Jump where
  | abs (mmll : Word)
  | abl (hhmmll : Addr)
  | ind (mmll : Word)
  | indL (mmll : Word)
  | indX (mmll : Word)
  deriving DecidableEq, Repr

/-- The displacement of BRA: 8 bits, or 16 bits in the long form BRAL (R332). -/
inductive Disp where
  | short (rr : Byte)
  | long (rr : Word)
  deriving DecidableEq, Repr

/-- One constructor per mnemonic of `spec/opcode_table.json`.  MPYS, DIVS, ASR, EXTS and EXTZ exist in the
7750 Series only (R2, R128). -/
inductive Instr where
  -- load (R162 to R166)
  | lda (r : Acc) (o : Operand)
  | ldm (v : Imm) (mode : Mode)
  | ldt (v : Byte)
  | ldx (o : Operand)
  | ldy (o : Operand)
  -- store (R167 to R169)
  | sta (r : Acc) (mode : Mode)
  | stx (mode : Mode)
  | sty (mode : Mode)
  -- transfer (R180 to R199)
  | tax
  | txa
  | tay
  | tya
  | tsx
  | txs
  | tad
  | tas
  | tda
  | tsa
  | tbd
  | tdb
  | tbs
  | tsb
  | tbx
  | txb
  | tby
  | tyb
  | txy
  | tyx
  -- stack (R212 to R231)
  | psh (mask : Byte)
  | pul (mask : Byte)
  | pha
  | pla
  | php
  | plp
  | phb
  | plb
  | phd
  | pld
  | pht
  | plt
  | phx
  | plx
  | phy
  | ply
  | phg
  | pea (v : Word)
  | pei (dd : Byte)
  | per (v : Word)
  -- block move and exchange (R232 to R234)
  | mvn (dst src : Byte)
  | mvp (dst src : Byte)
  | xab
  -- addition, subtraction, increment, decrement (R241 to R251)
  | adc (r : Acc) (o : Operand)
  | sbc (r : Acc) (o : Operand)
  | inc (t : Target)
  | dec (t : Target)
  | inx
  | dex
  | iny
  | dey
  -- multiplication and division (R252 to R255)
  | mpy (o : Operand)
  | mpys (o : Operand)
  | div (o : Operand)
  | divs (o : Operand)
  -- logic and comparison (R256 to R261)
  | and (r : Acc) (o : Operand)
  | ora (r : Acc) (o : Operand)
  | eor (r : Acc) (o : Operand)
  | cmp (r : Acc) (o : Operand)
  | cpx (o : Operand)
  | cpy (o : Operand)
  -- shift, rotate, extend (R262 to R267, R288, R289)
  | asl (t : Target)
  | asr (t : Target)
  | lsr (t : Target)
  | rol (t : Target)
  | ror (t : Target)
  | rla (n : Imm)
  | exts (r : Acc)
  | extz (r : Acc)
  -- bits of memory and of PS (R301 to R311)
  | clb (mask : Imm) (mode : Mode)
  | seb (mask : Imm) (mode : Mode)
  | clp (mask : Byte)
  | sep (mask : Byte)
  | clc
  | sec
  | clm
  | sem
  | cli
  | sei
  | clv
  -- jump, call, branch, return (R331 to R347)
  | jmp (j : Jump)
  | bra (d : Disp)
  | jsr (j : Jump)
  | bbc (mask : Imm) (mode : Mode) (rr : Byte)
  | bbs (mask : Imm) (mode : Mode) (rr : Byte)
  | bcc (rr : Byte)
  | bcs (rr : Byte)
  | bne (rr : Byte)
  | beq (rr : Byte)
  | bpl (rr : Byte)
  | bmi (rr : Byte)
  | bvc (rr : Byte)
  | bvs (rr : Byte)
  | rti
  | rts
  | rtl
  -- software interrupt, clock control, no operation (R371 to R374)
  | brk (nn : Byte)
  | wit
  | stp
  | nop
  deriving DecidableEq, Repr

end Sys2Proof
end

