-- ==== Sys2Proof/WellFormed.lean ====
section
/-! DEFINITION. Which terms of `Instr` are instructions: those that have a row in the opcode table of the chip's
series, with each immediate of the length that the flags m and x select (R124, R128, R131). -/

namespace Sys2Proof

/-- R124: one byte when the governing flag is 1, two bytes when it is 0. -/
def Imm.fits (flag : Bool) : Imm → Bool
  | .i8 _ => flag
  | .i16 _ => !flag

/-- The 14 memory modes of the accumulator group (R135): every mode but direct indexed Y. -/
def Mode.inAccGroup : Mode → Bool
  | .dirY _ => false
  | _ => true

/-- Direct or absolute (STX and STY have one more, CPX and CPY no more; the bit modes of R84 and R93). -/
def Mode.isDirAbs : Mode → Bool
  | .dir _ => true
  | .abs _ => true
  | _ => false

/-- The four modes of the read-modify-write instructions and of LDM (R163, R262). -/
def Mode.isRmw : Mode → Bool
  | .dir _ => true
  | .dirX _ => true
  | .abs _ => true
  | .absX _ => true
  | _ => false

/-- The memory modes of LDX (R165). -/
def Mode.isLdx : Mode → Bool
  | .dir _ => true
  | .dirY _ => true
  | .abs _ => true
  | .absY _ => true
  | _ => false

/-- The modes of STX (R168). -/
def Mode.isStx : Mode → Bool
  | .dir _ => true
  | .dirY _ => true
  | .abs _ => true
  | _ => false

/-- The modes of STY (R169). -/
def Mode.isSty : Mode → Bool
  | .dir _ => true
  | .dirX _ => true
  | .abs _ => true
  | _ => false

/-- An operand with an immediate governed by `flag`, or a memory mode that `ok` allows. -/
def Operand.fits (flag : Bool) (ok : Mode → Bool) : Operand → Bool
  | .imm v => v.fits flag
  | .mem mode => ok mode

def Target.fits : Target → Bool
  | .acc _ => true
  | .mem mode => mode.isRmw

/-- JSR has no pointer mode but the indexed one (R334). -/
def Jump.isCall : Jump → Bool
  | .abs _ => true
  | .abl _ => true
  | .indX _ => true
  | _ => false

/-- R128: the five instructions of the 7750 Series. -/
def Instr.only7750 : Instr → Bool
  | .mpys _ => true
  | .divs _ => true
  | .asr _ => true
  | .exts _ => true
  | .extz _ => true
  | _ => false

/-- The operands are ones the instruction's encoding table has, at the widths of m and x. -/
def Instr.operandsFit (m x : Bool) : Instr → Bool
  | .lda _ o => o.fits m Mode.inAccGroup
  | .ldm v mode => v.fits m && mode.isRmw
  | .ldx o => o.fits x Mode.isLdx
  | .ldy o => o.fits x Mode.isRmw
  | .sta _ mode => mode.inAccGroup
  | .stx mode => mode.isStx
  | .sty mode => mode.isSty
  | .adc _ o => o.fits m Mode.inAccGroup
  | .sbc _ o => o.fits m Mode.inAccGroup
  | .inc t => t.fits
  | .dec t => t.fits
  | .mpy o => o.fits m Mode.inAccGroup
  | .mpys o => o.fits m Mode.inAccGroup
  | .div o => o.fits m Mode.inAccGroup
  | .divs o => o.fits m Mode.inAccGroup
  | .and _ o => o.fits m Mode.inAccGroup
  | .ora _ o => o.fits m Mode.inAccGroup
  | .eor _ o => o.fits m Mode.inAccGroup
  | .cmp _ o => o.fits m Mode.inAccGroup
  | .cpx o => o.fits x Mode.isDirAbs
  | .cpy o => o.fits x Mode.isDirAbs
  | .asl t => t.fits
  | .asr t => t.fits
  | .lsr t => t.fits
  | .rol t => t.fits
  | .ror t => t.fits
  | .rla n => n.fits m
  | .clb v mode => v.fits m && mode.isDirAbs
  | .seb v mode => v.fits m && mode.isDirAbs
  | .jsr j => j.isCall
  | .bbc v mode _ => v.fits m && mode.isDirAbs
  | .bbs v mode _ => v.fits m && mode.isDirAbs
  | _ => true

/-- An instruction of the chip's series, decodable with these values of m and x. -/
def Instr.wellFormed (series : Series) (m x : Bool) (i : Instr) : Bool :=
  i.operandsFit m x && (!i.only7750 || decide (series = .s7750))

end Sys2Proof
end

