-- ==== Sys2Proof/Decode.lean ====
section
/-! DEFINITION. Decoding from the opcode maps of R132 to R134, total on any bytes and rejecting by name; and after
it the encoder, written from the encoding tables of the instructions' own pages (files 40 to 44). -/

namespace Sys2Proof

/-- Why bytes are no instruction. -/
inductive DecodeError where
  /-- The code has no entry in its map, or only one for the 7750 Series on another chip (R128, R130). -/
  | undefinedCode
  /-- The bytes end inside the instruction. -/
  | truncated
  deriving DecidableEq, Repr

/-- The operand bytes that follow the opcode byte (the formats of R131), and the instruction they make. -/
inductive Shape where
  /-- IMP, ACC: no operand byte. -/
  | nothing (i : Instr)
  /-- IMM with the length by m. -/
  | immM (f : Imm → Instr)
  /-- IMM with the length by x. -/
  | immX (f : Imm → Instr)
  /-- One byte: DIR and the other modes with `dd` or `nn`, IMM8, STKMASK, BRKB, REL8. -/
  | byte (f : Byte → Instr)
  /-- Two bytes, low first: ABS, ABSX, ABSY, IMM16, REL16, AIND, AINDL, AXIND. -/
  | word (f : Word → Instr)
  /-- Three bytes, low first: ABL, ABLX. -/
  | long (f : Addr → Instr)
  /-- BLK: two bytes. -/
  | two (f : Byte → Byte → Instr)
  /-- DIRBIT, DIR_IMM, DIRX_IMM: `dd imm`, the immediate by m. -/
  | byteImm (f : Byte → Imm → Instr)
  /-- ABSBIT, ABS_IMM, ABSX_IMM: `ll mm imm`, the immediate by m. -/
  | wordImm (f : Word → Imm → Instr)
  /-- DIRBITREL: `dd imm rr`. -/
  | byteImmRel (f : Byte → Imm → Byte → Instr)
  /-- ABSBITREL: `ll mm imm rr`. -/
  | wordImmRel (f : Word → Imm → Byte → Instr)

/-- A filled cell of an opcode map; `only7750` for the cells marked with a star. -/
structure Entry where
  only7750 : Bool
  shape : Shape

/-- A cell of an opcode map: `none` where the map is blank (R130). -/
abbrev Cell := Option Entry

namespace OpMap

/-- A blank cell. -/
def un : Cell := none

def cell (sh : Shape) : Cell := some ⟨false, sh⟩

/-- A cell with a star: 7750 Series only. -/
def new (c : Cell) : Cell := c.map fun e => ⟨true, e.shape⟩

def op (i : Instr) : Cell := cell (.nothing i)
def immM (f : Imm → Instr) : Cell := cell (.immM f)
def immX (f : Imm → Instr) : Cell := cell (.immX f)
def byte (f : Byte → Instr) : Cell := cell (.byte f)
def word (f : Word → Instr) : Cell := cell (.word f)
def long (f : Addr → Instr) : Cell := cell (.long f)
def two (f : Byte → Byte → Instr) : Cell := cell (.two f)

/-- A mode with a one-byte, two-byte or three-byte operand. -/
def b1 (k : Byte → Mode) (f : Mode → Instr) : Cell := byte fun d => f (k d)
def b2 (k : Word → Mode) (f : Mode → Instr) : Cell := word fun d => f (k d)
def b3 (k : Addr → Mode) (f : Mode → Instr) : Cell := long fun d => f (k d)

/-- The address before the data or mask (R138, R139). -/
def d1 (k : Byte → Mode) (f : Imm → Mode → Instr) : Cell := cell (.byteImm fun d v => f v (k d))
def d2 (k : Word → Mode) (f : Imm → Mode → Instr) : Cell := cell (.wordImm fun d v => f v (k d))

/-- Address, mask, displacement (R103, R104). -/
def r1 (k : Byte → Mode) (f : Imm → Mode → Byte → Instr) : Cell :=
  cell (.byteImmRel fun d v rr => f v (k d) rr)
def r2 (k : Word → Mode) (f : Imm → Mode → Byte → Instr) : Cell :=
  cell (.wordImmRel fun d v rr => f v (k d) rr)

def acM (f : Acc → Operand → Instr) (r : Acc) (mode : Mode) : Instr := f r (.mem mode)
def acI (f : Acc → Operand → Instr) (r : Acc) (v : Imm) : Instr := f r (.imm v)
def opM (f : Operand → Instr) (mode : Mode) : Instr := f (.mem mode)
def opI (f : Operand → Instr) (v : Imm) : Instr := f (.imm v)
def tgM (f : Target → Instr) (mode : Mode) : Instr := f (.mem mode)
def jp (f : Jump → Instr) (k : Word → Jump) (a : Word) : Instr := f (k a)
def jpL (f : Jump → Instr) (a : Addr) : Instr := f (.abl a)
def brS (f : Disp → Instr) (rr : Byte) : Instr := f (.short rr)
def brL (f : Disp → Instr) (rr : Word) : Instr := f (.long rr)

/-- Row 0 of Table 1 (R132). -/
def page1row0 : List Cell :=
  [byte .brk, b1 .dXInd (acM .ora .a), un, b1 .sr (acM .ora .a),
   d1 .dir .seb, b1 .dir (acM .ora .a), b1 .dir (tgM .asl), b1 .dIndL (acM .ora .a),
   op .php, immM (acI .ora .a), op (.asl (.acc .a)), op .phd,
   d2 .abs .seb, b2 .abs (acM .ora .a), b2 .abs (tgM .asl), b3 .abl (acM .ora .a)]

/-- Row 1 of Table 1 (R132). -/
def page1row1 : List Cell :=
  [byte .bpl, b1 .dIndY (acM .ora .a), b1 .dInd (acM .ora .a), b1 .srIndY (acM .ora .a),
   d1 .dir .clb, b1 .dirX (acM .ora .a), b1 .dirX (tgM .asl), b1 .dIndLY (acM .ora .a),
   op .clc, b2 .absY (acM .ora .a), op (.dec (.acc .a)), op .tas,
   d2 .abs .clb, b2 .absX (acM .ora .a), b2 .absX (tgM .asl), b3 .ablX (acM .ora .a)]

/-- Row 2 of Table 1 (R132). -/
def page1row2 : List Cell :=
  [word (jp .jsr .abs), b1 .dXInd (acM .and .a), long (jpL .jsr), b1 .sr (acM .and .a),
   r1 .dir .bbs, b1 .dir (acM .and .a), b1 .dir (tgM .rol), b1 .dIndL (acM .and .a),
   op .plp, immM (acI .and .a), op (.rol (.acc .a)), op .pld,
   r2 .abs .bbs, b2 .abs (acM .and .a), b2 .abs (tgM .rol), b3 .abl (acM .and .a)]

/-- Row 3 of Table 1 (R132). -/
def page1row3 : List Cell :=
  [byte .bmi, b1 .dIndY (acM .and .a), b1 .dInd (acM .and .a), b1 .srIndY (acM .and .a),
   r1 .dir .bbc, b1 .dirX (acM .and .a), b1 .dirX (tgM .rol), b1 .dIndLY (acM .and .a),
   op .sec, b2 .absY (acM .and .a), op (.inc (.acc .a)), op .tsa,
   r2 .abs .bbc, b2 .absX (acM .and .a), b2 .absX (tgM .rol), b3 .ablX (acM .and .a)]

/-- Row 4 of Table 1 (R132). -/
def page1row4 : List Cell :=
  [op .rti, b1 .dXInd (acM .eor .a), un, b1 .sr (acM .eor .a),
   two .mvp, b1 .dir (acM .eor .a), b1 .dir (tgM .lsr), b1 .dIndL (acM .eor .a),
   op .pha, immM (acI .eor .a), op (.lsr (.acc .a)), op .phg,
   word (jp .jmp .abs), b2 .abs (acM .eor .a), b2 .abs (tgM .lsr), b3 .abl (acM .eor .a)]

/-- Row 5 of Table 1 (R132). -/
def page1row5 : List Cell :=
  [byte .bvc, b1 .dIndY (acM .eor .a), b1 .dInd (acM .eor .a), b1 .srIndY (acM .eor .a),
   two .mvn, b1 .dirX (acM .eor .a), b1 .dirX (tgM .lsr), b1 .dIndLY (acM .eor .a),
   op .cli, b2 .absY (acM .eor .a), op .phy, op .tad,
   long (jpL .jmp), b2 .absX (acM .eor .a), b2 .absX (tgM .lsr), b3 .ablX (acM .eor .a)]

/-- Row 6 of Table 1 (R132). -/
def page1row6 : List Cell :=
  [op .rts, b1 .dXInd (acM .adc .a), word .per, b1 .sr (acM .adc .a),
   d1 .dir .ldm, b1 .dir (acM .adc .a), b1 .dir (tgM .ror), b1 .dIndL (acM .adc .a),
   op .pla, immM (acI .adc .a), op (.ror (.acc .a)), op .rtl,
   word (jp .jmp .ind), b2 .abs (acM .adc .a), b2 .abs (tgM .ror), b3 .abl (acM .adc .a)]

/-- Row 7 of Table 1 (R132). -/
def page1row7 : List Cell :=
  [byte .bvs, b1 .dIndY (acM .adc .a), b1 .dInd (acM .adc .a), b1 .srIndY (acM .adc .a),
   d1 .dirX .ldm, b1 .dirX (acM .adc .a), b1 .dirX (tgM .ror), b1 .dIndLY (acM .adc .a),
   op .sei, b2 .absY (acM .adc .a), op .ply, op .tda,
   word (jp .jmp .indX), b2 .absX (acM .adc .a), b2 .absX (tgM .ror), b3 .ablX (acM .adc .a)]

/-- Row 8 of Table 1 (R132). -/
def page1row8 : List Cell :=
  [byte (brS .bra), b1 .dXInd (.sta .a), word (brL .bra), b1 .sr (.sta .a),
   b1 .dir .sty, b1 .dir (.sta .a), b1 .dir .stx, b1 .dIndL (.sta .a),
   op .dey, un, op .txa, op .pht,
   b2 .abs .sty, b2 .abs (.sta .a), b2 .abs .stx, b3 .abl (.sta .a)]

/-- Row 9 of Table 1 (R132). -/
def page1row9 : List Cell :=
  [byte .bcc, b1 .dIndY (.sta .a), b1 .dInd (.sta .a), b1 .srIndY (.sta .a),
   b1 .dirX .sty, b1 .dirX (.sta .a), b1 .dirY .stx, b1 .dIndLY (.sta .a),
   op .tya, b2 .absY (.sta .a), op .txs, op .txy,
   d2 .abs .ldm, b2 .absX (.sta .a), d2 .absX .ldm, b3 .ablX (.sta .a)]

/-- Row A of Table 1 (R132). -/
def page1rowA : List Cell :=
  [immX (opI .ldy), b1 .dXInd (acM .lda .a), immX (opI .ldx), b1 .sr (acM .lda .a),
   b1 .dir (opM .ldy), b1 .dir (acM .lda .a), b1 .dir (opM .ldx), b1 .dIndL (acM .lda .a),
   op .tay, immM (acI .lda .a), op .tax, op .plt,
   b2 .abs (opM .ldy), b2 .abs (acM .lda .a), b2 .abs (opM .ldx), b3 .abl (acM .lda .a)]

/-- Row B of Table 1 (R132). -/
def page1rowB : List Cell :=
  [byte .bcs, b1 .dIndY (acM .lda .a), b1 .dInd (acM .lda .a), b1 .srIndY (acM .lda .a),
   b1 .dirX (opM .ldy), b1 .dirX (acM .lda .a), b1 .dirY (opM .ldx), b1 .dIndLY (acM .lda .a),
   op .clv, b2 .absY (acM .lda .a), op .tsx, op .tyx,
   b2 .absX (opM .ldy), b2 .absX (acM .lda .a), b2 .absY (opM .ldx), b3 .ablX (acM .lda .a)]

/-- Row C of Table 1 (R132). -/
def page1rowC : List Cell :=
  [immX (opI .cpy), b1 .dXInd (acM .cmp .a), byte .clp, b1 .sr (acM .cmp .a),
   b1 .dir (opM .cpy), b1 .dir (acM .cmp .a), b1 .dir (tgM .dec), b1 .dIndL (acM .cmp .a),
   op .iny, immM (acI .cmp .a), op .dex, op .wit,
   b2 .abs (opM .cpy), b2 .abs (acM .cmp .a), b2 .abs (tgM .dec), b3 .abl (acM .cmp .a)]

/-- Row D of Table 1 (R132). -/
def page1rowD : List Cell :=
  [byte .bne, b1 .dIndY (acM .cmp .a), b1 .dInd (acM .cmp .a), b1 .srIndY (acM .cmp .a),
   byte .pei, b1 .dirX (acM .cmp .a), b1 .dirX (tgM .dec), b1 .dIndLY (acM .cmp .a),
   op .clm, b2 .absY (acM .cmp .a), op .phx, op .stp,
   word (jp .jmp .indL), b2 .absX (acM .cmp .a), b2 .absX (tgM .dec), b3 .ablX (acM .cmp .a)]

/-- Row E of Table 1 (R132). -/
def page1rowE : List Cell :=
  [immX (opI .cpx), b1 .dXInd (acM .sbc .a), byte .sep, b1 .sr (acM .sbc .a),
   b1 .dir (opM .cpx), b1 .dir (acM .sbc .a), b1 .dir (tgM .inc), b1 .dIndL (acM .sbc .a),
   op .inx, immM (acI .sbc .a), op .nop, byte .psh,
   b2 .abs (opM .cpx), b2 .abs (acM .sbc .a), b2 .abs (tgM .inc), b3 .abl (acM .sbc .a)]

/-- Row F of Table 1 (R132). -/
def page1rowF : List Cell :=
  [byte .beq, b1 .dIndY (acM .sbc .a), b1 .dInd (acM .sbc .a), b1 .srIndY (acM .sbc .a),
   word .pea, b1 .dirX (acM .sbc .a), b1 .dirX (tgM .inc), b1 .dIndLY (acM .sbc .a),
   op .sem, b2 .absY (acM .sbc .a), op .plx, byte .pul,
   word (jp .jsr .indX), b2 .absX (acM .sbc .a), b2 .absX (tgM .inc), b3 .ablX (acM .sbc .a)]

/-- Table 1, the first byte (R132).  The cells 42 and 89 are the two prefixing codes of R125, which `decode` tests for first. -/
def page1 : List (List Cell) :=
  [page1row0, page1row1, page1row2, page1row3, page1row4, page1row5, page1row6, page1row7,
   page1row8, page1row9, page1rowA, page1rowB, page1rowC, page1rowD, page1rowE, page1rowF]

/-- Row 0 of Table 2 (R133). -/
def page2row0 : List Cell :=
  [un, b1 .dXInd (acM .ora .b), un, b1 .sr (acM .ora .b),
   un, b1 .dir (acM .ora .b), un, b1 .dIndL (acM .ora .b),
   new (op (.asr (.acc .b))), immM (acI .ora .b), op (.asl (.acc .b)), un,
   un, b2 .abs (acM .ora .b), un, b3 .abl (acM .ora .b)]

/-- Row 1 of Table 2 (R133). -/
def page2row1 : List Cell :=
  [un, b1 .dIndY (acM .ora .b), b1 .dInd (acM .ora .b), b1 .srIndY (acM .ora .b),
   un, b1 .dirX (acM .ora .b), un, b1 .dIndLY (acM .ora .b),
   un, b2 .absY (acM .ora .b), op (.dec (.acc .b)), op .tbs,
   un, b2 .absX (acM .ora .b), un, b3 .ablX (acM .ora .b)]

/-- Row 2 of Table 2 (R133). -/
def page2row2 : List Cell :=
  [un, b1 .dXInd (acM .and .b), un, b1 .sr (acM .and .b),
   un, b1 .dir (acM .and .b), un, b1 .dIndL (acM .and .b),
   un, immM (acI .and .b), op (.rol (.acc .b)), un,
   un, b2 .abs (acM .and .b), un, b3 .abl (acM .and .b)]

/-- Row 3 of Table 2 (R133). -/
def page2row3 : List Cell :=
  [un, b1 .dIndY (acM .and .b), b1 .dInd (acM .and .b), b1 .srIndY (acM .and .b),
   un, b1 .dirX (acM .and .b), un, b1 .dIndLY (acM .and .b),
   un, b2 .absY (acM .and .b), op (.inc (.acc .b)), op .tsb,
   un, b2 .absX (acM .and .b), un, b3 .ablX (acM .and .b)]

/-- Row 4 of Table 2 (R133). -/
def page2row4 : List Cell :=
  [un, b1 .dXInd (acM .eor .b), un, b1 .sr (acM .eor .b),
   un, b1 .dir (acM .eor .b), un, b1 .dIndL (acM .eor .b),
   op .phb, immM (acI .eor .b), op (.lsr (.acc .b)), un,
   un, b2 .abs (acM .eor .b), un, b3 .abl (acM .eor .b)]

/-- Row 5 of Table 2 (R133). -/
def page2row5 : List Cell :=
  [un, b1 .dIndY (acM .eor .b), b1 .dInd (acM .eor .b), b1 .srIndY (acM .eor .b),
   un, b1 .dirX (acM .eor .b), un, b1 .dIndLY (acM .eor .b),
   un, b2 .absY (acM .eor .b), un, op .tbd,
   un, b2 .absX (acM .eor .b), un, b3 .ablX (acM .eor .b)]

/-- Row 6 of Table 2 (R133). -/
def page2row6 : List Cell :=
  [un, b1 .dXInd (acM .adc .b), un, b1 .sr (acM .adc .b),
   un, b1 .dir (acM .adc .b), un, b1 .dIndL (acM .adc .b),
   op .plb, immM (acI .adc .b), op (.ror (.acc .b)), un,
   un, b2 .abs (acM .adc .b), un, b3 .abl (acM .adc .b)]

/-- Row 7 of Table 2 (R133). -/
def page2row7 : List Cell :=
  [un, b1 .dIndY (acM .adc .b), b1 .dInd (acM .adc .b), b1 .srIndY (acM .adc .b),
   un, b1 .dirX (acM .adc .b), un, b1 .dIndLY (acM .adc .b),
   un, b2 .absY (acM .adc .b), un, op .tdb,
   un, b2 .absX (acM .adc .b), un, b3 .ablX (acM .adc .b)]

/-- Row 8 of Table 2 (R133). -/
def page2row8 : List Cell :=
  [un, b1 .dXInd (.sta .b), un, b1 .sr (.sta .b),
   un, b1 .dir (.sta .b), un, b1 .dIndL (.sta .b),
   un, un, op .txb, new (op (.exts .b)),
   un, b2 .abs (.sta .b), un, b3 .abl (.sta .b)]

/-- Row 9 of Table 2 (R133). -/
def page2row9 : List Cell :=
  [un, b1 .dIndY (.sta .b), b1 .dInd (.sta .b), b1 .srIndY (.sta .b),
   un, b1 .dirX (.sta .b), un, b1 .dIndLY (.sta .b),
   op .tyb, b2 .absY (.sta .b), un, un,
   un, b2 .absX (.sta .b), un, b3 .ablX (.sta .b)]

/-- Row A of Table 2 (R133). -/
def page2rowA : List Cell :=
  [un, b1 .dXInd (acM .lda .b), un, b1 .sr (acM .lda .b),
   un, b1 .dir (acM .lda .b), un, b1 .dIndL (acM .lda .b),
   op .tby, immM (acI .lda .b), op .tbx, new (op (.extz .b)),
   un, b2 .abs (acM .lda .b), un, b3 .abl (acM .lda .b)]

/-- Row B of Table 2 (R133). -/
def page2rowB : List Cell :=
  [un, b1 .dIndY (acM .lda .b), b1 .dInd (acM .lda .b), b1 .srIndY (acM .lda .b),
   un, b1 .dirX (acM .lda .b), un, b1 .dIndLY (acM .lda .b),
   un, b2 .absY (acM .lda .b), un, un,
   un, b2 .absX (acM .lda .b), un, b3 .ablX (acM .lda .b)]

/-- Row C of Table 2 (R133). -/
def page2rowC : List Cell :=
  [un, b1 .dXInd (acM .cmp .b), un, b1 .sr (acM .cmp .b),
   un, b1 .dir (acM .cmp .b), un, b1 .dIndL (acM .cmp .b),
   un, immM (acI .cmp .b), un, un,
   un, b2 .abs (acM .cmp .b), un, b3 .abl (acM .cmp .b)]

/-- Row D of Table 2 (R133). -/
def page2rowD : List Cell :=
  [un, b1 .dIndY (acM .cmp .b), b1 .dInd (acM .cmp .b), b1 .srIndY (acM .cmp .b),
   un, b1 .dirX (acM .cmp .b), un, b1 .dIndLY (acM .cmp .b),
   un, b2 .absY (acM .cmp .b), un, un,
   un, b2 .absX (acM .cmp .b), un, b3 .ablX (acM .cmp .b)]

/-- Row E of Table 2 (R133). -/
def page2rowE : List Cell :=
  [un, b1 .dXInd (acM .sbc .b), un, b1 .sr (acM .sbc .b),
   un, b1 .dir (acM .sbc .b), un, b1 .dIndL (acM .sbc .b),
   un, immM (acI .sbc .b), un, un,
   un, b2 .abs (acM .sbc .b), un, b3 .abl (acM .sbc .b)]

/-- Row F of Table 2 (R133). -/
def page2rowF : List Cell :=
  [un, b1 .dIndY (acM .sbc .b), b1 .dInd (acM .sbc .b), b1 .srIndY (acM .sbc .b),
   un, b1 .dirX (acM .sbc .b), un, b1 .dIndLY (acM .sbc .b),
   un, b2 .absY (acM .sbc .b), un, un,
   un, b2 .absX (acM .sbc .b), un, b3 .ablX (acM .sbc .b)]

/-- Table 2, the byte after 42 (R133). -/
def page2 : List (List Cell) :=
  [page2row0, page2row1, page2row2, page2row3, page2row4, page2row5, page2row6, page2row7,
   page2row8, page2row9, page2rowA, page2rowB, page2rowC, page2rowD, page2rowE, page2rowF]

/-- Row 0 of Table 3 (R134). -/
def page3row0 : List Cell :=
  [un, b1 .dXInd (opM .mpy), un, b1 .sr (opM .mpy),
   un, b1 .dir (opM .mpy), new (b1 .dir (tgM .asr)), b1 .dIndL (opM .mpy),
   new (op (.asr (.acc .a))), immM (opI .mpy), un, un,
   un, b2 .abs (opM .mpy), new (b2 .abs (tgM .asr)), b3 .abl (opM .mpy)]

/-- Row 1 of Table 3 (R134). -/
def page3row1 : List Cell :=
  [un, b1 .dIndY (opM .mpy), b1 .dInd (opM .mpy), b1 .srIndY (opM .mpy),
   un, b1 .dirX (opM .mpy), new (b1 .dirX (tgM .asr)), b1 .dIndLY (opM .mpy),
   un, b2 .absY (opM .mpy), un, un,
   un, b2 .absX (opM .mpy), new (b2 .absX (tgM .asr)), b3 .ablX (opM .mpy)]

/-- Row 2 of Table 3 (R134). -/
def page3row2 : List Cell :=
  [un, b1 .dXInd (opM .div), un, b1 .sr (opM .div),
   un, b1 .dir (opM .div), un, b1 .dIndL (opM .div),
   op .xab, immM (opI .div), un, un,
   un, b2 .abs (opM .div), un, b3 .abl (opM .div)]

/-- Row 3 of Table 3 (R134). -/
def page3row3 : List Cell :=
  [un, b1 .dIndY (opM .div), b1 .dInd (opM .div), b1 .srIndY (opM .div),
   un, b1 .dirX (opM .div), un, b1 .dIndLY (opM .div),
   un, b2 .absY (opM .div), un, un,
   un, b2 .absX (opM .div), un, b3 .ablX (opM .div)]

/-- Row 4 of Table 3 (R134). -/
def page3row4 : List Cell :=
  [un, un, un, un,
   un, un, un, un,
   un, immM .rla, un, un,
   un, un, un, un]

/-- Row 8 of Table 3 (R134). -/
def page3row8 : List Cell :=
  [un, new (b1 .dXInd (opM .mpys)), un, new (b1 .sr (opM .mpys)),
   un, new (b1 .dir (opM .mpys)), un, new (b1 .dIndL (opM .mpys)),
   un, new (immM (opI .mpys)), un, new (op (.exts .a)),
   un, new (b2 .abs (opM .mpys)), un, new (b3 .abl (opM .mpys))]

/-- Row 9 of Table 3 (R134). -/
def page3row9 : List Cell :=
  [un, new (b1 .dIndY (opM .mpys)), new (b1 .dInd (opM .mpys)), new (b1 .srIndY (opM .mpys)),
   un, new (b1 .dirX (opM .mpys)), un, new (b1 .dIndLY (opM .mpys)),
   un, new (b2 .absY (opM .mpys)), un, un,
   un, new (b2 .absX (opM .mpys)), un, new (b3 .ablX (opM .mpys))]

/-- Row A of Table 3 (R134). -/
def page3rowA : List Cell :=
  [un, new (b1 .dXInd (opM .divs)), un, new (b1 .sr (opM .divs)),
   un, new (b1 .dir (opM .divs)), un, new (b1 .dIndL (opM .divs)),
   un, new (immM (opI .divs)), un, new (op (.extz .a)),
   un, new (b2 .abs (opM .divs)), un, new (b3 .abl (opM .divs))]

/-- Row B of Table 3 (R134). -/
def page3rowB : List Cell :=
  [un, new (b1 .dIndY (opM .divs)), new (b1 .dInd (opM .divs)), new (b1 .srIndY (opM .divs)),
   un, new (b1 .dirX (opM .divs)), un, new (b1 .dIndLY (opM .divs)),
   un, new (b2 .absY (opM .divs)), un, un,
   un, new (b2 .absX (opM .divs)), un, new (b3 .ablX (opM .divs))]

/-- Row C of Table 3 (R134). -/
def page3rowC : List Cell :=
  [un, un, byte .ldt, un,
   un, un, un, un,
   un, un, un, un,
   un, un, un, un]

/-- Table 3, the byte after 89 (R134); a row without an instruction is empty. -/
def page3 : List (List Cell) :=
  [page3row0, page3row1, page3row2, page3row3, page3row4, [], [], [],
   page3row8, page3row9, page3rowA, page3rowB, page3rowC, [], [], []]
end OpMap

/-- The cell of byte `b`: row by the high digit, column by the low digit. -/
def cellAt (page : List (List Cell)) (b : Byte) : Cell :=
  ((page[b.toNat / 16]?.getD [])[b.toNat % 16]?).getD none

/-- The entry of a cell on a chip of this series: a starred cell is undefined on `s7700` (R128). -/
def available (series : Series) : Cell → Option Entry
  | some e => if e.only7750 && decide (series = .s7700) then none else some e
  | none => none

/-- The entry of a map at a byte, on a chip of this series. -/
def entryAt (series : Series) (page : List (List Cell)) (b : Byte) : Option Entry :=
  available series (cellAt page b)

/-- The immediate's length in bytes: 1 when the governing flag is 1, 2 when it is 0 (R124). -/
def immLen (flag : Bool) : Nat := if flag then 1 else 2

/-- How many operand bytes a format has with these values of m and x (R131). -/
def Shape.operandLen (m x : Bool) : Shape → Nat
  | .nothing _ => 0
  | .immM _ => immLen m
  | .immX _ => immLen x
  | .byte _ => 1
  | .word _ => 2
  | .long _ => 3
  | .two _ => 2
  | .byteImm _ => 1 + immLen m
  | .wordImm _ => 2 + immLen m
  | .byteImmRel _ => 2 + immLen m
  | .wordImmRel _ => 3 + immLen m

/-- A 16-bit operand, low byte first (R123). -/
def takeWord : List Byte → Option (Word × List Byte)
  | lo :: hi :: rest => some (Machine.mkWord hi lo, rest)
  | _ => none

/-- An immediate of the length that the flag selects, low byte first (R123, R124). -/
def takeImm (flag : Bool) : List Byte → Option (Imm × List Byte)
  | lo :: hi :: rest => if flag then some (.i8 lo, hi :: rest) else some (.i16 (Machine.mkWord hi lo), rest)
  | [lo] => if flag then some (.i8 lo, []) else none
  | [] => none

/-- Reads the operand bytes of a format. -/
def Shape.read (m x : Bool) : Shape → List Byte → Option (Instr × List Byte)
  | .nothing i, rest => some (i, rest)
  | .immM f, bs => (takeImm m bs).map fun p => (f p.1, p.2)
  | .immX f, bs => (takeImm x bs).map fun p => (f p.1, p.2)
  | .byte f, b :: rest => some (f b, rest)
  | .word f, bs => (takeWord bs).map fun p => (f p.1, p.2)
  | .long f, ll :: mm :: hh :: rest => some (f (Machine.mkAddr hh (Machine.mkWord mm ll)), rest)
  | .two f, b :: c :: rest => some (f b c, rest)
  | .byteImm f, d :: bs => (takeImm m bs).map fun p => (f d p.1, p.2)
  | .wordImm f, ll :: mm :: bs => (takeImm m bs).map fun p => (f (Machine.mkWord mm ll) p.1, p.2)
  | .byteImmRel f, d :: bs =>
    match takeImm m bs with
    | some (v, rr :: rest) => some (f d v rr, rest)
    | _ => none
  | .wordImmRel f, ll :: mm :: bs =>
    match takeImm m bs with
    | some (v, rr :: rest) => some (f (Machine.mkWord mm ll) v rr, rest)
    | _ => none
  | _, _ => none

/-- Whether the first byte is one of the two codes that open a second map (R122). -/
def opensPage (b : Byte) : Bool := b == 0x42#8 || b == 0x89#8

/-- The map that the byte after 42 or 89 is looked up in (R122, R126, R127). -/
def secondPage (b : Byte) : List (List Cell) := if b == 0x42#8 then OpMap.page2 else OpMap.page3

/-- The entry of an instruction by its opcode bytes: one byte, or two after 42 or 89. -/
def lookup (series : Series) : List Byte → Option Entry
  | [b] => if opensPage b then none else entryAt series OpMap.page1 b
  | [p, b] => if opensPage p then entryAt series (secondPage p) b else none
  | _ => none

/-- Reads the operands after the opcode bytes, if the code is defined. -/
def readOperands (m x : Bool) (e : Option Entry) (bs : List Byte) : Except DecodeError (Instr × List Byte) :=
  match e with
  | none => .error .undefinedCode
  | some e =>
    match e.shape.read m x bs with
    | none => .error .truncated
    | some p => .ok p

/-- R122: the instruction at the head of `bs`, decoded with these values of m and x, and the bytes after it. -/
def decode (series : Series) (m x : Bool) : List Byte → Except DecodeError (Instr × List Byte)
  | [] => .error .truncated
  | [b] => if opensPage b then .error .truncated else readOperands m x (lookup series [b]) []
  | b :: c :: rest =>
    if opensPage b then readOperands m x (lookup series [b, c]) rest
    else readOperands m x (lookup series [b]) (c :: rest)

/-! ### The encoder -/

/-- Two bytes, low first (R123). -/
def putWord (w : Word) : List Byte := [Machine.loByte w, Machine.hiByte w]

/-- Three bytes, low first (R123). -/
def putAddr (a : Addr) : List Byte := putWord (Machine.addrOffs a) ++ [Machine.addrBank a]

def Imm.bytes : Imm → List Byte
  | .i8 v => [v]
  | .i16 v => putWord v

/-- The operand bytes of a memory mode (R131). -/
def Mode.bytes : Mode → List Byte
  | .dir d => [d]
  | .dirX d => [d]
  | .dirY d => [d]
  | .dInd d => [d]
  | .dXInd d => [d]
  | .dIndY d => [d]
  | .dIndL d => [d]
  | .dIndLY d => [d]
  | .abs a => putWord a
  | .absX a => putWord a
  | .absY a => putWord a
  | .abl a => putAddr a
  | .ablX a => putAddr a
  | .sr n => [n]
  | .srIndY n => [n]

/-- The column pattern of the accumulator group (R135): what is added to the code of the direct indexed X
indirect form.  Direct indexed Y has no place in it. -/
def Mode.accOffset : Mode → Option Byte
  | .dXInd _ => some 0x00#8
  | .sr _ => some 0x02#8
  | .dir _ => some 0x04#8
  | .dIndL _ => some 0x06#8
  | .abs _ => some 0x0C#8
  | .abl _ => some 0x0E#8
  | .dIndY _ => some 0x10#8
  | .dInd _ => some 0x11#8
  | .srIndY _ => some 0x12#8
  | .dirX _ => some 0x14#8
  | .dIndLY _ => some 0x16#8
  | .absY _ => some 0x18#8
  | .absX _ => some 0x1C#8
  | .ablX _ => some 0x1E#8
  | .dirY _ => none

/-- The code in front of a B form (R126). -/
def Acc.lead : Acc → List Byte
  | .a => []
  | .b => [0x42#8]

/-- A memory form of the accumulator group with base code `c` (R135). -/
def encAccMem (lead : List Byte) (c : Byte) (mode : Mode) : Option (List Byte) :=
  mode.accOffset.map fun k => lead ++ (c + k) :: mode.bytes

/-- A form of the accumulator group: the immediate form is at `c + 08` (R135). -/
def encAcc (lead : List Byte) (c : Byte) : Operand → Option (List Byte)
  | .imm v => some (lead ++ (c + 0x08#8) :: v.bytes)
  | .mem mode => encAccMem lead c mode

/-- A read-modify-write instruction: its codes for the accumulator form (A and B), dd, dd,X, mmll and mmll,X. -/
def encRmw (accA accB lead : List Byte) (dir dirX abs absX : Byte) : Target → Option (List Byte)
  | .acc .a => some accA
  | .acc .b => some accB
  | .mem (.dir d) => some (lead ++ [dir, d])
  | .mem (.dirX d) => some (lead ++ [dirX, d])
  | .mem (.abs a) => some (lead ++ abs :: putWord a)
  | .mem (.absX a) => some (lead ++ absX :: putWord a)
  | .mem _ => none

/-- A compare of an index register: immediate, dd, mmll (R260, R261). -/
def encCompare (imm dir abs : Byte) : Operand → Option (List Byte)
  | .imm v => some (imm :: v.bytes)
  | .mem (.dir d) => some [dir, d]
  | .mem (.abs a) => some (abs :: putWord a)
  | .mem _ => none

/-- A bit instruction: the address, then the mask (R138). -/
def encBit (dir abs : Byte) (v : Imm) : Mode → Option (List Byte)
  | .dir d => some (dir :: d :: v.bytes)
  | .abs a => some (abs :: (putWord a ++ v.bytes))
  | _ => none

def encJump : Jump → List Byte
  | .abs a => 0x4C#8 :: putWord a
  | .abl a => 0x5C#8 :: putAddr a
  | .ind a => 0x6C#8 :: putWord a
  | .indL a => 0xDC#8 :: putWord a
  | .indX a => 0x7C#8 :: putWord a

def encCall : Jump → Option (List Byte)
  | .abs a => some (0x20#8 :: putWord a)
  | .abl a => some (0x22#8 :: putAddr a)
  | .indX a => some (0xFC#8 :: putWord a)
  | _ => none

def encLdm (v : Imm) : Mode → Option (List Byte)
  | .dir d => some (0x64#8 :: d :: v.bytes)
  | .dirX d => some (0x74#8 :: d :: v.bytes)
  | .abs a => some (0x9C#8 :: (putWord a ++ v.bytes))
  | .absX a => some (0x9E#8 :: (putWord a ++ v.bytes))
  | _ => none

def encLdx : Operand → Option (List Byte)
  | .imm v => some (0xA2#8 :: v.bytes)
  | .mem (.dir d) => some [0xA6#8, d]
  | .mem (.dirY d) => some [0xB6#8, d]
  | .mem (.abs a) => some (0xAE#8 :: putWord a)
  | .mem (.absY a) => some (0xBE#8 :: putWord a)
  | .mem _ => none

def encLdy : Operand → Option (List Byte)
  | .imm v => some (0xA0#8 :: v.bytes)
  | .mem (.dir d) => some [0xA4#8, d]
  | .mem (.dirX d) => some [0xB4#8, d]
  | .mem (.abs a) => some (0xAC#8 :: putWord a)
  | .mem (.absX a) => some (0xBC#8 :: putWord a)
  | .mem _ => none

def encStx : Mode → Option (List Byte)
  | .dir d => some [0x86#8, d]
  | .dirY d => some [0x96#8, d]
  | .abs a => some (0x8E#8 :: putWord a)
  | _ => none

def encSty : Mode → Option (List Byte)
  | .dir d => some [0x84#8, d]
  | .dirX d => some [0x94#8, d]
  | .abs a => some (0x8C#8 :: putWord a)
  | _ => none

/-- The bytes of an instruction, in memory order; `none` for a term that no encoding table has. -/
def encode : Instr → Option (List Byte)
  | .lda r o => encAcc r.lead 0xA1#8 o
  | .ldm v mode => encLdm v mode
  | .ldt v => some [0x89#8, 0xC2#8, v]
  | .ldx o => encLdx o
  | .ldy o => encLdy o
  | .sta r mode => encAccMem r.lead 0x81#8 mode
  | .stx mode => encStx mode
  | .sty mode => encSty mode
  | .tax => some [0xAA#8]
  | .txa => some [0x8A#8]
  | .tay => some [0xA8#8]
  | .tya => some [0x98#8]
  | .tsx => some [0xBA#8]
  | .txs => some [0x9A#8]
  | .tad => some [0x5B#8]
  | .tas => some [0x1B#8]
  | .tda => some [0x7B#8]
  | .tsa => some [0x3B#8]
  | .tbd => some [0x42#8, 0x5B#8]
  | .tdb => some [0x42#8, 0x7B#8]
  | .tbs => some [0x42#8, 0x1B#8]
  | .tsb => some [0x42#8, 0x3B#8]
  | .tbx => some [0x42#8, 0xAA#8]
  | .txb => some [0x42#8, 0x8A#8]
  | .tby => some [0x42#8, 0xA8#8]
  | .tyb => some [0x42#8, 0x98#8]
  | .txy => some [0x9B#8]
  | .tyx => some [0xBB#8]
  | .psh n => some [0xEB#8, n]
  | .pul n => some [0xFB#8, n]
  | .pha => some [0x48#8]
  | .pla => some [0x68#8]
  | .php => some [0x08#8]
  | .plp => some [0x28#8]
  | .phb => some [0x42#8, 0x48#8]
  | .plb => some [0x42#8, 0x68#8]
  | .phd => some [0x0B#8]
  | .pld => some [0x2B#8]
  | .pht => some [0x8B#8]
  | .plt => some [0xAB#8]
  | .phx => some [0xDA#8]
  | .plx => some [0xFA#8]
  | .phy => some [0x5A#8]
  | .ply => some [0x7A#8]
  | .phg => some [0x4B#8]
  | .pea v => some (0xF4#8 :: putWord v)
  | .pei d => some [0xD4#8, d]
  | .per v => some (0x62#8 :: putWord v)
  | .mvn d s => some [0x54#8, d, s]
  | .mvp d s => some [0x44#8, d, s]
  | .xab => some [0x89#8, 0x28#8]
  | .adc r o => encAcc r.lead 0x61#8 o
  | .sbc r o => encAcc r.lead 0xE1#8 o
  | .inc t => encRmw [0x3A#8] [0x42#8, 0x3A#8] [] 0xE6#8 0xF6#8 0xEE#8 0xFE#8 t
  | .dec t => encRmw [0x1A#8] [0x42#8, 0x1A#8] [] 0xC6#8 0xD6#8 0xCE#8 0xDE#8 t
  | .inx => some [0xE8#8]
  | .dex => some [0xCA#8]
  | .iny => some [0xC8#8]
  | .dey => some [0x88#8]
  | .mpy o => encAcc [0x89#8] 0x01#8 o
  | .mpys o => encAcc [0x89#8] 0x81#8 o
  | .div o => encAcc [0x89#8] 0x21#8 o
  | .divs o => encAcc [0x89#8] 0xA1#8 o
  | .and r o => encAcc r.lead 0x21#8 o
  | .ora r o => encAcc r.lead 0x01#8 o
  | .eor r o => encAcc r.lead 0x41#8 o
  | .cmp r o => encAcc r.lead 0xC1#8 o
  | .cpx o => encCompare 0xE0#8 0xE4#8 0xEC#8 o
  | .cpy o => encCompare 0xC0#8 0xC4#8 0xCC#8 o
  | .asl t => encRmw [0x0A#8] [0x42#8, 0x0A#8] [] 0x06#8 0x16#8 0x0E#8 0x1E#8 t
  | .asr t => encRmw [0x89#8, 0x08#8] [0x42#8, 0x08#8] [0x89#8] 0x06#8 0x16#8 0x0E#8 0x1E#8 t
  | .lsr t => encRmw [0x4A#8] [0x42#8, 0x4A#8] [] 0x46#8 0x56#8 0x4E#8 0x5E#8 t
  | .rol t => encRmw [0x2A#8] [0x42#8, 0x2A#8] [] 0x26#8 0x36#8 0x2E#8 0x3E#8 t
  | .ror t => encRmw [0x6A#8] [0x42#8, 0x6A#8] [] 0x66#8 0x76#8 0x6E#8 0x7E#8 t
  | .rla n => some (0x89#8 :: 0x49#8 :: n.bytes)
  | .exts .a => some [0x89#8, 0x8B#8]
  | .exts .b => some [0x42#8, 0x8B#8]
  | .extz .a => some [0x89#8, 0xAB#8]
  | .extz .b => some [0x42#8, 0xAB#8]
  | .clb v mode => encBit 0x14#8 0x1C#8 v mode
  | .seb v mode => encBit 0x04#8 0x0C#8 v mode
  | .clp n => some [0xC2#8, n]
  | .sep n => some [0xE2#8, n]
  | .clc => some [0x18#8]
  | .sec => some [0x38#8]
  | .clm => some [0xD8#8]
  | .sem => some [0xF8#8]
  | .cli => some [0x58#8]
  | .sei => some [0x78#8]
  | .clv => some [0xB8#8]
  | .jmp j => some (encJump j)
  | .bra (.short rr) => some [0x80#8, rr]
  | .bra (.long rr) => some (0x82#8 :: putWord rr)
  | .jsr j => encCall j
  | .bbc v mode rr => (encBit 0x34#8 0x3C#8 v mode).map (· ++ [rr])
  | .bbs v mode rr => (encBit 0x24#8 0x2C#8 v mode).map (· ++ [rr])
  | .bcc rr => some [0x90#8, rr]
  | .bcs rr => some [0xB0#8, rr]
  | .bne rr => some [0xD0#8, rr]
  | .beq rr => some [0xF0#8, rr]
  | .bpl rr => some [0x10#8, rr]
  | .bmi rr => some [0x30#8, rr]
  | .bvc rr => some [0x50#8, rr]
  | .bvs rr => some [0x70#8, rr]
  | .rti => some [0x40#8]
  | .rts => some [0x60#8]
  | .rtl => some [0x6B#8]
  | .brk n => some [0x00#8, n]
  | .wit => some [0xCB#8]
  | .stp => some [0xDB#8]
  | .nop => some [0xEA#8]

/-! ### The host's reading of the opcode table -/

/-- The longest instruction has 6 bytes (R120). -/
def maxLen : Nat := 6

/-- `n` bytes of the number `w`, the lowest byte first. -/
def bytesOf : Nat → Nat → List Byte
  | 0, _ => []
  | n + 1, w => BitVec.ofNat 8 w :: bytesOf n (w / 256)

/-- The bytes in memory order of an opcode-table row's bits `w`, `nbits` of them, with zero bytes after them up
to the longest instruction.  The table's two-byte rows stand there with 42 or 89, the FIRST byte, in bits 15..8
(98_reader.md: match read as one number); any other number is read with its lowest byte first.
No two-byte row is read two ways (assumption log 20). -/
def tableBytes (nbits w : Nat) : List Byte :=
  let first := BitVec.ofNat 8 (w / 256)
  if nbits = 16 ∧ opensPage first then first :: BitVec.ofNat 8 w :: bytesOf (maxLen - 2) 0
  else bytesOf maxLen (w % 2 ^ nbits)

/-- The instruction the decoder reads from a table row's bits, with m = x = 0 as after reset and on a chip that
has every instruction (`Chip.standard`). -/
def decodeTableWord (nbits w : Nat) : Option Instr :=
  match decode Chip.standard.series false false (tableBytes nbits w) with
  | .ok p => some p.1
  | .error _ => none

end Sys2Proof
end

