-- ==== Sys2Proof/Machine/Memory.lean ====
section
/-! DEFINITION. The contents of memory as a list of cells in one canonical form, and the memory map of a chip. -/

namespace Sys2Proof.Machine

/-- The number of byte addresses (R60). -/
def memSize : Nat := 2 ^ 24

/-- What an address that no cell lists holds.  DESIGN CHOICE (assumption log 6): 00; the source gives no contents
of memory at power-on. -/
def unlistedByte : Byte := 0x00#8

/-- The contents of memory: the cells whose byte is not `unlistedByte`, by rising address. -/
abbrev Memory := List Host.Cell

/-- The byte at an address. -/
def Memory.get : Memory → Nat → Byte
  | [], _ => unlistedByte
  | (k, v) :: rest, a => if k = a then v else Memory.get rest a

/-- Removes every cell of an address. -/
def Memory.erase : Memory → Nat → Memory
  | [], _ => []
  | (k, v) :: rest, a => if k = a then Memory.erase rest a else (k, v) :: Memory.erase rest a

/-- Puts a cell before the first one with a higher address. -/
def Memory.insert : Memory → Nat → Byte → Memory
  | [], a, v => [(a, v)]
  | (k, w) :: rest, a, v => if a < k then (a, v) :: (k, w) :: rest else (k, w) :: Memory.insert rest a v

/-- Writes one byte and keeps the canonical form: no cell holds `unlistedByte`. -/
def Memory.set (m : Memory) (a : Nat) (v : Byte) : Memory :=
  if v = unlistedByte then m.erase a else (m.erase a).insert a v

/-- Every address is at least `lo` and inside the address space, addresses rise strictly, and no cell holds
`unlistedByte`. -/
def Memory.wfFrom : Nat → Memory → Bool
  | _, [] => true
  | lo, (k, v) :: rest => decide (lo ≤ k) && decide (k < memSize) && v != unlistedByte && Memory.wfFrom (k + 1) rest

/-- The canonical form. -/
def Memory.wf (m : Memory) : Bool := m.wfFrom 0

/-- The kind of an address by a list of regions: the first one that covers it, RAM if none does. -/
def kindIn : List Region → Nat → Kind
  | [], _ => .ram
  | r :: rest, a => if r.first ≤ a ∧ a ≤ r.last then r.kind else kindIn rest a

/-- The vector of an interrupt source by the chip's table (R404); free for a source that the table does not list. -/
def vectorIn : List Source → Nat → Word
  | [], n => Config.irqVector n
  | e :: rest, n => if e.src = n then e.vector else vectorIn rest n

end Sys2Proof.Machine
end

