-- ==== Sys2Proof/Machine/State.lean ====
section
/-! DEFINITION. The state of the machine as plain data, the reasons a step can stop, and the state after reset. -/

namespace Sys2Proof.Machine

/-- The run state (R48). -/
inductive RunState where
  | running
  /-- After WIT: the internal clock is stopped. -/
  | wait
  /-- After STP: the oscillator is stopped. -/
  | stop
  deriving DecidableEq, Repr

/-- A maskable interrupt request: its source and its priority level, 0 to 7 (R406, R407). -/
structure Request where
  src : Nat
  level : BitVec 3
  deriving DecidableEq, Repr

/-- What the environment does to the request state at an instruction boundary (R407). -/
inductive EnvEvent where
  /-- A request becomes pending. -/
  | raise (r : Request)
  /-- A pending request is taken back. -/
  | withdraw (r : Request)
  /-- The watchdog timer's request becomes pending or is taken back. -/
  | watchdog (on : Bool)
  /-- The reset input is asserted or released. -/
  | reset (on : Bool)
  deriving DecidableEq, Repr

/-- The interrupt request state, which is outside the CPU (R407): what is pending, and what the environment will
do at the boundaries to come (one list of events for each; the empty stream by default, R9). -/
structure Requests where
  /-- The pending pairs of source and level.  Among acceptable requests of one level the one whose source stands
  first in the chip's `sources` is taken, then the first in this list (`IRQ_TIEBREAK`, R409; assumption log 32). -/
  pending : List Request
  wdtPending : Bool
  resetPending : Bool
  inputs : List (List EnvEvent)
  deriving DecidableEq, Repr

/-- One access of the CPU to a device register, a byte at a time (R65, R73). -/
inductive DeviceAccess where
  | read (a : Addr) (v : Byte)
  | write (a : Addr) (v : Byte)
  deriving DecidableEq, Repr

/-- The model's own bookkeeping of the bus. -/
structure Bus where
  /-- How many values the environment has drawn (the free values of `Config` are applied to it). -/
  draws : Nat
  /-- The accesses to device registers so far, the latest first. -/
  log : List DeviceAccess
  /-- Set by an access outside bank 0 on a chip in single-chip mode (R62). -/
  outside : Bool
  deriving DecidableEq, Repr

/-- The state of the machine: the ten registers of R20, the run state of R48, the memory of R60, the parameters
of the chip (R9), and the environment's request state (R407). -/
structure State where
  /-- Accumulator A (R21). -/
  a : Word
  /-- Accumulator B (R22). -/
  b : Word
  /-- Index register X (R23). -/
  x : Word
  /-- Index register Y (R24). -/
  y : Word
  /-- Stack pointer S (R25). -/
  sp : Word
  /-- Program counter PC (R27). -/
  pc : Word
  /-- Program bank register PG (R27). -/
  pg : Byte
  /-- Data bank register DT (R31). -/
  dt : Byte
  /-- Direct page register DPR (R32). -/
  dpr : Word
  /-- Processor status register PS: IPL in bits 10..8, then N V m x D I Z C (R33). -/
  ps : BitVec 11
  /-- Run state (R48). -/
  run : RunState
  /-- Contents of memory (R60). -/
  mem : Memory
  /-- The chip's parameters (R9); no step changes them. -/
  chip : Chip
  /-- The model's own bookkeeping. -/
  bus : Bus
  /-- Interrupt requests (R407). -/
  irq : Requests
  deriving DecidableEq, Repr

/-- Why the machine stops with a fault. -/
inductive Fault where
  /-- R130, R424 (D15): the code at PG:PC has no entry in the opcode maps, or only one for the 7750 Series on a
  chip that is none.  Raised by the fetch of `step`, and by the meanings of the five 7750 instructions.  Safe: the
  source gives the program no meaning from here on; no register and no byte of memory has changed, and PG:PC of
  the state before the step is the address of the instruction's first byte.  DESIGN CHOICE (assumption log 39): it stands
  before the refusal `singleChip` where such a code is read outside bank 0 on a chip with `SINGLE_CHIP`. -/
  | undefinedOpcode
  deriving DecidableEq, Repr

/-- Why the machine refuses to go on. -/
inductive Refusal where
  /-- The instruction has no meaning yet.  Raised by no arm of `exec` in this model.  Safe. -/
  | notModelled (mnemonic : String)
  /-- R62, R462 (D11): on a chip with `SINGLE_CHIP` the step would leave PG ≠ 00, DT ≠ 00 or DPR > FF00, or it
  accessed an address outside bank 0 (assumption log 11), if it does not fault (assumption log 39).  Raised by `step`.
  Safe: the manual forbids it and does not say what the hardware does. -/
  | singleChip
  deriving DecidableEq, Repr

/-- The machine right after reset, in the CPU's Running state (R49, R450), on the chip `Chip.standard`.
A, B, X, Y, S and the flags N, V, Z, C: DESIGN CHOICE zero, the source gives no value (assumption log 1).
PC holds the contents of the reset vector 00FFFE of the memory, which lists nothing (assumption logs 6 and 7).
PS = 004: I = 1; D, x, m and IPL are 0. -/
def State.reset : State where
  a := 0x0000#16
  b := 0x0000#16
  x := 0x0000#16
  y := 0x0000#16
  sp := 0x0000#16
  pc := 0x0000#16
  pg := 0x00#8
  dt := 0x00#8
  dpr := 0x0000#16
  ps := 0x004#11
  run := .running
  mem := []
  chip := Chip.standard
  bus := ⟨0, [], false⟩
  irq := ⟨[], false, false, []⟩

end Sys2Proof.Machine
end

