-- ==== Sys2Proof/Machine/Registers.lean ====
section
/-! DEFINITION. One update per field of the state, the accumulators by name, and the reads and writes of a
register at a data width (R18, R21, R23). -/

namespace Sys2Proof.Machine

def State.setA (s : State) (v : Word) : State := { s with a := v }
def State.setB (s : State) (v : Word) : State := { s with b := v }
def State.setX (s : State) (v : Word) : State := { s with x := v }
def State.setY (s : State) (v : Word) : State := { s with y := v }
def State.setSp (s : State) (v : Word) : State := { s with sp := v }
def State.setPc (s : State) (v : Word) : State := { s with pc := v }
def State.setPg (s : State) (v : Byte) : State := { s with pg := v }
def State.setDt (s : State) (v : Byte) : State := { s with dt := v }
def State.setDpr (s : State) (v : Word) : State := { s with dpr := v }
def State.setPs (s : State) (v : BitVec 11) : State := { s with ps := v }
def State.setRun (s : State) (v : RunState) : State := { s with run := v }
def State.setMem (s : State) (v : Memory) : State := { s with mem := v }
def State.setBus (s : State) (v : Bus) : State := { s with bus := v }
def State.setIrq (s : State) (v : Requests) : State := { s with irq := v }

/-- The contents of accumulator A or B (R22). -/
def State.acc (s : State) : Acc → Word
  | .a => s.a
  | .b => s.b

/-- Writes accumulator A or B. -/
def State.setAcc (s : State) (r : Acc) (v : Word) : State :=
  match r with
  | .a => s.setA v
  | .b => s.setB v

/-- `PG:PC`, the address of the next instruction (R27). -/
def State.pcAddr (s : State) : Addr := mkAddr s.pg s.pc

/-- `pc <- target` for a 24-bit target (R11). -/
def State.goto (s : State) (t : Addr) : State := (s.setPc (addrOffs t)).setPg (addrBank t)

/-- The number of bits of a width. -/
def bitsOf : Width → Nat
  | .w8 => 8
  | .w16 => 16

/-- The bits of a datum of a width: a W-bit value stands in a 16-bit word with zeros above it. -/
def narrow (w : Width) (v : Word) : Word :=
  match w with
  | .w8 => v &&& 0x00FF#16
  | .w16 => v

/-- `wr_W(R, v)` of R18 as the new contents of a register that held `old`: at 8 bits the high byte stays. -/
def merge (w : Width) (old v : Word) : Word :=
  match w with
  | .w8 => (old &&& 0xFF00#16) ||| (v &&& 0x00FF#16)
  | .w16 => v

/-- The bits of an immediate, zero-extended. -/
def immValue : Imm → Word
  | .i8 v => v.setWidth 16
  | .i16 v => v

end Sys2Proof.Machine
end

