-- ==== Sys2Proof/Machine/Flags.lean ====
section
/-! DEFINITION. The processor status register (R33 to R45) and every flag computation of the spec. -/

namespace Sys2Proof.Machine

/-- The flags of PSL (R33). -/
inductive Flag where
  | c
  | z
  | i
  | d
  | x
  | m
  | v
  | n
  deriving DecidableEq, Repr

/-- The flag's bit of PS (R33, R34). -/
def flagBit : Flag → Nat
  | .c => 0
  | .z => 1
  | .i => 2
  | .d => 3
  | .x => 4
  | .m => 5
  | .v => 6
  | .n => 7

/-- The 11-bit value with the flag's bit alone. -/
def flagMask (f : Flag) : BitVec 11 := 1#11 <<< flagBit f

/-- Reads a flag. -/
def State.flag (s : State) (f : Flag) : Bool := s.ps.getLsbD (flagBit f)

/-- PS with one flag written. -/
def putFlag (ps : BitVec 11) (f : Flag) (b : Bool) : BitVec 11 :=
  if b then ps ||| flagMask f else ps &&& ~~~flagMask f

/-- Writes a flag. -/
def State.setFlag (s : State) (f : Flag) (b : Bool) : State := s.setPs (putFlag s.ps f b)

/-- IPL, PS bits 10..8 (R45). -/
def State.ipl (s : State) : BitVec 3 := s.ps.extractLsb' 8 3

/-- PSL, PS bits 7..0 (R34). -/
def State.psl (s : State) : Byte := s.ps.extractLsb' 0 8

/-- PSH as a push stores it: `00000:IPL` (R35, R36; PRESUMED zeros: assumption log 8). -/
def State.psh (s : State) : Byte := s.ipl.setWidth 8

/-- Writes PSL and leaves IPL. -/
def State.setPsl (s : State) (v : Byte) : State := s.setPs (s.ipl ++ v)

/-- Writes IPL and leaves PSL. -/
def State.setIpl (s : State) (v : BitVec 3) : State := s.setPs (v ++ s.psl)

/-- Writes PSH: IPL from bits 2..0, bits 7..3 are ignored (R35, R36; assumption log 8). -/
def State.setPsh (s : State) (v : Byte) : State := s.setIpl (v.extractLsb' 0 3)

/-- The width that a flag selects: 8 bits when it is 1 (R41, R42). -/
def widthOf (flag : Bool) : Width := if flag then .w8 else .w16

/-- The width of accumulators and memory data, by m (R42). -/
def State.mWidth (s : State) : Width := widthOf (s.flag .m)

/-- The width of the index registers, by x (R41). -/
def State.xWidth (s : State) : Width := widthOf (s.flag .x)

/-- `msb(v)`: bit `W - 1` (R11). -/
def msb (w : Width) (v : Word) : Bool := v.getLsbD (bitsOf w - 1)

/-- Whether the W bits of `v` are all 0. -/
def isZero (w : Width) (v : Word) : Bool := narrow w v == 0#16

/-- `setNZ_W(v)` of R18. -/
def State.setNZ (s : State) (w : Width) (v : Word) : State :=
  (s.setFlag .n (msb w v)).setFlag .z (isZero w v)

/-- The W low bits of a number, as a word. -/
def wordOf (w : Width) (n : Nat) : Word := BitVec.ofNat 16 (n % 2 ^ bitsOf w)

/-- A result of W bits with the carry and the overflow that go with it. -/
structure Sum where
  r : Word
  c : Bool
  v : Bool
  deriving DecidableEq, Repr

/-- R241, D = 0: `s = a + b + C`; V when both signs are the same and the result's is not; C when `s >= 2^W`. -/
def addBinary (w : Width) (a b : Word) (cin : Bool) : Sum :=
  let s := a.toNat + b.toNat + cin.toNat
  let r := wordOf w s
  { r := r
    c := decide (2 ^ bitsOf w ≤ s)
    v := msb w a == msb w b && msb w r != msb w a }

/-- The W-bit result of a difference that may be negative. -/
def wordOfInt (w : Width) (n : Int) : Word := BitVec.ofInt 16 (n % (2 ^ bitsOf w : Nat))

/-- R244, D = 0: `s = a - b - (1 - C)`; V when the signs differ and the result's is not the minuend's;
C when `s >= 0`. -/
def subBinary (w : Width) (a b : Word) (cin : Bool) : Sum :=
  let s : Int := (a.toNat : Int) - b.toNat - (if cin then 0 else 1)
  let r := wordOfInt w s
  { r := r
    c := decide (0 ≤ s)
    v := msb w a != msb w b && msb w r != msb w a }

/-- R259 to R261: a comparison is the difference with no borrow in; V is not used. -/
def compareValues (w : Width) (a b : Word) : Sum := subBinary w a b true

/-! ### Decimal arithmetic (R243) -/

/-- Decimal digits of a W-bit value (R242). -/
def digitsOf : Width → Nat
  | .w8 => 2
  | .w16 => 4

/-- `isbcd` on the lowest `k` digits. -/
def isBcdN : Nat → Nat → Bool
  | 0, _ => true
  | k + 1, n => decide (n % 16 ≤ 9) && isBcdN k (n / 16)

/-- `bcdval` of the lowest `k` digits. -/
def bcdValN : Nat → Nat → Nat
  | 0, _ => 0
  | k + 1, n => n % 16 + 10 * bcdValN k (n / 16)

/-- `tobcd` in `k` digits. -/
def toBcdN : Nat → Nat → Nat
  | 0, _ => 0
  | k + 1, n => n % 10 + 16 * toBcdN k (n / 10)

def isBcd (w : Width) (v : Word) : Bool := isBcdN (digitsOf w) v.toNat
def bcdVal (w : Width) (v : Word) : Nat := bcdValN (digitsOf w) v.toNat
def toBcd (w : Width) (n : Nat) : Word := BitVec.ofNat 16 (toBcdN (digitsOf w) n)

/-- A decimal result with its carry. -/
structure Decimal where
  r : Word
  c : Bool
  deriving DecidableEq, Repr

/-- R242, both operands decimal. -/
def addDecimal (w : Width) (a b : Word) (cin : Bool) : Decimal :=
  let s := bcdVal w a + bcdVal w b + cin.toNat
  { r := toBcd w (s % 10 ^ digitsOf w), c := decide (10 ^ digitsOf w ≤ s) }

/-- R245, both operands decimal. -/
def subDecimal (w : Width) (a b : Word) (cin : Bool) : Decimal :=
  let s : Int := (bcdVal w a : Int) - bcdVal w b - (if cin then 0 else 1)
  { r := toBcd w (s % (10 ^ digitsOf w : Nat)).toNat, c := decide (0 ≤ s) }

/-! ### Multiplication and division (R252 to R255) -/

/-- `sgn_W(v)` (R253). -/
def signed (w : Width) (v : Word) : Int :=
  if msb w v then ((narrow w v).toNat : Int) - (2 ^ bitsOf w : Nat) else (narrow w v).toNat

/-- A 2W-bit product in two halves of W bits, with N and Z of the whole (R252, R253). -/
structure Product where
  hi : Word
  lo : Word
  n : Bool
  z : Bool
  deriving DecidableEq, Repr

/-- The halves of a 2W-bit number. -/
def splitProduct (w : Width) (p : Nat) : Product :=
  let hi := wordOf w (p / 2 ^ bitsOf w)
  { hi := hi, lo := wordOf w p, n := msb w hi, z := decide (p = 0) }

/-- R252. -/
def mulUnsigned (w : Width) (a b : Word) : Product := splitProduct w (a.toNat * b.toNat)

/-- R253: the two's complement 2W-bit product. -/
def mulSigned (w : Width) (a b : Word) : Product :=
  splitProduct w ((signed w a * signed w b) % (2 ^ (2 * bitsOf w) : Nat)).toNat

/-- What a division by a non-zero divisor gives: a quotient and a remainder of W bits, or overflow. -/
inductive Quotient where
  | fits (q r : Word)
  | overflow
  deriving DecidableEq, Repr

/-- R254: overflow when the quotient needs more than W bits. -/
def divUnsigned (w : Width) (hi lo d : Word) : Quotient :=
  let n := hi.toNat * 2 ^ bitsOf w + lo.toNat
  if 2 ^ bitsOf w ≤ n / d.toNat then .overflow
  else .fits (wordOf w (n / d.toNat)) (wordOf w (n % d.toNat))

/-- The 2W-bit dividend of DIVS as a signed number (`sgn_2W` of R255). -/
def signedPair (w : Width) (hi lo : Word) : Int :=
  let n := hi.toNat * 2 ^ bitsOf w + lo.toNat
  if msb w hi then (n : Int) - (2 ^ (2 * bitsOf w) : Nat) else n

/-- R255: the quotient toward zero and the remainder with the sign of the dividend (PRESUMED: assumption log 12);
overflow when the quotient is no signed W-bit number. -/
def divSigned (w : Width) (hi lo d : Word) : Quotient :=
  let n := signedPair w hi lo
  let q := n.tdiv (signed w d)
  let r := n.tmod (signed w d)
  let half : Int := (2 ^ (bitsOf w - 1) : Nat)
  if q < -half ∨ half - 1 < q then .overflow
  else .fits (wordOfInt w q) (wordOfInt w r)

/-! ### Shifts and rotates (R262 to R267) -/

/-- A shifted value with the bit that goes to C. -/
structure Shifted where
  r : Word
  c : Bool
  deriving DecidableEq, Repr

/-- The word with bit `W - 1` alone, or 0. -/
def topBit (w : Width) (b : Bool) : Word := if b then 1#16 <<< (bitsOf w - 1) else 0#16

/-- The word with bit 0 alone, or 0. -/
def lowBit (b : Bool) : Word := if b then 1#16 else 0#16

/-- R262. -/
def shiftLeft (w : Width) (v : Word) : Shifted := { r := narrow w (v <<< 1), c := msb w v }

/-- R263: the sign stays. -/
def shiftRightArith (w : Width) (v : Word) : Shifted :=
  { r := narrow w v >>> 1 ||| topBit w (msb w v), c := v.getLsbD 0 }

/-- R264. -/
def shiftRightLogic (w : Width) (v : Word) : Shifted := { r := narrow w v >>> 1, c := v.getLsbD 0 }

/-- R265: the old C comes in at bit 0. -/
def rotateLeftC (w : Width) (v : Word) (cin : Bool) : Shifted :=
  { r := narrow w (v <<< 1) ||| lowBit cin, c := msb w v }

/-- R266: the old C comes in at bit `W - 1`. -/
def rotateRightC (w : Width) (v : Word) (cin : Bool) : Shifted :=
  { r := narrow w v >>> 1 ||| topBit w cin, c := v.getLsbD 0 }

/-- R267: by `n mod W` places within the W bits. -/
def rotateLeftN (w : Width) (v : Word) (n : Nat) : Word :=
  let k := n % bitsOf w
  narrow w (narrow w v <<< k) ||| narrow w v >>> (bitsOf w - k)

end Sys2Proof.Machine
end

