-- ==== Sys2Proof/Machine/Ops.lean ====
section
/-! DEFINITION. The named operations over memory, registers and the stack; taking an interrupt or an exception as
one operation, the return from one, and the reset event. -/

namespace Sys2Proof.Machine

/-! ### The environment's draws -/

/-- One more value drawn by the environment: the next draw is another one. -/
def State.drawn (s : State) : State := s.setBus { s.bus with draws := s.bus.draws + 1 }

def drawByte (s : State) : Byte × State := (Config.freeByte s.bus.draws, s.drawn)
def drawWord (s : State) : Word × State := (Config.freeWord s.bus.draws, s.drawn)
def drawBit (s : State) : Bool × State := (Config.freeBit s.bus.draws, s.drawn)

/-- Writes a flag with a value that the environment draws. -/
def State.setFlagFree (s : State) (f : Flag) : State :=
  let (v, s) := drawBit s
  s.setFlag f v

/-! ### Memory (R60 to R68) -/

/-- The byte that memory holds at an address, whatever an access there would do. -/
def State.byteAt (s : State) (a : Addr) : Byte := s.mem.get a.toNat

/-- What stands at an address, by the chip's map (R61). -/
def State.kindAt (s : State) (a : Addr) : Kind := kindIn s.chip.regions a.toNat

/-- R62: an access outside bank 0 in single-chip mode is outside the manual's contract; `step` refuses then. -/
def State.touch (s : State) (a : Addr) : State :=
  if s.chip.singleChip ∧ addrBank a ≠ 0#8 then s.setBus { s.bus with outside := true } else s

/-- An access to a device register is recorded for the device (R65, R73). -/
def State.record (s : State) (e : DeviceAccess) : State := s.setBus { s.bus with log := e :: s.bus.log }

/-- `MemRead(a, 1)`.  RAM and ROM give what they hold; an unmapped address gives a byte that the environment draws
(D12), and so does a device register, whose access is recorded (R73). -/
def readByte (a : Addr) (s : State) : Byte × State :=
  let s := s.touch a
  match s.kindAt a with
  | .ram => (s.byteAt a, s)
  | .rom => (s.byteAt a, s)
  | .unmapped => drawByte s
  | .device =>
    let (v, s) := drawByte s
    (v, s.record (.read a v))

/-- `MemWrite(a, 1, v)`.  ROM and unmapped addresses keep what they have (D12); a device register's access is
recorded (R73). -/
def writeByte (a : Addr) (v : Byte) (s : State) : State :=
  let s := s.touch a
  match s.kindAt a with
  | .ram => s.setMem (s.mem.set a.toNat v)
  | .rom => s
  | .unmapped => s
  | .device => s.record (.write a v)

/-- `MemRead(a, 2)`: little-endian, the byte at the lower address first, the next address modulo 2^24
(R64 to R66). -/
def read16 (a : Addr) (s : State) : Word × State :=
  let (lo, s) := readByte a s
  let (hi, s) := readByte (a + 1) s
  (mkWord hi lo, s)

/-- `MemRead(a, 3)`. -/
def read24 (a : Addr) (s : State) : Addr × State :=
  let (lo, s) := read16 a s
  let (hi, s) := readByte (a + 2) s
  (mkAddr hi lo, s)

/-- `MemWrite(a, 2, v)`. -/
def write16 (a : Addr) (v : Word) (s : State) : State :=
  writeByte (a + 1) (hiByte v) (writeByte a (loByte v) s)

/-- `Mem_W(a)` (R18). -/
def readMem (w : Width) (a : Addr) (s : State) : Word × State :=
  match w with
  | .w8 =>
    let (v, s) := readByte a s
    (v.setWidth 16, s)
  | .w16 => read16 a s

/-- `Mem_W(a) <- v` (R18). -/
def writeMem (w : Width) (a : Addr) (v : Word) (s : State) : State :=
  match w with
  | .w8 => writeByte a (loByte v) s
  | .w16 => write16 a v s

/-! ### The stack (R69): bank 0, S at the next free byte, wrapping modulo 2^16 (D4) -/

/-- The address `00:S`. -/
def State.stackAddr (s : State) : Addr := mkAddr 0#8 s.sp

def push8 (v : Byte) (s : State) : State :=
  let t := writeByte s.stackAddr v s
  t.setSp (s.sp - 1)

def pull8 (s : State) : Byte × State :=
  let s := s.setSp (s.sp + 1)
  readByte s.stackAddr s

/-- High byte first, at the higher address. -/
def push16 (v : Word) (s : State) : State := push8 (loByte v) (push8 (hiByte v) s)

def pull16 (s : State) : Word × State :=
  let (lo, s) := pull8 s
  let (hi, s) := pull8 s
  (mkWord hi lo, s)

/-- A register pushed at a width: both bytes, or the low byte alone (R210). -/
def pushW (w : Width) (v : Word) (s : State) : State :=
  match w with
  | .w8 => push8 (loByte v) s
  | .w16 => push16 v s

/-- A datum pulled at a width. -/
def pullW (w : Width) (s : State) : Word × State :=
  match w with
  | .w8 =>
    let (v, s) := pull8 s
    (v.setWidth 16, s)
  | .w16 => pull16 s

/-- PS pushed: PSH, then PSL (R216, R410). -/
def pushPs (s : State) : State := push8 s.psl (push8 s.psh s)

/-- PS pulled: PSL, then PSH (R217, R345). -/
def pullPs (s : State) : State :=
  let (lo, s) := pull8 s
  let (hi, s) := pull8 s
  (s.setPsl lo).setPsh hi

/-! ### The program counter (R28, R102) -/

/-- The sequential advance: the instruction's length is added to `PG:PC`, modulo 2^24 (D5). -/
def State.advance (s : State) (len : Nat) : State := s.goto (s.pcAddr + BitVec.ofNat 24 len)

/-- A taken relative branch: the displacement is added to `PG:PC`, with carry or borrow into PG. -/
def State.branch (s : State) (disp : Addr) : State := s.goto (s.pcAddr + disp)

/-! ### Interrupts and exceptions (R404 to R415, R450) -/

/-- The address of the BRK vector (R404). -/
def vecBreak : Word := 0xFFFA#16

/-- The address of the reset vector (R404). -/
def vecReset : Word := 0xFFFE#16

/-- R405: `PC <- MemRead(00:v, 2)` and `PG <- 00`. -/
def enterVector (v : Word) (s : State) : State :=
  let (target, s) := read16 (mkAddr 0#8 v) s
  (s.setPc target).setPg 0#8

/-- R413: IPL becomes the event's level, if it has one. -/
def State.atLevel (s : State) : Option (BitVec 3) → State
  | some l => s.setIpl l
  | none => s

/-- R410: interrupt entry, common to `Irq`, `Watchdog`, `ZeroDivision` and `Break`.  The return address is
`PG:PC`, which is the address of the next instruction (R411).  PG, PCH, PCL, PSH and PSL are pushed, the PS from
before the change; I becomes 1; IPL becomes the new level if the event has one (R413); PG becomes 00 and PC the
contents of the vector; the CPU runs. -/
def takeInterrupt (vector : Word) (level : Option (BitVec 3)) (s : State) : State :=
  let s := push8 s.pg s
  let s := push16 s.pc s
  let s := pushPs s
  let s := s.setFlag .i true
  let s := s.atLevel level
  let s := enterVector vector s
  s.setRun .running

/-- R345, R415: the return, the exact inverse: PSL, PSH, PCL, PCH and PG are pulled. -/
def returnFromInterrupt (s : State) : State :=
  let s := pullPs s
  let (pc, s) := pull16 s
  let (pg, s) := pull8 s
  (s.setPc pc).setPg pg

/-- R371, R421: `Break`; IPL stays. -/
def takeBreak (s : State) : State := takeInterrupt vecBreak none s

/-- R420: `ZeroDivision`; IPL stays. -/
def takeZeroDivision (s : State) : State := takeInterrupt s.chip.vecZeroDiv none s

/-- R413, R419: `Watchdog`; the environment takes its request back (R407). -/
def takeWatchdog (s : State) : State :=
  let s := s.setIrq { s.irq with wdtPending := false }
  takeInterrupt s.chip.vecWdt (some s.chip.wdtLevel) s

/-- R407, R413: a maskable request is accepted; the environment removes it from what is pending. -/
def takeIrq (r : Request) (s : State) : State :=
  let s := s.setIrq { s.irq with pending := s.irq.pending.filter (· ≠ r) }
  takeInterrupt (vectorIn s.chip.sources r.src) (some r.level) s

/-- A, B, X, Y and S drawn by the environment (D7). -/
def drawRegisters (s : State) : State :=
  let (a, s) := drawWord s
  let (b, s) := drawWord s
  let (x, s) := drawWord s
  let (y, s) := drawWord s
  let (sp, s) := drawWord s
  ((((s.setA a).setB b).setX x).setY y).setSp sp

/-- N, V, Z and C drawn by the environment (D7). -/
def drawFlags (s : State) : State :=
  (((s.setFlagFree .n).setFlagFree .v).setFlagFree .z).setFlagFree .c

/-- R450: the reset event.  PG, DT, DPR, I, D, x, m and IPL get their reset values; A, B, X, Y, S and N, V, Z, C
are drawn by the environment (D7, assumption log 9); PC comes from the reset vector; memory stays. -/
def takeReset (s : State) : State :=
  let s := s.setIrq { s.irq with resetPending := false }
  let s := ((s.setPg 0#8).setDt 0#8).setDpr 0#16
  let s := drawFlags ((drawRegisters s).setPs 0x004#11)
  (enterVector vecReset s).setRun .running

end Sys2Proof.Machine
end

