-- ==== Sys2Proof/Machine/Boundary.lean ====
section
/-! DEFINITION. What happens at an instruction boundary before an instruction: the environment's events, and which
request the CPU takes (R407 to R409, R423); and the contract of single-chip mode after a step (R62, R462). -/

namespace Sys2Proof.Machine

/-- One event of the environment (R407). -/
def applyEvent (q : Requests) : EnvEvent → Requests
  | .raise r => if r ∈ q.pending then q else { q with pending := q.pending ++ [r] }
  | .withdraw r => { q with pending := q.pending.filter (· ≠ r) }
  | .watchdog on => { q with wdtPending := on }
  | .reset on => { q with resetPending := on }

/-- The request that an event raises, if any, is from a source of the chip (R404, R407). -/
def eventListed (c : Chip) : EnvEvent → Bool
  | .raise r => c.lists r.src
  | .withdraw _ => true
  | .watchdog _ => true
  | .reset _ => true

/-- Every request that is pending or will be raised is from a source of the chip, so that its vector is one of the
chip's parameters (R404). -/
def requestsListed (c : Chip) (q : Requests) : Bool :=
  q.pending.all (fun r => c.lists r.src) && q.inputs.all fun events => events.all (eventListed c)

/-- The environment's part of a boundary: the events of the stream's next list. -/
def boundary (s : State) : State :=
  match s.irq.inputs with
  | [] => s
  | events :: rest => s.setIrq (events.foldl applyEvent { s.irq with inputs := rest })

/-- R408: I = 0 and a level above IPL. -/
def acceptable (s : State) (r : Request) : Bool := !s.flag .i && decide (s.ipl < r.level)

/-- The place of a source in the chip's list, which is `IRQ_TIEBREAK`: the earlier source goes first (R409). -/
def rankIn : List Source → Nat → Nat
  | [], _ => 0
  | e :: rest, n => if e.src = n then 0 else rankIn rest n + 1

/-- Whether `r` goes before `q` among acceptable requests: a higher level, then the earlier place (R409 (4), (5)). -/
def goesBefore (c : Chip) (r q : Request) : Bool :=
  decide (q.level < r.level) ||
    (decide (q.level = r.level) && decide (rankIn c.sources r.src < rankIn c.sources q.src))

/-- The first of a list by `goesBefore`. -/
def foremost (c : Chip) : List Request → Option Request
  | [] => none
  | r :: rest =>
    match foremost c rest with
    | none => some r
    | some q => if goesBefore c q r then some q else some r

/-- What diverts the CPU at a boundary (R400). -/
inductive Event where
  | reset
  | watchdog
  | irq (r : Request)
  deriving DecidableEq, Repr

/-- R409: reset, then the watchdog timer, then the foremost acceptable request. -/
def nextEvent (s : State) : Option Event :=
  if s.irq.resetPending then some .reset
  else if s.irq.wdtPending then some .watchdog
  else (foremost s.chip (s.irq.pending.filter (acceptable s))).map .irq

/-- The event taken. -/
def takeEvent (e : Event) (s : State) : State :=
  match e with
  | .reset => takeReset s
  | .watchdog => takeWatchdog s
  | .irq r => takeIrq r s

/-- What R62 and R462 demand of a state on a chip in single-chip mode (D11). -/
def withinContract (s : State) : Bool :=
  !s.chip.singleChip ||
    (s.pg == 0#8 && s.dt == 0#8 && decide (s.dpr ≤ 0xFF00#16) && !s.bus.outside)

end Sys2Proof.Machine
end

