-- ==== Sys2Proof/Machine/Operands.lean ====
section
/-! DEFINITION. The addressing modes (R76 to R106) and every operand form of the instructions. -/

namespace Sys2Proof.Machine

/-- `Xi` of R76: X, or XL zero-extended when x = 1 (D10). -/
def State.indexX (s : State) : Word := narrow s.xWidth s.x

/-- `Yi` of R76. -/
def State.indexY (s : State) : Word := narrow s.xWidth s.y

/-- `DP(d)` of R77: the direct page location, running from bank 0 into the next ones. -/
def State.directPage (s : State) (d : Addr) : Addr := zext24 s.dpr + d

/-- `(zext_24(S) + nn) mod 2^24` of R105. -/
def State.stackRel (s : State) (nn : Byte) : Addr := zext24 s.sp + zext24b nn

/-- The effective address of a memory mode (R83 to R97, R105, R106), with the pointer bytes read. -/
def effAddr (mode : Mode) (s : State) : Addr × State :=
  match mode with
  | .dir dd => (s.directPage (zext24b dd), s)
  | .dirX dd => (s.directPage (zext24b dd + zext24 s.indexX), s)
  | .dirY dd => (s.directPage (zext24b dd + zext24 s.indexY), s)
  | .dInd dd =>
    let (p, t) := read16 (s.directPage (zext24b dd)) s
    (mkAddr s.dt p, t)
  | .dXInd dd =>
    let (p, t) := read16 (s.directPage (zext24b dd + zext24 s.indexX)) s
    (mkAddr s.dt p, t)
  | .dIndY dd =>
    let (p, t) := read16 (s.directPage (zext24b dd)) s
    (mkAddr s.dt p + zext24 s.indexY, t)
  | .dIndL dd => read24 (s.directPage (zext24b dd)) s
  | .dIndLY dd =>
    let (p, t) := read24 (s.directPage (zext24b dd)) s
    (p + zext24 s.indexY, t)
  | .abs mmll => (mkAddr s.dt mmll, s)
  | .absX mmll => (mkAddr s.dt mmll + zext24 s.indexX, s)
  | .absY mmll => (mkAddr s.dt mmll + zext24 s.indexY, s)
  | .abl hhmmll => (hhmmll, s)
  | .ablX hhmmll => (hhmmll + zext24 s.indexX, s)
  | .sr nn => (s.stackRel nn, s)
  | .srIndY nn =>
    let (p, t) := read16 (s.stackRel nn) s
    (mkAddr s.dt p + zext24 s.indexY, t)

/-- A datum of a memory mode at a width. -/
def loadMode (w : Width) (mode : Mode) (s : State) : Word × State :=
  let (ea, s) := effAddr mode s
  readMem w ea s

/-- `operand` of R18: the immediate's W bits, or the datum of a memory mode. -/
def operand (w : Width) (o : Operand) (s : State) : Word × State :=
  match o with
  | .imm v => (narrow w (immValue v), s)
  | .mem mode => loadMode w mode s

/-- A datum stored at the effective address of a mode, without reading it first (R160). -/
def storeMode (w : Width) (mode : Mode) (v : Word) (s : State) : State :=
  let (ea, s) := effAddr mode s
  writeMem w ea v s

/-- `rd_W(Acc)` (R18). -/
def State.readAcc (s : State) (w : Width) (r : Acc) : Word := narrow w (s.acc r)

/-- `wr_W(Acc, v)` (R18). -/
def State.writeAcc (s : State) (w : Width) (r : Acc) (v : Word) : State := s.setAcc r (merge w (s.acc r) v)

/-- `rd_W(X)` and `rd_W(Y)` at the width of x are `indexX` and `indexY`; these are `wr_W(X, v)` and `wr_W(Y, v)`. -/
def State.writeX (s : State) (w : Width) (v : Word) : State := s.setX (merge w s.x v)

def State.writeY (s : State) (w : Width) (v : Word) : State := s.setY (merge w s.y v)

/-- Read, compute, write back (R240 (e)): the accumulator, or the datum in memory, read first and then written at
the same address.  Gives the value from before and the state after the write. -/
def modify (w : Width) (t : Target) (f : Word → Word) (s : State) : Word × State :=
  match t with
  | .acc r => (s.readAcc w r, s.writeAcc w r (f (s.readAcc w r)))
  | .mem mode =>
    let (ea, s) := effAddr mode s
    let (v, s) := readMem w ea s
    (v, writeMem w ea (f v) s)

/-- The pointer address of the `(mmll,X)` mode: in the program bank, wrapping inside it (R100, D14). -/
def State.pointerX (s : State) (mmll : Word) : Addr := mkAddr s.pg (mmll + s.indexX)

/-- Loads PC alone; PG stays as the sequential advance left it (R333). -/
def jumpThrough (p : Addr) (s : State) : State :=
  let (t, s) := read16 p s
  s.setPc t

/-- The jumps of R331.  `ABS_IND_BANK` is the bank of the pointer in the two indirect modes (D13). -/
def jumpTo (j : Jump) (s : State) : State :=
  match j with
  | .abs mmll => s.setPc mmll
  | .abl hhmmll => s.goto hhmmll
  | .ind mmll => jumpThrough (mkAddr s.chip.absIndBank mmll) s
  | .indL mmll =>
    let (t, s) := read24 (mkAddr s.chip.absIndBank mmll) s
    s.goto t
  | .indX mmll => jumpThrough (s.pointerX mmll) s

/-- R334: the long form pushes PG, PCH, PCL, every other form PCH, PCL; then the jump. -/
def callTo (j : Jump) (s : State) : State :=
  match j with
  | .abl _ => jumpTo j (push16 s.pc (push8 s.pg s))
  | _ => jumpTo j (push16 s.pc s)

/-- The displacement of BRA as a 24-bit address (R332). -/
def dispValue : Disp → Addr
  | .short rr => sext24b rr
  | .long rr => sext24 rr

end Sys2Proof.Machine
end

