-- ==== Sys2Proof/Machine/DataTransfer.lean ====
section
/-! DEFINITION. The meanings of the load, store, register transfer and exchange instructions (R162 to R199, R234).
As in every meaning, `PG:PC` of the state is already the address of the next instruction (R29). -/

namespace Sys2Proof.Machine

/-- What a step answers. -/
abbrev Result := Host.Outcome State Fault Refusal

/-! ### Load -/

/-- An accumulator written at the width of m, with N and Z from the value. -/
def loadAcc (r : Acc) (v : Word) (s : State) : State := (s.writeAcc s.mWidth r v).setNZ s.mWidth v

/-- X written at the width of x, with N and Z from the value. -/
def loadX (v : Word) (s : State) : State := (s.writeX s.xWidth v).setNZ s.xWidth v

/-- Y written at the width of x, with N and Z from the value. -/
def loadY (v : Word) (s : State) : State := (s.writeY s.xWidth v).setNZ s.xWidth v

/-- R162. -/
def execLda (r : Acc) (o : Operand) (s : State) : Result :=
  let (v, t) := operand s.mWidth o s
  .next (loadAcc r v t)

/-- R163. -/
def execLdm (v : Imm) (mode : Mode) (s : State) : Result := .next (storeMode s.mWidth mode (immValue v) s)

/-- R164: DT alone, no flag. -/
def execLdt (v : Byte) (s : State) : Result := .next (s.setDt v)

/-- R165. -/
def execLdx (o : Operand) (s : State) : Result :=
  let (v, t) := operand s.xWidth o s
  .next (loadX v t)

/-- R166. -/
def execLdy (o : Operand) (s : State) : Result :=
  let (v, t) := operand s.xWidth o s
  .next (loadY v t)

/-! ### Store -/

/-- R167. -/
def execSta (r : Acc) (mode : Mode) (s : State) : Result := .next (storeMode s.mWidth mode (s.acc r) s)

/-- R168. -/
def execStx (mode : Mode) (s : State) : Result := .next (storeMode s.xWidth mode s.x s)

/-- R169. -/
def execSty (mode : Mode) (s : State) : Result := .next (storeMode s.xWidth mode s.y s)

/-! ### Transfer between registers (R170) -/

/-- R180: by x alone; at 16 bits all of A is copied whatever m is. -/
def execTax (s : State) : Result := .next (loadX s.a s)

/-- R181: at m = 0, x = 1 the value is `00:XL`. -/
def execTxa (s : State) : Result := .next (loadAcc .a s.indexX s)

/-- R182. -/
def execTay (s : State) : Result := .next (loadY s.a s)

/-- R183. -/
def execTya (s : State) : Result := .next (loadAcc .a s.indexY s)

/-- R184. -/
def execTsx (s : State) : Result := .next (loadX s.sp s)

/-- R185: at x = 1 S becomes `00:XL`; no flag. -/
def execTxs (s : State) : Result := .next (s.setSp s.indexX)

/-- R186: 16 bits whatever m is; no flag. -/
def execTad (s : State) : Result := .next (s.setDpr s.a)

/-- R187: 16 bits whatever m is; no flag. -/
def execTas (s : State) : Result := .next (s.setSp s.a)

/-- R188. -/
def execTda (s : State) : Result := .next (loadAcc .a s.dpr s)

/-- R189. -/
def execTsa (s : State) : Result := .next (loadAcc .a s.sp s)

/-- R190. -/
def execTbd (s : State) : Result := .next (s.setDpr s.b)

/-- R191. -/
def execTdb (s : State) : Result := .next (loadAcc .b s.dpr s)

/-- R192. -/
def execTbs (s : State) : Result := .next (s.setSp s.b)

/-- R193. -/
def execTsb (s : State) : Result := .next (loadAcc .b s.sp s)

/-- R194. -/
def execTbx (s : State) : Result := .next (loadX s.b s)

/-- R195. -/
def execTxb (s : State) : Result := .next (loadAcc .b s.indexX s)

/-- R196. -/
def execTby (s : State) : Result := .next (loadY s.b s)

/-- R197. -/
def execTyb (s : State) : Result := .next (loadAcc .b s.indexY s)

/-- R198. -/
def execTxy (s : State) : Result := .next (loadY s.x s)

/-- R199. -/
def execTyx (s : State) : Result := .next (loadX s.y s)

/-! ### Exchange -/

/-- R234: A and B, or AL and BL; N and Z from the new A. -/
def execXab (s : State) : Result :=
  let w := s.mWidth
  let t := (s.writeAcc w .a s.b).writeAcc w .b s.a
  .next (t.setNZ w s.b)

end Sys2Proof.Machine
end

