-- ==== Sys2Proof/Machine/BitFlag.lean ====
section
/-! DEFINITION. The meanings of the bit and flag manipulation instructions (R301 to R311). -/

namespace Sys2Proof.Machine

/-- R301: the W bits are read, the masked ones cleared, and all W bits written back. -/
def execClb (mask : Imm) (mode : Mode) (s : State) : Result :=
  .next (modify s.mWidth (.mem mode) (fun v => v &&& ~~~immValue mask) s).2

/-- R302. -/
def execSeb (mask : Imm) (mode : Mode) (s : State) : Result :=
  .next (modify s.mWidth (.mem mode) (fun v => v ||| immValue mask) s).2

/-- R303: PSL alone; IPL stays. -/
def execClp (mask : Byte) (s : State) : Result := .next (s.setPsl (s.psl &&& ~~~mask))

/-- R304: PSL alone; IPL stays. -/
def execSep (mask : Byte) (s : State) : Result := .next (s.setPsl (s.psl ||| mask))

/-- R305. -/
def execClc (s : State) : Result := .next (s.setFlag .c false)

/-- R306. -/
def execSec (s : State) : Result := .next (s.setFlag .c true)

/-- R307. -/
def execClm (s : State) : Result := .next (s.setFlag .m false)

/-- R308. -/
def execSem (s : State) : Result := .next (s.setFlag .m true)

/-- R309. -/
def execCli (s : State) : Result := .next (s.setFlag .i false)

/-- R310. -/
def execSei (s : State) : Result := .next (s.setFlag .i true)

/-- R311. -/
def execClv (s : State) : Result := .next (s.setFlag .v false)

end Sys2Proof.Machine
end

