-- ==== Sys2Proof/Machine/BlockMove.lean ====
section
/-! DEFINITION. The meanings of the block transfers MVN and MVP (R107, R232, R233). -/

namespace Sys2Proof.Machine

/-- A transfer in progress: the offsets in the source and the destination bank, and the state. -/
structure Transfer where
  sx : Word
  sy : Word
  s : State
  deriving DecidableEq, Repr

/-- One word: both source bytes are read, then both destination bytes written. -/
def moveWord (dst src : Byte) (t : Transfer) : Transfer :=
  let (v, s) := read16 (mkAddr src t.sx) t.s
  { t with s := write16 (mkAddr dst t.sy) v s }

/-- The last byte of an odd count; the word's other byte is not read (D19). -/
def moveByte (dst src : Byte) (t : Transfer) : Transfer :=
  let (v, s) := readByte (mkAddr src t.sx) t.s
  { t with s := writeByte (mkAddr dst t.sy) v s }

/-- Both offsets moved on by `k`, modulo 2^16 or, when x = 1, modulo 2^8 (D17, D18). -/
def Transfer.shift (w : Width) (k : Word) (t : Transfer) : Transfer :=
  { t with sx := narrow w (t.sx + k), sy := narrow w (t.sy + k) }

/-- R232: `cnt` bytes in ascending order, word by word. -/
def moveUp (dst src : Byte) (w : Width) : Nat → Transfer → Transfer
  | 0, t => t
  | 1, t => (moveByte dst src t).shift w 1
  | cnt + 2, t => moveUp dst src w cnt ((moveWord dst src t).shift w 2)

/-- R233: `cnt` bytes in descending order; a word occupies the offset reached by one step down
and the one above it, the last byte of an odd count the offset itself. -/
def moveDown (dst src : Byte) (w : Width) : Nat → Transfer → Transfer
  | 0, t => t
  | 1, t => (moveByte dst src t).shift w (-1)
  | cnt + 2, t => moveDown dst src w cnt ((moveWord dst src (t.shift w (-1))).shift w (-1))

/-- A after the transfer: FFFF at m = 0; at m = 1 AL is FF and AH is drawn by the environment (D16). -/
def countDone (s : State) : State :=
  match s.mWidth with
  | .w16 => s.setA 0xFFFF#16
  | .w8 =>
    let (v, s) := drawByte s
    s.setA (mkWord v 0xFF#8)

/-- R232, R233: DT becomes the destination bank; `move` transfers as many bytes as A (or AL) counts, from the
offset in X to the offset in Y; X and Y get the offsets reached. -/
def blockTransfer (dst : Byte) (move : Width → Nat → Transfer → Transfer) (s : State) : State :=
  let w := s.xWidth
  let t := move w (s.readAcc s.mWidth .a).toNat ⟨s.indexX, s.indexY, s.setDt dst⟩
  countDone ((t.s.writeX w t.sx).writeY w t.sy)

/-- R232. -/
def execMvn (dst src : Byte) (s : State) : Result := .next (blockTransfer dst (moveUp dst src) s)

/-- R233. -/
def execMvp (dst src : Byte) (s : State) : Result := .next (blockTransfer dst (moveDown dst src) s)

end Sys2Proof.Machine
end

