-- ==== Sys2Proof/Machine/Branch.lean ====
section
/-! DEFINITION. The meanings of the jumps, calls, branches and returns (R331 to R347). -/

namespace Sys2Proof.Machine

/-- R331. -/
def execJmp (j : Jump) (s : State) : Result := .next (jumpTo j s)

/-- R332. -/
def execBra (d : Disp) (s : State) : Result := .next (s.branch (dispValue d))

/-- R334. -/
def execJsr (j : Jump) (s : State) : Result := .next (callTo j s)

/-- `branch(rr)` when the condition holds, and nothing otherwise. -/
def branchIf (taken : Bool) (rr : Byte) (s : State) : State := if taken then s.branch (sext24b rr) else s

/-- R335: taken when every masked bit is 0. -/
def execBbc (mask : Imm) (mode : Mode) (rr : Byte) (s : State) : Result :=
  let w := s.mWidth
  let (v, s) := loadMode w mode s
  .next (branchIf (isZero w (v &&& immValue mask)) rr s)

/-- R336: taken when every masked bit is 1. -/
def execBbs (mask : Imm) (mode : Mode) (rr : Byte) (s : State) : Result :=
  let w := s.mWidth
  let (v, s) := loadMode w mode s
  .next (branchIf (isZero w (~~~v &&& immValue mask)) rr s)

/-- R337. -/
def execBcc (rr : Byte) (s : State) : Result := .next (branchIf (!s.flag .c) rr s)

/-- R338. -/
def execBcs (rr : Byte) (s : State) : Result := .next (branchIf (s.flag .c) rr s)

/-- R339. -/
def execBne (rr : Byte) (s : State) : Result := .next (branchIf (!s.flag .z) rr s)

/-- R340. -/
def execBeq (rr : Byte) (s : State) : Result := .next (branchIf (s.flag .z) rr s)

/-- R341. -/
def execBpl (rr : Byte) (s : State) : Result := .next (branchIf (!s.flag .n) rr s)

/-- R342. -/
def execBmi (rr : Byte) (s : State) : Result := .next (branchIf (s.flag .n) rr s)

/-- R343. -/
def execBvc (rr : Byte) (s : State) : Result := .next (branchIf (!s.flag .v) rr s)

/-- R344. -/
def execBvs (rr : Byte) (s : State) : Result := .next (branchIf (s.flag .v) rr s)

/-- R345. -/
def execRti (s : State) : Result := .next (returnFromInterrupt s)

/-- R346: PG stays as the sequential advance left it (R333). -/
def execRts (s : State) : Result :=
  let (pc, s) := pull16 s
  .next (s.setPc pc)

/-- R347. -/
def execRtl (s : State) : Result :=
  let (pc, s) := pull16 s
  let (pg, s) := pull8 s
  .next ((s.setPc pc).setPg pg)

end Sys2Proof.Machine
end

