-- ==== Sys2Proof/Machine/Arithmetic.lean ====
section
/-! DEFINITION. The meanings of the additions, subtractions, increments, decrements, multiplications and divisions
(R241 to R255). -/

namespace Sys2Proof.Machine

/-- R128: an instruction of the 7750 Series; on another chip its code is undefined. -/
def on7750 (s : State) (t : State) : Result :=
  if s.chip.series = .s7750 then .next t else .fault .undefinedOpcode

/-- The accumulator written with a sum and N, V, Z, C set (R241, R244). -/
def putSum (r : Acc) (w : Width) (e : Sum) (s : State) : State :=
  (((s.writeAcc w r e.r).setNZ w e.r).setFlag .v e.v).setFlag .c e.c

/-- R243 (c): with a digit above 9 the W bits of the result and N, V, Z, C are drawn (D23). -/
def putUndigits (r : Acc) (w : Width) (s : State) : State :=
  let (v, s) := drawWord s
  let s := s.writeAcc w r v
  (((s.setFlagFree .n).setFlagFree .v).setFlagFree .z).setFlagFree .c

/-- R242: C is exact; N, V and Z are drawn (D22). -/
def adcDecimal (r : Acc) (w : Width) (b : Word) (s : State) : State :=
  let a := s.readAcc w r
  if isBcd w a && isBcd w b then
    let e := addDecimal w a b (s.flag .c)
    let s := (s.writeAcc w r e.r).setFlag .c e.c
    ((s.setFlagFree .n).setFlagFree .v).setFlagFree .z
  else putUndigits r w s

/-- R245: C and Z are exact; N and V are drawn (D22). -/
def sbcDecimal (r : Acc) (w : Width) (b : Word) (s : State) : State :=
  let a := s.readAcc w r
  if isBcd w a && isBcd w b then
    let e := subDecimal w a b (s.flag .c)
    let s := ((s.writeAcc w r e.r).setFlag .c e.c).setFlag .z (isZero w e.r)
    (s.setFlagFree .n).setFlagFree .v
  else putUndigits r w s

/-- R241, R242. -/
def execAdc (r : Acc) (o : Operand) (s : State) : Result :=
  let w := s.mWidth
  let (b, s) := operand w o s
  if s.flag .d then .next (adcDecimal r w b s)
  else .next (putSum r w (addBinary w (s.readAcc w r) b (s.flag .c)) s)

/-- R244, R245. -/
def execSbc (r : Acc) (o : Operand) (s : State) : Result :=
  let w := s.mWidth
  let (b, s) := operand w o s
  if s.flag .d then .next (sbcDecimal r w b s)
  else .next (putSum r w (subBinary w (s.readAcc w r) b (s.flag .c)) s)

/-! ### Increment and decrement (R246 to R251) -/

/-- One more, or one less, in W bits. -/
def incr (w : Width) (v : Word) : Word := narrow w (v + 1)
def decr (w : Width) (v : Word) : Word := narrow w (v - 1)

/-- R246. -/
def execInc (t : Target) (s : State) : Result :=
  let w := s.mWidth
  let (v, s) := modify w t (incr w) s
  .next (s.setNZ w (incr w v))

/-- R247. -/
def execDec (t : Target) (s : State) : Result :=
  let w := s.mWidth
  let (v, s) := modify w t (decr w) s
  .next (s.setNZ w (decr w v))

/-- R248. -/
def execInx (s : State) : Result := .next (loadX (incr s.xWidth s.indexX) s)

/-- R249. -/
def execDex (s : State) : Result := .next (loadX (decr s.xWidth s.indexX) s)

/-- R250. -/
def execIny (s : State) : Result := .next (loadY (incr s.xWidth s.indexY) s)

/-- R251. -/
def execDey (s : State) : Result := .next (loadY (decr s.xWidth s.indexY) s)

/-! ### Multiplication and division -/

/-- The product's upper half to B and its lower half to A, with N and Z of the whole (R252, R253). -/
def putProduct (w : Width) (p : Product) (s : State) : State :=
  (((s.writeAcc w .b p.hi).writeAcc w .a p.lo).setFlag .n p.n).setFlag .z p.z

/-- R252: C is cleared. -/
def execMpy (o : Operand) (s : State) : Result :=
  let w := s.mWidth
  let (b, s) := operand w o s
  .next ((putProduct w (mulUnsigned w (s.readAcc w .a) b) s).setFlag .c false)

/-- R253: C is not affected. -/
def execMpys (o : Operand) (s : State) : Result :=
  let w := s.mWidth
  let (b, t) := operand w o s
  on7750 s (putProduct w (mulSigned w (t.readAcc w .a) b) t)

/-- R254, R255: the quotient to A and the remainder to B with N, Z of the quotient and V = C = 0; on overflow
V = C = 1, N and Z stay, and the W bits of A and of B are drawn (D24). -/
def putQuotient (w : Width) (q : Quotient) (s : State) : State :=
  match q with
  | .fits q r =>
    let s := (s.writeAcc w .a q).writeAcc w .b r
    ((s.setNZ w q).setFlag .v false).setFlag .c false
  | .overflow =>
    let s := (s.setFlag .v true).setFlag .c true
    let (a, s) := drawWord s
    let (b, s) := drawWord s
    (s.writeAcc w .a a).writeAcc w .b b

/-- R254; R420 when the divisor is 0: the zero division interrupt, with A, B and the flags N, V, Z, C unchanged. -/
def execDiv (o : Operand) (s : State) : Result :=
  let w := s.mWidth
  let (d, s) := operand w o s
  if d = 0#16 then .next (takeZeroDivision s)
  else .next (putQuotient w (divUnsigned w (s.readAcc w .b) (s.readAcc w .a) d) s)

/-- R255; R420 when the divisor is 0. -/
def execDivs (o : Operand) (s : State) : Result :=
  let w := s.mWidth
  let (d, t) := operand w o s
  if d = 0#16 then on7750 s (takeZeroDivision t)
  else on7750 s (putQuotient w (divSigned w (t.readAcc w .b) (t.readAcc w .a) d) t)

end Sys2Proof.Machine
end

