-- ==== Sys2Proof/Machine/Logic.lean ====
section
/-! DEFINITION. The meanings of the logic, comparison, shift, rotate and extension instructions (R256 to R267,
R288, R289). -/

namespace Sys2Proof.Machine

/-- The accumulator and the operand combined bit by bit, with N and Z (R256 to R258). -/
def combine (f : Word → Word → Word) (r : Acc) (o : Operand) (s : State) : State :=
  let w := s.mWidth
  let (b, s) := operand w o s
  loadAcc r (f (s.readAcc w r) b) s

/-- R256. -/
def execAnd (r : Acc) (o : Operand) (s : State) : Result := .next (combine (· &&& ·) r o s)

/-- R257. -/
def execOra (r : Acc) (o : Operand) (s : State) : Result := .next (combine (· ||| ·) r o s)

/-- R258. -/
def execEor (r : Acc) (o : Operand) (s : State) : Result := .next (combine (· ^^^ ·) r o s)

/-- N, Z and C of a comparison (R259). -/
def putCompare (w : Width) (e : Sum) (s : State) : State := (s.setNZ w e.r).setFlag .c e.c

/-- R259. -/
def execCmp (r : Acc) (o : Operand) (s : State) : Result :=
  let w := s.mWidth
  let (b, s) := operand w o s
  .next (putCompare w (compareValues w (s.readAcc w r) b) s)

/-- R260. -/
def execCpx (o : Operand) (s : State) : Result :=
  let w := s.xWidth
  let (b, s) := operand w o s
  .next (putCompare w (compareValues w s.indexX b) s)

/-- R261. -/
def execCpy (o : Operand) (s : State) : Result :=
  let w := s.xWidth
  let (b, s) := operand w o s
  .next (putCompare w (compareValues w s.indexY b) s)

/-- A shift or rotate by one place of an accumulator or of memory, with N, Z and C (R262 to R266). -/
def shiftBy (f : Width → Word → Shifted) (t : Target) (s : State) : State :=
  let w := s.mWidth
  let (v, s) := modify w t (fun v => (f w v).r) s
  (s.setNZ w (f w v).r).setFlag .c (f w v).c

/-- R262. -/
def execAsl (t : Target) (s : State) : Result := .next (shiftBy shiftLeft t s)

/-- R263. -/
def execAsr (t : Target) (s : State) : Result := on7750 s (shiftBy shiftRightArith t s)

/-- R264: N is always cleared, since bit `W - 1` of the result is 0. -/
def execLsr (t : Target) (s : State) : Result := .next (shiftBy shiftRightLogic t s)

/-- R265. -/
def execRol (t : Target) (s : State) : Result :=
  .next (shiftBy (fun w v => rotateLeftC w v (s.flag .c)) t s)

/-- R266. -/
def execRor (t : Target) (s : State) : Result :=
  .next (shiftBy (fun w v => rotateRightC w v (s.flag .c)) t s)

/-- R267: accumulator A, no flag. -/
def execRla (n : Imm) (s : State) : Result :=
  let w := s.mWidth
  .next (s.writeAcc w .a (rotateLeftN w s.a (narrow w (immValue n)).toNat))

/-- R288: all 16 bits whatever m is; N and Z of the 16-bit result. -/
def execExts (r : Acc) (s : State) : Result :=
  let v := (loByte (s.acc r)).signExtend 16
  on7750 s ((s.setAcc r v).setNZ .w16 v)

/-- R289. -/
def execExtz (r : Acc) (s : State) : Result :=
  let v := (loByte (s.acc r)).setWidth 16
  on7750 s ((s.setAcc r v).setNZ .w16 v)

end Sys2Proof.Machine
end

