-- ==== Sys2Proof/Machine/Special.lean ====
section
/-! DEFINITION. The meanings of BRK, WIT, STP and NOP (R371 to R374). -/

namespace Sys2Proof.Machine

/-- R371: the software interrupt; the second byte is ignored. -/
def execBrk (_nn : Byte) (s : State) : Result := .next (takeBreak s)

/-- R372. -/
def execWit (s : State) : Result := .next (s.setRun .wait)

/-- R373. -/
def execStp (s : State) : Result := .next (s.setRun .stop)

/-- R374: the sequential advance, which the step has made, and nothing more. -/
def execNop (s : State) : Result := .next s

end Sys2Proof.Machine
end

