-- ==== Sys2Proof/Machine/Stack.lean ====
section
/-! DEFINITION. The meanings of the stack instructions (R212 to R231). -/

namespace Sys2Proof.Machine

/-- `f` if the bit of the register mask is 1. -/
def whenBit (mask : Byte) (i : Nat) (f : State → State) (s : State) : State :=
  if mask.getLsbD i then f s else s

/-- R212: the registers whose bit is 1 are pushed, A (bit 0) first and PS (bit 7) last. -/
def pushMany (mask : Byte) (s : State) : State :=
  let s := whenBit mask 0 (fun s => pushW s.mWidth s.a s) s
  let s := whenBit mask 1 (fun s => pushW s.mWidth s.b s) s
  let s := whenBit mask 2 (fun s => pushW s.xWidth s.x s) s
  let s := whenBit mask 3 (fun s => pushW s.xWidth s.y s) s
  let s := whenBit mask 4 (fun s => push16 s.dpr s) s
  let s := whenBit mask 5 (fun s => push8 s.dt s) s
  let s := whenBit mask 6 (fun s => push8 s.pg s) s
  whenBit mask 7 pushPs s

def pullDt (s : State) : State :=
  let (v, s) := pull8 s
  s.setDt v

def pullDpr (s : State) : State :=
  let (v, s) := pull16 s
  s.setDpr v

/-- A register pulled at the width of x or m of the state, without a flag. -/
def pullY (s : State) : State :=
  let (v, t) := pullW s.xWidth s
  t.writeY s.xWidth v

def pullX (s : State) : State :=
  let (v, t) := pullW s.xWidth s
  t.writeX s.xWidth v

def pullAcc (r : Acc) (s : State) : State :=
  let (v, t) := pullW s.mWidth s
  t.writeAcc s.mWidth r v

/-- R213: PS (bit 7) first and A (bit 0) last, with the m and x that PS then has; bit 6 is ignored (D21). -/
def pullMany (mask : Byte) (s : State) : State :=
  let s := whenBit mask 7 pullPs s
  let s := whenBit mask 5 pullDt s
  let s := whenBit mask 4 pullDpr s
  let s := whenBit mask 3 pullY s
  let s := whenBit mask 2 pullX s
  let s := whenBit mask 1 (pullAcc .b) s
  whenBit mask 0 (pullAcc .a) s

/-- R212. -/
def execPsh (mask : Byte) (s : State) : Result := .next (pushMany mask s)

/-- R213. -/
def execPul (mask : Byte) (s : State) : Result := .next (pullMany mask s)

/-- R214. -/
def execPha (s : State) : Result := .next (pushW s.mWidth s.a s)

/-- R215. -/
def execPla (s : State) : Result :=
  let (v, t) := pullW s.mWidth s
  .next (loadAcc .a v t)

/-- R216. -/
def execPhp (s : State) : Result := .next (pushPs s)

/-- R217. -/
def execPlp (s : State) : Result := .next (pullPs s)

/-- R218. -/
def execPhb (s : State) : Result := .next (pushW s.mWidth s.b s)

/-- R219. -/
def execPlb (s : State) : Result :=
  let (v, t) := pullW s.mWidth s
  .next (loadAcc .b v t)

/-- R220. -/
def execPhd (s : State) : Result := .next (push16 s.dpr s)

/-- R221: no flag. -/
def execPld (s : State) : Result := .next (pullDpr s)

/-- R222. -/
def execPht (s : State) : Result := .next (push8 s.dt s)

/-- R223: N and Z from the byte. -/
def execPlt (s : State) : Result :=
  let (v, t) := pull8 s
  .next ((t.setDt v).setNZ .w8 (v.setWidth 16))

/-- R224. -/
def execPhx (s : State) : Result := .next (pushW s.xWidth s.x s)

/-- R225. -/
def execPlx (s : State) : Result :=
  let (v, t) := pullW s.xWidth s
  .next (loadX v t)

/-- R226. -/
def execPhy (s : State) : Result := .next (pushW s.xWidth s.y s)

/-- R227. -/
def execPly (s : State) : Result :=
  let (v, t) := pullW s.xWidth s
  .next (loadY v t)

/-- R228: the bank of the next instruction. -/
def execPhg (s : State) : Result := .next (push8 s.pg s)

/-- R229. -/
def execPea (v : Word) (s : State) : Result := .next (push16 v s)

/-- R230: the word is read before the pushes. -/
def execPei (dd : Byte) (s : State) : Result :=
  let (v, t) := read16 (s.directPage (zext24b dd)) s
  .next (push16 v t)

/-- R231: the sum with the PC of the next instruction (D20), modulo 2^16. -/
def execPer (v : Word) (s : State) : Result := .next (push16 (s.pc + v) s)

end Sys2Proof.Machine
end

