-- ==== Sys2Proof/Machine/Dispatch.lean ====
section
/-! DEFINITION. The meaning of each instruction, by constructor. -/

namespace Sys2Proof.Machine

def exec (i : Instr) (s : State) : Host.Outcome State Fault Refusal :=
  match i with
  | .lda r o => Sys2Proof.Machine.execLda r o s
  | .ldm v mode => Sys2Proof.Machine.execLdm v mode s
  | .ldt v => Sys2Proof.Machine.execLdt v s
  | .ldx o => Sys2Proof.Machine.execLdx o s
  | .ldy o => Sys2Proof.Machine.execLdy o s
  | .sta r mode => Sys2Proof.Machine.execSta r mode s
  | .stx mode => Sys2Proof.Machine.execStx mode s
  | .sty mode => Sys2Proof.Machine.execSty mode s
  | .tax => Sys2Proof.Machine.execTax s
  | .txa => Sys2Proof.Machine.execTxa s
  | .tay => Sys2Proof.Machine.execTay s
  | .tya => Sys2Proof.Machine.execTya s
  | .tsx => Sys2Proof.Machine.execTsx s
  | .txs => Sys2Proof.Machine.execTxs s
  | .tad => Sys2Proof.Machine.execTad s
  | .tas => Sys2Proof.Machine.execTas s
  | .tda => Sys2Proof.Machine.execTda s
  | .tsa => Sys2Proof.Machine.execTsa s
  | .tbd => Sys2Proof.Machine.execTbd s
  | .tdb => Sys2Proof.Machine.execTdb s
  | .tbs => Sys2Proof.Machine.execTbs s
  | .tsb => Sys2Proof.Machine.execTsb s
  | .tbx => Sys2Proof.Machine.execTbx s
  | .txb => Sys2Proof.Machine.execTxb s
  | .tby => Sys2Proof.Machine.execTby s
  | .tyb => Sys2Proof.Machine.execTyb s
  | .txy => Sys2Proof.Machine.execTxy s
  | .tyx => Sys2Proof.Machine.execTyx s
  | .psh mask => Sys2Proof.Machine.execPsh mask s
  | .pul mask => Sys2Proof.Machine.execPul mask s
  | .pha => Sys2Proof.Machine.execPha s
  | .pla => Sys2Proof.Machine.execPla s
  | .php => Sys2Proof.Machine.execPhp s
  | .plp => Sys2Proof.Machine.execPlp s
  | .phb => Sys2Proof.Machine.execPhb s
  | .plb => Sys2Proof.Machine.execPlb s
  | .phd => Sys2Proof.Machine.execPhd s
  | .pld => Sys2Proof.Machine.execPld s
  | .pht => Sys2Proof.Machine.execPht s
  | .plt => Sys2Proof.Machine.execPlt s
  | .phx => Sys2Proof.Machine.execPhx s
  | .plx => Sys2Proof.Machine.execPlx s
  | .phy => Sys2Proof.Machine.execPhy s
  | .ply => Sys2Proof.Machine.execPly s
  | .phg => Sys2Proof.Machine.execPhg s
  | .pea v => Sys2Proof.Machine.execPea v s
  | .pei dd => Sys2Proof.Machine.execPei dd s
  | .per v => Sys2Proof.Machine.execPer v s
  | .mvn dst srcBank => Sys2Proof.Machine.execMvn dst srcBank s
  | .mvp dst srcBank => Sys2Proof.Machine.execMvp dst srcBank s
  | .xab => Sys2Proof.Machine.execXab s
  | .adc r o => Sys2Proof.Machine.execAdc r o s
  | .sbc r o => Sys2Proof.Machine.execSbc r o s
  | .inc t => Sys2Proof.Machine.execInc t s
  | .dec t => Sys2Proof.Machine.execDec t s
  | .inx => Sys2Proof.Machine.execInx s
  | .dex => Sys2Proof.Machine.execDex s
  | .iny => Sys2Proof.Machine.execIny s
  | .dey => Sys2Proof.Machine.execDey s
  | .mpy o => Sys2Proof.Machine.execMpy o s
  | .mpys o => Sys2Proof.Machine.execMpys o s
  | .div o => Sys2Proof.Machine.execDiv o s
  | .divs o => Sys2Proof.Machine.execDivs o s
  | .and r o => Sys2Proof.Machine.execAnd r o s
  | .ora r o => Sys2Proof.Machine.execOra r o s
  | .eor r o => Sys2Proof.Machine.execEor r o s
  | .cmp r o => Sys2Proof.Machine.execCmp r o s
  | .cpx o => Sys2Proof.Machine.execCpx o s
  | .cpy o => Sys2Proof.Machine.execCpy o s
  | .asl t => Sys2Proof.Machine.execAsl t s
  | .asr t => Sys2Proof.Machine.execAsr t s
  | .lsr t => Sys2Proof.Machine.execLsr t s
  | .rol t => Sys2Proof.Machine.execRol t s
  | .ror t => Sys2Proof.Machine.execRor t s
  | .rla n => Sys2Proof.Machine.execRla n s
  | .exts r => Sys2Proof.Machine.execExts r s
  | .extz r => Sys2Proof.Machine.execExtz r s
  | .clb mask mode => Sys2Proof.Machine.execClb mask mode s
  | .seb mask mode => Sys2Proof.Machine.execSeb mask mode s
  | .clp mask => Sys2Proof.Machine.execClp mask s
  | .sep mask => Sys2Proof.Machine.execSep mask s
  | .clc => Sys2Proof.Machine.execClc s
  | .sec => Sys2Proof.Machine.execSec s
  | .clm => Sys2Proof.Machine.execClm s
  | .sem => Sys2Proof.Machine.execSem s
  | .cli => Sys2Proof.Machine.execCli s
  | .sei => Sys2Proof.Machine.execSei s
  | .clv => Sys2Proof.Machine.execClv s
  | .jmp j => Sys2Proof.Machine.execJmp j s
  | .bra d => Sys2Proof.Machine.execBra d s
  | .jsr j => Sys2Proof.Machine.execJsr j s
  | .bbc mask mode rr => Sys2Proof.Machine.execBbc mask mode rr s
  | .bbs mask mode rr => Sys2Proof.Machine.execBbs mask mode rr s
  | .bcc rr => Sys2Proof.Machine.execBcc rr s
  | .bcs rr => Sys2Proof.Machine.execBcs rr s
  | .bne rr => Sys2Proof.Machine.execBne rr s
  | .beq rr => Sys2Proof.Machine.execBeq rr s
  | .bpl rr => Sys2Proof.Machine.execBpl rr s
  | .bmi rr => Sys2Proof.Machine.execBmi rr s
  | .bvc rr => Sys2Proof.Machine.execBvc rr s
  | .bvs rr => Sys2Proof.Machine.execBvs rr s
  | .rti => Sys2Proof.Machine.execRti s
  | .rts => Sys2Proof.Machine.execRts s
  | .rtl => Sys2Proof.Machine.execRtl s
  | .brk nn => Sys2Proof.Machine.execBrk nn s
  | .wit => Sys2Proof.Machine.execWit s
  | .stp => Sys2Proof.Machine.execStp s
  | .nop => Sys2Proof.Machine.execNop s

end Sys2Proof.Machine
end

