-- ==== Sys2Proof/Machine/Cycle.lean ====
section
/-! DEFINITION. Fetching an instruction, running it, and one turn of the machine (R14). -/

namespace Sys2Proof.Machine

/-- `n` bytes from an address on, each read in turn, the address modulo 2^24 (R28). -/
def readBytes : Nat → Addr → State → List Byte × State
  | 0, _, s => ([], s)
  | n + 1, a, s =>
    let (b, s) := readByte a s
    let (rest, s) := readBytes n (a + 1) s
    (b :: rest, s)

/-- The opcode bytes at `PG:PC`: one, or two after 42 or 89 (R122). -/
def readOpcode (s : State) : List Byte × State :=
  let (b, t) := readByte s.pcAddr s
  if opensPage b then
    let (c, t) := readByte (s.pcAddr + 1) t
    ([b, c], t)
  else ([b], t)

/-- The bytes of the instruction at `PG:PC`, exactly as many as it has with the m and x of the state (R121);
the opcode bytes alone where they are undefined. -/
def readInstr (s : State) : List Byte × State :=
  let (head, t) := readOpcode s
  match lookup s.chip.series head with
  | none => (head, t)
  | some e =>
    let (rest, t) := readBytes (e.shape.operandLen (s.flag .m) (s.flag .x)) (s.pcAddr + BitVec.ofNat 24 head.length) t
    (head ++ rest, t)

/-- Step (3) of R14: the instruction at `PG:PC` is fetched and decoded, its length added to `PG:PC`, and its rule
executed; an undefined code faults (R424). -/
def runInstruction (s : State) : Result :=
  let (bytes, t) := readInstr s
  match decode s.chip.series (s.flag .m) (s.flag .x) bytes with
  | .ok p => exec p.1 (t.advance (bytes.length - p.2.length))
  | .error _ => .fault .undefinedOpcode

/-- R14: the boundary, then an event if there is one to take, else nothing in the stopped states (R423), else the
next instruction. -/
def turn (s : State) : Result :=
  let s := boundary s
  match nextEvent s with
  | some e => .next (takeEvent e s)
  | none =>
    match s.run with
    | .running => runInstruction s
    | .wait => .next s
    | .stop => .next s

/-- D11: a step that leaves the contract of single-chip mode is refused.  A fault stays a fault.  DESIGN CHOICE
(assumption log 39): where such a step reads instruction bytes outside bank 0 and these are an undefined code, the spec
gives the refusal of D11 no precedence over the fault of D15 nor the fault over the refusal; here the fault stands. -/
def keepContract (r : Result) : Result :=
  match r with
  | .next s => if withinContract s then .next s else .refused .singleChip
  | .fault e => .fault e
  | .refused e => .refused e

/-- Bytes put into memory from an address on. -/
def placeBytes : List Byte → Addr → Memory → Memory
  | [], _, m => m
  | b :: rest, a, m => placeBytes rest (a + 1) (m.set a.toNat b)

end Sys2Proof.Machine
end

