-- ==== Sys2Proof/Machine/Step.lean ====
section
/-! DEFINITION. One step of the machine, and how the host places an instruction for it. -/

namespace Sys2Proof.Machine

/-- One step (R14), within the contract of single-chip mode (D11). -/
def step (s : State) : Host.Outcome State Fault Refusal := keepContract (turn s)

/-- The state with an opcode-table row's bytes at `PG:PC`, where the step fetches, the CPU running and no event
to take, so that the next step runs them (assumption log 7). -/
def State.withFetchWord (s : State) (nbits w : Nat) : State :=
  ((s.setMem (placeBytes (tableBytes nbits w) s.pcAddr s.mem)).setRun .running).setIrq ⟨[], false, false, []⟩

end Sys2Proof.Machine
end

