-- ==== Sys2Proof/Safety.lean ====
section
/-! DEFINITION. What counts as a safe run and a legal state, and the vocabulary of the statements: which registers,
flags and bytes stay as they are, what a value written at a width is, and what a push stores. -/

namespace Sys2Proof.Safety

open Sys2Proof.Machine

/-! ### Runs and states -/

/-- `k` steps, none of which faults or is refused. -/
def runs : Nat → State → Bool
  | 0, _ => true
  | k + 1, s =>
    match step s with
    | .next t => runs k t
    | .fault _ => false
    | .refused _ => false

/-- A read at this address gives what memory holds and changes nothing: it is RAM or ROM (R61), and in bank 0 where
the chip is in single-chip mode (R62). -/
def gives (s : State) (p : Addr) : Prop :=
  (s.kindAt p = .ram ∨ s.kindAt p = .rom) ∧ (s.chip.singleChip = true → addrBank p = 0#8)

/-- So it is at `n` addresses from `p` on, modulo 2^24 (R66). -/
def givesFrom (n : Nat) (s : State) (p : Addr) : Prop := ∀ k : Nat, k < n → gives s (p + BitVec.ofNat 24 k)

/-- So it is at the `n` stack locations that the next `n` byte pulls read (R69). -/
def givesStack (n : Nat) (s : State) : Prop :=
  ∀ k : Nat, k < n → gives s (mkAddr 0#8 (s.sp + BitVec.ofNat 16 (k + 1)))

/-- After the environment's part of the boundary the CPU runs and no event is to be taken: the step runs an instruction
(R14 (3)). -/
def readyToRun (s : State) : Prop := (boundary s).run = .running ∧ nextEvent (boundary s) = none

/-- The invariant of the machine: the memory keeps its canonical form, the chip's parameters are as R404 requires, and
every request that is pending or to come is from a source of the chip, so that its vector is one of them. -/
def legal (s : State) : Prop :=
  s.mem.wf = true ∧ s.chip.wf = true ∧ requestsListed s.chip s.irq = true

/-! ### What stays as it is -/

/-- The registers of R20, but for PS, whose flags and IPL have their own readers. -/
inductive Reg where
  | a
  | b
  | x
  | y
  | sp
  | pc
  | pg
  | dt
  | dpr
  deriving DecidableEq, Repr

/-- The contents of a register, as a number. -/
def regVal (s : State) : Reg → Nat
  | .a => s.a.toNat
  | .b => s.b.toNat
  | .x => s.x.toNat
  | .y => s.y.toNat
  | .sp => s.sp.toNat
  | .pc => s.pc.toNat
  | .pg => s.pg.toNat
  | .dt => s.dt.toNat
  | .dpr => s.dpr.toNat

/-- The accumulator as a register. -/
def accReg : Acc → Reg
  | .a => .a
  | .b => .b

/-- Every register but those of the list keeps its contents, every byte of memory outside `stored` reads as before,
and the run state, the chip and the requests are as before.  The bus record is no part of it. -/
def KeepsAllBut (regs : List Reg) (stored : Addr → Prop) (s t : State) : Prop :=
  (∀ r, r ∉ regs → regVal t r = regVal s r)
    ∧ (∀ p, ¬ stored p → t.byteAt p = s.byteAt p)
    ∧ t.run = s.run ∧ t.chip = s.chip ∧ t.irq = s.irq

/-- Every flag but those of the list is as before, and so is IPL. -/
def KeepsFlagsBut (flags : List Flag) (s t : State) : Prop :=
  (∀ f, f ∉ flags → t.flag f = s.flag f) ∧ t.ipl = s.ipl

/-- The frame of an instruction: registers, flags and stored bytes that it may change. -/
def Frame (regs : List Reg) (flags : List Flag) (stored : Addr → Prop) (s t : State) : Prop :=
  KeepsAllBut regs stored s t ∧ KeepsFlagsBut flags s t

/-- No byte is stored. -/
def nowhere (_ : Addr) : Prop := False

/-- The bytes of a datum of a width at an address (R64, R66). -/
def span (w : Width) (ea p : Addr) : Prop := p = ea ∨ (w = .w16 ∧ p = ea + 1)

/-- The `n` stack locations from `00:S` downward, which `n` byte pushes store to (R69). -/
def stackSpan (n : Nat) (sp : Word) (p : Addr) : Prop := ∃ k : Nat, k < n ∧ p = mkAddr 0#8 (sp - BitVec.ofNat 16 k)

/-! ### Values at a width -/

/-- The W-bit value in the low bits of a register, as a number (`rd_W` of R18). -/
def valueOf (w : Width) (v : Word) : Nat := v.toNat % 2 ^ bitsOf w

/-- A W-bit number as a signed one (`sgn_W` of R253). -/
def signedOf (w : Width) (n : Nat) : Int := if n < 2 ^ (bitsOf w - 1) then n else (n : Int) - (2 ^ bitsOf w : Nat)

/-- `wr_W` of R18: the register that held `old` holds `n` in its W low bits; at 8 bits its high byte is as before. -/
def WrittenAs (w : Width) (old new : Word) (n : Nat) : Prop :=
  valueOf w new = n ∧ (w = .w8 → hiByte new = hiByte old)

/-- `setNZ_W` of R18: N is bit `W - 1` of the W-bit number `n`, Z is 1 exactly when it is 0. -/
def ShowsNZ (w : Width) (n : Nat) (t : State) : Prop :=
  t.flag .n = decide (2 ^ (bitsOf w - 1) ≤ n) ∧ t.flag .z = decide (n = 0)

/-! ### Memory and the stack -/

/-- After a store of `v` to `p`: RAM holds it (R61); ROM and an unmapped address (D12, assumption log 14) and a device
register's cell (assumption log 15) hold what they held. -/
def StoredAt (p : Addr) (v : Byte) (s t : State) : Prop :=
  t.byteAt p = if s.kindAt p = .ram then v else s.byteAt p

/-- `Mem_W(ea) <- v` (R18, R64): the low byte at `ea`, and at 16 bits the high byte at the next address,
modulo 2^24 and across banks (D8, assumption log 22). -/
def Stores (w : Width) (ea : Addr) (v : Word) (s t : State) : Prop :=
  StoredAt ea (loByte v) s t ∧ (w = .w16 → StoredAt (ea + 1) (hiByte v) s t)

/-- The 16-bit datum at an address: the byte there and the byte at the next address above it (R64). -/
def wordAt (s : State) (p : Addr) : Word := mkWord (s.byteAt (p + 1)) (s.byteAt p)

/-- The 24-bit datum at an address (R64). -/
def longAt (s : State) (p : Addr) : Addr := mkAddr (s.byteAt (p + 2)) (wordAt s p)

/-- The datum of a width at an address, as a number. -/
def dataAt (w : Width) (s : State) (p : Addr) : Nat :=
  match w with
  | .w8 => (s.byteAt p).toNat
  | .w16 => (s.byteAt p).toNat + 256 * (s.byteAt (p + 1)).toNat

/-- The bytes that a push of a register at a width stores, in the order of the pushes: the high byte first (R69). -/
def pushBytes (w : Width) (v : Word) : List Byte :=
  match w with
  | .w8 => [loByte v]
  | .w16 => [hiByte v, loByte v]

/-- The bytes of `bs` pushed in this order (R69): each at `00:S` for the S it finds, S one less after it. -/
def Pushed (bs : List Byte) (s t : State) : Prop :=
  t.sp = s.sp - BitVec.ofNat 16 bs.length
    ∧ (∀ k v, bs[k]? = some v → StoredAt (mkAddr 0#8 (s.sp - BitVec.ofNat 16 k)) v s t)

/-- The stack byte that lies `k` above the next one to be pulled: `00:(S + 1 + k)` (R69). -/
def stackByte (s : State) (k : Nat) : Byte := s.byteAt (mkAddr 0#8 (s.sp + BitVec.ofNat 16 (k + 1)))

/-- The datum of a width that a pull gives, `k` bytes above the next one (R69). -/
def stackData (w : Width) (s : State) (k : Nat) : Nat :=
  match w with
  | .w8 => (stackByte s k).toNat
  | .w16 => (stackByte s k).toNat + 256 * (stackByte s (k + 1)).toNat

/-- How many bytes a register of a width takes. -/
def bytesIn : Width → Nat
  | .w8 => 1
  | .w16 => 2

/-- The five bytes of the interrupt frame, in the order of the pushes: PG, PCH, PCL, PSH, PSL (R410). -/
def frameBytes (s : State) : List Byte := [s.pg, hiByte s.pc, loByte s.pc, s.psh, s.psl]

/-- What a push instruction does: the bytes pushed, S moved, and nothing else. -/
def PushResult (bs : List Byte) (s t : State) : Prop :=
  Pushed bs s t ∧ Frame [.sp] [] (stackSpan bs.length s.sp) s t

/-- The bytes that PSH pushes for a register mask, in the order of the pushes: A (bit 0) first, PS (bit 7) last
(R212). -/
def pshBytes (mask : Byte) (s : State) : List Byte :=
  (if mask.getLsbD 0 then pushBytes s.mWidth s.a else [])
    ++ (if mask.getLsbD 1 then pushBytes s.mWidth s.b else [])
    ++ (if mask.getLsbD 2 then pushBytes s.xWidth s.x else [])
    ++ (if mask.getLsbD 3 then pushBytes s.xWidth s.y else [])
    ++ (if mask.getLsbD 4 then pushBytes .w16 s.dpr else [])
    ++ (if mask.getLsbD 5 then [s.dt] else [])
    ++ (if mask.getLsbD 6 then [s.pg] else [])
    ++ (if mask.getLsbD 7 then [s.psh, s.psl] else [])

/-- The number of bytes that a register takes on the stack, if its bit of the mask is 1. -/
def ifBit (mask : Byte) (i n : Nat) : Nat := if mask.getLsbD i then n else 0

/-- The number of bytes that PUL pulls for a register mask, at the widths of `t`; bit 6 stands for no byte (R213). -/
def pulBytes (mask : Byte) (t : State) : Nat :=
  ifBit mask 7 2 + ifBit mask 5 1 + ifBit mask 4 2 + ifBit mask 3 (bytesIn t.xWidth)
    + ifBit mask 2 (bytesIn t.xWidth) + ifBit mask 1 (bytesIn t.mWidth) + ifBit mask 0 (bytesIn t.mWidth)

/-! ### Results of instructions, one predicate for each shape -/

/-- An accumulator loaded with a W-bit number, W by m: N and Z show it, and nothing else changes. -/
def LoadsAcc (r : Acc) (n : Nat) (s t : State) : Prop :=
  WrittenAs s.mWidth (s.acc r) (t.acc r) n ∧ ShowsNZ s.mWidth n t ∧ Frame [accReg r] [.n, .z] nowhere s t

/-- X loaded with a W-bit number, W by x. -/
def LoadsX (n : Nat) (s t : State) : Prop :=
  WrittenAs s.xWidth s.x t.x n ∧ ShowsNZ s.xWidth n t ∧ Frame [.x] [.n, .z] nowhere s t

/-- Y loaded with a W-bit number, W by x. -/
def LoadsY (n : Nat) (s t : State) : Prop :=
  WrittenAs s.xWidth s.y t.y n ∧ ShowsNZ s.xWidth n t ∧ Frame [.y] [.n, .z] nowhere s t

/-- A store: the datum at the effective address of the mode, and nothing else. -/
def StoreResult (w : Width) (mode : Mode) (v : Word) (s t : State) : Prop :=
  Stores w (effAddr mode s).1 v s t ∧ Frame [] [] (span w (effAddr mode s).1) s t

/-- The W-bit number that a shift, rotate, increment or decrement works on. -/
def targetValue (w : Width) (tg : Target) (s : State) : Nat :=
  match tg with
  | .acc r => valueOf w (s.acc r)
  | .mem mode => (loadMode w mode s).1.toNat

/-- A W-bit number written back to where `targetValue` came from, with the flags of the list, and nothing else. -/
def Rewrites (w : Width) (tg : Target) (n : Nat) (flags : List Flag) (s t : State) : Prop :=
  match tg with
  | .acc r => WrittenAs w (s.acc r) (t.acc r) n ∧ Frame [accReg r] flags nowhere s t
  | .mem mode =>
    Stores w (effAddr mode s).1 (BitVec.ofNat 16 n) s t ∧ Frame [] flags (span w (effAddr mode s).1) s t

/-- A relative branch (R102): when taken, the displacement is added to `PG:PC` modulo 2^24, and no flag, no other
register and no byte of memory changes. -/
def BranchesIf (taken : Bool) (disp : Int) (s t : State) : Prop :=
  (t.pcAddr.toNat : Int) = (if taken then ((s.pcAddr.toNat : Int) + disp) % 2 ^ 24 else (s.pcAddr.toNat : Int))
    ∧ Frame [.pc, .pg] [] nowhere s t

/-- Interrupt entry (R410): the frame pushed, I set, IPL the event's level if it has one, PG = 00, PC the word at the
vector where that is RAM or ROM, the CPU running, and no other register, flag or byte of memory changed.  The zeros in
the pushed PSH byte are PRESUMED (assumption log 8); that D, m and x stay for every event is decision D32
(assumption log 34). -/
def EntryResult (vector : Word) (level : Option (BitVec 3)) (s t : State) : Prop :=
  Pushed (frameBytes s) s t
    ∧ t.flag .i = true ∧ t.ipl = level.getD s.ipl ∧ t.pg = 0#8 ∧ t.run = .running
    ∧ (givesFrom 2 s (mkAddr 0#8 vector) → t.pc = wordAt t (mkAddr 0#8 vector))
    ∧ (∀ r, r ∉ [Reg.sp, Reg.pc, Reg.pg] → regVal t r = regVal s r)
    ∧ (∀ f, f ≠ .i → t.flag f = s.flag f)
    ∧ (∀ p, ¬ stackSpan 5 s.sp p → t.byteAt p = s.byteAt p)
    ∧ t.chip = s.chip

/-! ### Which instructions write the special registers (R30 to R32, R45, R48) -/

/-- R31. -/
def writesDt : Instr → Bool
  | .ldt _ => true
  | .plt => true
  | .pul mask => mask.getLsbD 5
  | .mvn _ _ => true
  | .mvp _ _ => true
  | _ => false

/-- R32. -/
def writesDpr : Instr → Bool
  | .tad => true
  | .tbd => true
  | .pld => true
  | .pul mask => mask.getLsbD 4
  | _ => false

/-- R45. -/
def writesIpl : Instr → Bool
  | .plp => true
  | .pul mask => mask.getLsbD 7
  | .rti => true
  | _ => false

/-- R30, but for the sequential advance, which `exec` finds done. -/
def writesPg : Instr → Bool
  | .jmp (.abl _) => true
  | .jmp (.indL _) => true
  | .jsr (.abl _) => true
  | .bra _ => true
  | .bbc _ _ _ => true
  | .bbs _ _ _ => true
  | .bcc _ => true
  | .bcs _ => true
  | .bne _ => true
  | .beq _ => true
  | .bpl _ => true
  | .bmi _ => true
  | .bvc _ => true
  | .bvs _ => true
  | .rti => true
  | .rtl => true
  | .brk _ => true
  | .div _ => true
  | .divs _ => true
  | _ => false

/-- R43: V as a result flag or loaded. -/
def writesV : Instr → Bool
  | .adc _ _ => true
  | .sbc _ _ => true
  | .div _ => true
  | .divs _ => true
  | .clv => true
  | .sep _ => true
  | .clp _ => true
  | .plp => true
  | .pul _ => true
  | .rti => true
  | _ => false

/-- R40: D. -/
def writesD : Instr → Bool
  | .sep _ => true
  | .clp _ => true
  | .plp => true
  | .pul _ => true
  | .rti => true
  | _ => false

end Sys2Proof.Safety
end

