-- ==== Sys2Proof/Certificates/Slice0/Obligations.lean ====
section
/-! DEFINITION. The statements about the model, for the provers: encoding, the step, reset and interrupts, memory
and addressing, and the result and the frame of every instruction. -/

open Sys2Proof Sys2Proof.Machine Sys2Proof.Safety

/-! ## Encoding -/

/-- R120, R122, R131: every well-formed instruction has an encoding of 1 to 6 bytes, and decoding it, with any bytes
after it, gives the instruction back and those bytes. -/
def Obligations.DecodeInvertsEncode : Prop :=
  ∀ (series : Series) (m x : Bool) (i : Instr) (rest : List Byte), i.wellFormed series m x = true →
    ∃ bytes, encode i = some bytes ∧ 1 ≤ bytes.length ∧ bytes.length ≤ 6 ∧
      decode series m x (bytes ++ rest) = .ok (i, rest)

/-- R122, R131: whatever the decoder reads is well formed, and its encoding is exactly the bytes read. -/
def Obligations.EncodeInvertsDecode : Prop :=
  ∀ (series : Series) (m x : Bool) (bs : List Byte) (i : Instr) (rest : List Byte),
    decode series m x bs = .ok (i, rest) →
      i.wellFormed series m x = true ∧ ∃ bytes, encode i = some bytes ∧ bs = bytes ++ rest

/-- R64, R123, R138: the examples that the rules print. -/
def Obligations.PrintedExamplesDecode : Prop :=
  ∀ (series : Series) (x : Bool),
    decode series false x [0x5C#8, 0x56#8, 0x34#8, 0x12#8] = .ok (.jmp (.abl 0x123456#24), []) ∧
    decode series false x [0xDC#8, 0x34#8, 0x12#8] = .ok (.jmp (.indL 0x1234#16), []) ∧
    decode series false x [0x62#8, 0x34#8, 0x12#8] = .ok (.per 0x1234#16, []) ∧
    decode series true x [0x14#8, 0x04#8, 0x5A#8] = .ok (.clb (.i8 0x5A#8) (.dir 0x04#8), []) ∧
    decode series false x [0x14#8, 0x04#8, 0xA5#8, 0x5A#8] = .ok (.clb (.i16 0x5AA5#16) (.dir 0x04#8), [])

/-- R130: of the first bytes only 02 is undefined; after 42 there are 118 undefined second bytes on a 7750 and 121 on
the other series, after 89 there are 186 and 223. -/
def Obligations.UndefinedCodesCounted : Prop :=
  (∀ (series : Series) (b : Byte), opensPage b = false → (lookup series [b] = none ↔ b = 0x02#8)) ∧
  ((List.range 256).filter fun n => (lookup .s7750 [0x42#8, BitVec.ofNat 8 n]).isNone).length = 118 ∧
  ((List.range 256).filter fun n => (lookup .s7700 [0x42#8, BitVec.ofNat 8 n]).isNone).length = 121 ∧
  ((List.range 256).filter fun n => (lookup .s7750 [0x89#8, BitVec.ofNat 8 n]).isNone).length = 186 ∧
  ((List.range 256).filter fun n => (lookup .s7700 [0x89#8, BitVec.ofNat 8 n]).isNone).length = 223

/-! ## The step -/

/-- R14, R28, R121: when no event is to be taken after the boundary and the bytes at `PG:PC` decode with the m and x of
the state, the step is the instruction's meaning in the state whose `PG:PC` has moved past the bytes, within the contract
of single-chip mode: with the bytes as the fetch reads them from anywhere; and with the bytes as memory holds them where
each of them stands in RAM or ROM. -/
def Obligations.StepRunsDecodedInstruction : Prop :=
  (∀ (s t : State) (i : Instr) (bytes : List Byte),
    readyToRun s →
    readInstr (boundary s) = (bytes, t) →
    decode s.chip.series (s.flag .m) (s.flag .x) bytes = .ok (i, []) →
      step s = keepContract (exec i (t.advance bytes.length))) ∧
  (∀ (s : State) (i : Instr) (bytes : List Byte),
    readyToRun s → givesFrom bytes.length s s.pcAddr →
    decode s.chip.series (s.flag .m) (s.flag .x) bytes = .ok (i, []) →
    (∀ k v, bytes[k]? = some v → s.byteAt (s.pcAddr + BitVec.ofNat 24 k) = v) →
      step s = keepContract (exec i ((boundary s).advance bytes.length)) ∧
      (s.chip.singleChip = false → step s = exec i ((boundary s).advance bytes.length)))

/-- R130, R424 (D15, assumption log 10): an undefined code at `PG:PC`, in RAM or ROM, faults: one byte, or two of which
the first is 42 or 89. -/
def Obligations.UndefinedCodeFaults : Prop :=
  ∀ s : State, readyToRun s → gives s s.pcAddr →
    (opensPage (s.byteAt s.pcAddr) = true → gives s (s.pcAddr + 1)) →
    ((opensPage (s.byteAt s.pcAddr) = false ∧ lookup s.chip.series [s.byteAt s.pcAddr] = none) ∨
      (opensPage (s.byteAt s.pcAddr) = true ∧
        lookup s.chip.series [s.byteAt s.pcAddr, s.byteAt (s.pcAddr + 1)] = none)) →
    step s = .fault .undefinedOpcode

/-- The invariant: every step from a legal state ends in a legal one: memory in canonical form, the chip's parameters as
R404 requires, every request pending or to come from a source of the chip.  And no step changes the chip's parameters. -/
def Obligations.StepKeepsLegal : Prop :=
  ∀ s t : State, step s = .next t → t.chip = s.chip ∧ (legal s → legal t)

/-- The state after reset is legal. -/
def Obligations.ResetIsLegal : Prop := legal State.reset

/-- R30, R31, R32, R40, R43, R45, R48: an instruction that the rules do not list as a writer of PG, DT, DPR, V, D, IPL
or the run state leaves it as it is (PG after the sequential advance). -/
def Obligations.OnlyListedInstructionsWrite : Prop :=
  ∀ (i : Instr) (s t : State), i.wellFormed s.chip.series (s.flag .m) (s.flag .x) = true → exec i s = .next t →
    (writesPg i = false → t.pg = s.pg) ∧
    (writesDt i = false → t.dt = s.dt) ∧
    (writesDpr i = false → t.dpr = s.dpr) ∧
    (writesV i = false → t.flag .v = s.flag .v) ∧
    (writesD i = false → t.flag .d = s.flag .d) ∧
    (writesIpl i = false → t.ipl = s.ipl) ∧
    (t.run = s.run ∨ (t.run = .wait ∧ i = .wit) ∨ (t.run = .stop ∧ i = .stp) ∨
      (t.run = .running ∧ ((∃ n, i = .brk n) ∨ ∃ o, i = .div o ∨ i = .divs o))) ∧
    t.irq = s.irq

/-! ## Reset and interrupts -/

/-- R49: the values that the manual gives for reset, and PC from the reset vector of the memory. -/
def Obligations.ResetStateValues : Prop :=
  State.reset.pg = 0#8 ∧ State.reset.dt = 0#8 ∧ State.reset.dpr = 0#16 ∧
  State.reset.flag .i = true ∧ State.reset.flag .d = false ∧ State.reset.flag .x = false ∧
  State.reset.flag .m = false ∧ State.reset.ipl = 0#3 ∧ State.reset.run = .running ∧
  State.reset.pc = wordAt State.reset 0x00FFFE#24

/-- R450: the reset event: PG, DT, DPR, I, D, x, m and IPL get their values, PC the word at 00FFFE where that is RAM or
ROM, the CPU runs, nothing is pushed and no byte of memory changes; A, B, X, Y, S, N, V, Z and C are free (D7).  That it goes
before every other event is decision D30 (assumption log 32), that the reset request is gone after it is assumption log
9; in single-chip mode no earlier access may have left bank 0 (assumption log 11). -/
def Obligations.ResetEvent : Prop :=
  ∀ s : State, (s.chip.singleChip = true → s.bus.outside = false) → (boundary s).irq.resetPending = true →
    ∃ t, step s = .next t ∧
      t.pg = 0#8 ∧ t.dt = 0#8 ∧ t.dpr = 0#16 ∧
      t.flag .i = true ∧ t.flag .d = false ∧ t.flag .x = false ∧ t.flag .m = false ∧ t.ipl = 0#3 ∧
      (givesFrom 2 s 0x00FFFE#24 → t.pc = wordAt s 0x00FFFE#24) ∧ t.run = .running ∧
      (∀ p : Addr, t.byteAt p = s.byteAt p) ∧ t.chip = s.chip ∧
      t.irq = { (boundary s).irq with resetPending := false }

/-- R404, R407, R410, R413, R419: the watchdog request, or the maskable request, that is next after the boundary is
taken by the entry sequence: the frame pushed, I = 1, IPL the request's level, PG = 00, PC from its vector; the request is
gone (D29, assumption log 31), D, m, x and the other flags stay (D32, assumption log 34), and the zeros in the pushed PSH
byte are PRESUMED (assumption log 8).  On every chip: in single-chip mode the step is refused where the state after the
entry is outside the contract, and it is not where the state before was within it and the vector is not FFFF.  In a legal
state no vector taken is one of the others or FFFF. -/
def Obligations.RequestsAreTaken : Prop :=
  ∀ s : State,
    (nextEvent (boundary s) = some .watchdog →
      ∃ t, EntryResult s.chip.vecWdt (some s.chip.wdtLevel) (boundary s) t ∧
        t.irq = { (boundary s).irq with wdtPending := false } ∧
        step s = (if withinContract t then .next t else .refused .singleChip) ∧
        (withinContract s = true → (s.chip.singleChip = true → s.chip.vecWdt ≠ 0xFFFF#16) → step s = .next t)) ∧
    (∀ r, nextEvent (boundary s) = some (.irq r) →
      ∃ t, EntryResult (vectorIn s.chip.sources r.src) (some r.level) (boundary s) t ∧
        t.irq = { (boundary s).irq with pending := (boundary s).irq.pending.filter (· ≠ r) } ∧
        step s = (if withinContract t then .next t else .refused .singleChip) ∧
        (withinContract s = true → (s.chip.singleChip = true → vectorIn s.chip.sources r.src ≠ 0xFFFF#16) →
          step s = .next t) ∧
        (legal s →
          vectorIn s.chip.sources r.src ∉ [0xFFFF#16, vecBreak, vecReset, s.chip.vecZeroDiv, s.chip.vecWdt] ∧
          ∀ e ∈ s.chip.sources, e.vector = vectorIn s.chip.sources r.src → e.src = r.src)) ∧
    (legal s → s.chip.vecWdt ∉ [0xFFFF#16, vecBreak, vecReset, s.chip.vecZeroDiv])

/-- R415: where the five stack locations are RAM, on any chip, RTI after an interrupt entry gives back PG, PC, S, PS and
every other register; memory is as the entry left it. -/
def Obligations.RtiUndoesEntry : Prop :=
  ∀ (vector : Word) (level : Option (BitVec 3)) (s u t : State),
    (∀ k : Nat, k < 5 → s.kindAt (mkAddr 0#8 (s.sp - BitVec.ofNat 16 k)) = .ram) →
    EntryResult vector level s u → exec .rti u = .next t →
      (∀ r : Reg, regVal t r = regVal s r) ∧ t.ps = s.ps ∧ (∀ p, ¬ stackSpan 5 s.sp p → t.byteAt p = s.byteAt p)

/-- R407: what the environment does at a boundary: the stream moves on by one list, whose events are applied one after
the other, and nothing but the request state changes.  A raised request becomes pending and a withdrawn one is not
pending any more, every other one as before; the watchdog request and the reset input are set or taken back (the stream
and the set of requests are the model's form of the environment: D29, assumption log 31).
R408, R409: a pending reset goes first, then the watchdog timer, which neither I nor IPL gates (D28, assumption log 30),
then an acceptable maskable request than which no acceptable one has a higher level (the order is D30, assumption log 32);
a request is acceptable when I = 0 and its level is above IPL. -/
def Obligations.EventPriority : Prop :=
  (∀ s : State,
    (s.irq.resetPending = true → nextEvent s = some .reset) ∧
    (s.irq.resetPending = false → s.irq.wdtPending = true → nextEvent s = some .watchdog) ∧
    (∀ r, nextEvent s = some (.irq r) →
      s.irq.resetPending = false ∧ s.irq.wdtPending = false ∧ r ∈ s.irq.pending ∧
      s.flag .i = false ∧ s.ipl < r.level ∧ (∀ q ∈ s.irq.pending, q.level ≤ r.level)) ∧
    (nextEvent s = none ↔
      s.irq.resetPending = false ∧ s.irq.wdtPending = false ∧
        ∀ q ∈ s.irq.pending, s.flag .i = true ∨ q.level ≤ s.ipl)) ∧
  (∀ s : State, boundary s = s.setIrq (boundary s).irq ∧
    (s.irq.inputs = [] → (boundary s).irq = s.irq) ∧
    (∀ rest, s.irq.inputs = [] :: rest → (boundary s).irq = { s.irq with inputs := rest })) ∧
  (∀ (s : State) (before : List EnvEvent) (e : EnvEvent) (rest : List (List EnvEvent)) (p q : Requests),
    s.irq.inputs = (before ++ [e]) :: rest →
    p = (boundary (s.setIrq { s.irq with inputs := before :: rest })).irq → q = (boundary s).irq →
      q.inputs = rest ∧
      (∀ r : Request, r ∈ q.pending ↔ (r ∈ p.pending ∧ e ≠ .withdraw r) ∨ e = .raise r) ∧
      (q.wdtPending = true ↔ (p.wdtPending = true ∧ e ≠ .watchdog false) ∨ e = .watchdog true) ∧
      (q.resetPending = true ↔ (p.resetPending = true ∧ e ≠ .reset false) ∨ e = .reset true))

/-- R423: in the states of WIT and STP nothing happens while no event is to be taken: the state after the boundary
persists.  That a pending request which is masked does not end them is decision D27 (assumption log 29).  On every chip;
in single-chip mode in a state within the contract. -/
def Obligations.StoppedStatesPersist : Prop :=
  ∀ s : State, withinContract s = true → s.run ≠ .running → nextEvent (boundary s) = none →
    step s = .next (boundary s) ∧ ∃ t, step s = .next t ∧
      (∀ r : Reg, regVal t r = regVal s r) ∧ t.ps = s.ps ∧ t.run = s.run ∧ t.mem = s.mem ∧
      t.bus = s.bus ∧ t.chip = s.chip

/-- R462: in single-chip mode no step leaves PG or DT other than 00 or DPR above FF00; a turn of the machine that
would is refused as a step.  The model's choice (assumption log 11): so is one that accessed an address outside bank 0. -/
def Obligations.SingleChipContract : Prop :=
  (∀ s t : State, step s = .next t → t.chip.singleChip = true →
    t.pg = 0#8 ∧ t.dt = 0#8 ∧ t.dpr.toNat ≤ 0xFF00 ∧ t.bus.outside = false) ∧
  (∀ s u : State, turn s = .next u → u.chip.singleChip = true →
    (u.pg ≠ 0#8 ∨ u.dt ≠ 0#8 ∨ 0xFF00 < u.dpr.toNat ∨ u.bus.outside = true) →
      step s = .refused .singleChip)

/-! ## Memory and operands -/

/-- R18, R61, R64, R66: a W-bit store puts the low byte at the address and, at 16 bits, the high byte at the next one,
modulo 2^24 and across banks (D8, assumption log 22), where these are RAM; the cells of ROM, unmapped addresses (D12,
assumption log 14) and device registers (assumption log 15) stay as they are; no other byte changes; and where both are
RAM a load of the same width gives the value back. -/
def Obligations.StoredDataReadBack : Prop :=
  ∀ (w : Width) (ea : Addr) (v : Word) (s : State),
    Stores w ea v s (writeMem w ea v s) ∧
    (∀ p, ¬ span w ea p → (writeMem w ea v s).byteAt p = s.byteAt p) ∧
    (s.kindAt ea = .ram → (w = .w16 → s.kindAt (ea + 1) = .ram) →
      (readMem w ea (writeMem w ea v s)).1.toNat = valueOf w v)

/-- R61, R73 (assumption logs 14 and 15): a read of an unmapped address or of a device register gives a byte that the
environment draws; a device register's access is recorded, and so is a write to it.  On every chip, but in single-chip
mode for bank 0 alone. -/
def Obligations.AccessesOutsideRam : Prop :=
  ∀ (a : Addr) (v : Byte) (s : State), (s.chip.singleChip = true → addrBank a = 0#8) →
    (s.kindAt a = .unmapped →
      (readByte a s).1 = Config.freeByte s.bus.draws ∧ (readByte a s).2.bus.log = s.bus.log ∧
      writeByte a v s = s) ∧
    (s.kindAt a = .rom → readByte a s = (s.byteAt a, s) ∧ writeByte a v s = s) ∧
    (s.kindAt a = .device →
      (readByte a s).1 = Config.freeByte s.bus.draws ∧
      (readByte a s).2.bus.log = .read a (Config.freeByte s.bus.draws) :: s.bus.log ∧
      (writeByte a v s).bus.log = .write a v :: s.bus.log ∧ (writeByte a v s).mem = s.mem)

/-- R83, R85, R86, R92, R94 to R97, R105: the effective addresses of the modes without a pointer; the index is X or Y,
or its low byte when x = 1 (R76). -/
def Obligations.EffectiveAddresses : Prop :=
  ∀ (s : State) (d : Byte) (a : Word) (l : Addr),
    ((effAddr (.dir d) s).1.toNat = (s.dpr.toNat + d.toNat) % 2 ^ 24) ∧
    ((effAddr (.dirX d) s).1.toNat = (s.dpr.toNat + d.toNat + valueOf s.xWidth s.x) % 2 ^ 24) ∧
    ((effAddr (.dirY d) s).1.toNat = (s.dpr.toNat + d.toNat + valueOf s.xWidth s.y) % 2 ^ 24) ∧
    ((effAddr (.abs a) s).1.toNat = s.dt.toNat * 2 ^ 16 + a.toNat) ∧
    ((effAddr (.absX a) s).1.toNat = (s.dt.toNat * 2 ^ 16 + a.toNat + valueOf s.xWidth s.x) % 2 ^ 24) ∧
    ((effAddr (.absY a) s).1.toNat = (s.dt.toNat * 2 ^ 16 + a.toNat + valueOf s.xWidth s.y) % 2 ^ 24) ∧
    ((effAddr (.abl l) s).1 = l) ∧
    ((effAddr (.ablX l) s).1.toNat = (l.toNat + valueOf s.xWidth s.x) % 2 ^ 24) ∧
    ((effAddr (.sr d) s).1.toNat = (s.sp.toNat + d.toNat) % 2 ^ 24) ∧
    ((effAddr (.dir d) s).2 = s ∧ (effAddr (.dirX d) s).2 = s ∧ (effAddr (.dirY d) s).2 = s ∧
      (effAddr (.abs a) s).2 = s ∧ (effAddr (.absX a) s).2 = s ∧ (effAddr (.absY a) s).2 = s ∧
      (effAddr (.abl l) s).2 = s ∧ (effAddr (.ablX l) s).2 = s ∧ (effAddr (.sr d) s).2 = s)

/-- R87 to R91, R106: the effective addresses of the modes with a pointer, where the pointer's bytes are RAM or ROM: a
16-bit pointer in bank DT, or a 24-bit one, at the direct page location or at S plus the offset; Y is added after the
bank.  With x = 1 the index is the low byte of X or Y, zero-extended: decision D10 (R76, assumption log 24). -/
def Obligations.PointerAddresses : Prop :=
  ∀ (s : State) (d : Byte),
    (givesFrom 2 s (effAddr (.dir d) s).1 →
      (effAddr (.dInd d) s).1.toNat = s.dt.toNat * 2 ^ 16 + (wordAt s (effAddr (.dir d) s).1).toNat ∧
      (effAddr (.dIndY d) s).1.toNat =
        (s.dt.toNat * 2 ^ 16 + (wordAt s (effAddr (.dir d) s).1).toNat + valueOf s.xWidth s.y) % 2 ^ 24 ∧
      (effAddr (.dInd d) s).2 = s ∧ (effAddr (.dIndY d) s).2 = s) ∧
    (givesFrom 2 s (effAddr (.dirX d) s).1 →
      (effAddr (.dXInd d) s).1.toNat = s.dt.toNat * 2 ^ 16 + (wordAt s (effAddr (.dirX d) s).1).toNat ∧
      (effAddr (.dXInd d) s).2 = s) ∧
    (givesFrom 3 s (effAddr (.dir d) s).1 →
      (effAddr (.dIndL d) s).1 = longAt s (effAddr (.dir d) s).1 ∧
      (effAddr (.dIndLY d) s).1.toNat =
        ((longAt s (effAddr (.dir d) s).1).toNat + valueOf s.xWidth s.y) % 2 ^ 24 ∧
      (effAddr (.dIndL d) s).2 = s ∧ (effAddr (.dIndLY d) s).2 = s) ∧
    (givesFrom 2 s (effAddr (.sr d) s).1 →
      (effAddr (.srIndY d) s).1.toNat =
        (s.dt.toNat * 2 ^ 16 + (wordAt s (effAddr (.sr d) s).1).toNat + valueOf s.xWidth s.y) % 2 ^ 24 ∧
      (effAddr (.srIndY d) s).2 = s)

/-- R18, R64, R81: an operand is the W bits of the immediate, or, where the bytes of the datum are RAM or ROM, the W-bit
datum at the effective address, little-endian; where its bytes are so, reading it changes nothing but what reading the
pointer of its mode changes. -/
def Obligations.OperandValues : Prop :=
  ∀ (w : Width) (s : State),
    (∀ v : Imm, (operand w (.imm v) s).1.toNat = valueOf w (immValue v) ∧ (operand w (.imm v) s).2 = s) ∧
    (∀ mode : Mode, givesFrom (bytesIn w) s (effAddr mode s).1 →
      (operand w (.mem mode) s).1.toNat = dataAt w s (effAddr mode s).1 ∧
      (operand w (.mem mode) s).2 = (effAddr mode s).2)

/-! ## Load, store, transfer -/

/-- R162. -/
def Obligations.LdaLoadsItsOperand : Prop :=
  ∀ (r : Acc) (o : Operand) (s : State), ∃ t, exec (.lda r o) s = .next t ∧
    LoadsAcc r (operand s.mWidth o s).1.toNat s t

/-- R165, R166. -/
def Obligations.LdxLdyLoadTheirOperand : Prop :=
  ∀ (o : Operand) (s : State),
    (∃ t, exec (.ldx o) s = .next t ∧ LoadsX (operand s.xWidth o s).1.toNat s t) ∧
    (∃ t, exec (.ldy o) s = .next t ∧ LoadsY (operand s.xWidth o s).1.toNat s t)

/-- R163, R167, R168, R169: the datum goes to the effective address; no register and no flag changes.  Memory takes it where it is RAM; that the
cells of ROM and of unmapped addresses stay is decision D12 (assumption log 14), of device registers assumption log 15, and
the next address across banks is decision D8 (assumption log 22). -/
def Obligations.StoresWriteTheirDatum : Prop :=
  ∀ (mode : Mode) (s : State),
    (∀ r, ∃ t, exec (.sta r mode) s = .next t ∧ StoreResult s.mWidth mode (s.acc r) s t) ∧
    (∃ t, exec (.stx mode) s = .next t ∧ StoreResult s.xWidth mode s.x s t) ∧
    (∃ t, exec (.sty mode) s = .next t ∧ StoreResult s.xWidth mode s.y s t) ∧
    (∀ v, ∃ t, exec (.ldm v mode) s = .next t ∧ StoreResult s.mWidth mode (immValue v) s t)

/-- R180, R182, R184, R194, R196, R198, R199: by x alone; no memory access. -/
def Obligations.TransfersToIndex : Prop :=
  ∀ s : State,
    (∃ t, exec .tax s = .next t ∧ LoadsX (valueOf s.xWidth s.a) s t ∧ t.bus = s.bus) ∧
    (∃ t, exec .tbx s = .next t ∧ LoadsX (valueOf s.xWidth s.b) s t ∧ t.bus = s.bus) ∧
    (∃ t, exec .tsx s = .next t ∧ LoadsX (valueOf s.xWidth s.sp) s t ∧ t.bus = s.bus) ∧
    (∃ t, exec .tyx s = .next t ∧ LoadsX (valueOf s.xWidth s.y) s t ∧ t.bus = s.bus) ∧
    (∃ t, exec .tay s = .next t ∧ LoadsY (valueOf s.xWidth s.a) s t ∧ t.bus = s.bus) ∧
    (∃ t, exec .tby s = .next t ∧ LoadsY (valueOf s.xWidth s.b) s t ∧ t.bus = s.bus) ∧
    (∃ t, exec .txy s = .next t ∧ LoadsY (valueOf s.xWidth s.x) s t ∧ t.bus = s.bus)

/-- R181, R183, R188, R189, R191, R193, R195, R197: by m; from an index register with x = 1 the value is its low byte,
zero-extended when m = 0. -/
def Obligations.TransfersToAccumulator : Prop :=
  ∀ s : State,
    (∃ t, exec .txa s = .next t ∧ LoadsAcc .a (valueOf s.xWidth s.x % 2 ^ bitsOf s.mWidth) s t ∧ t.bus = s.bus) ∧
    (∃ t, exec .txb s = .next t ∧ LoadsAcc .b (valueOf s.xWidth s.x % 2 ^ bitsOf s.mWidth) s t ∧ t.bus = s.bus) ∧
    (∃ t, exec .tya s = .next t ∧ LoadsAcc .a (valueOf s.xWidth s.y % 2 ^ bitsOf s.mWidth) s t ∧ t.bus = s.bus) ∧
    (∃ t, exec .tyb s = .next t ∧ LoadsAcc .b (valueOf s.xWidth s.y % 2 ^ bitsOf s.mWidth) s t ∧ t.bus = s.bus) ∧
    (∃ t, exec .tda s = .next t ∧ LoadsAcc .a (valueOf s.mWidth s.dpr) s t ∧ t.bus = s.bus) ∧
    (∃ t, exec .tdb s = .next t ∧ LoadsAcc .b (valueOf s.mWidth s.dpr) s t ∧ t.bus = s.bus) ∧
    (∃ t, exec .tsa s = .next t ∧ LoadsAcc .a (valueOf s.mWidth s.sp) s t ∧ t.bus = s.bus) ∧
    (∃ t, exec .tsb s = .next t ∧ LoadsAcc .b (valueOf s.mWidth s.sp) s t ∧ t.bus = s.bus)

/-- R164, R185, R186, R187, R190, R192: DT, S or DPR is written, all 16 bits of it whatever m is, and no flag; TXS at
x = 1 clears the high byte of S. -/
def Obligations.TransfersToSpecialRegisters : Prop :=
  ∀ s : State,
    (∀ v, ∃ t, exec (.ldt v) s = .next t ∧ t.dt = v ∧ Frame [.dt] [] nowhere s t ∧ t.bus = s.bus) ∧
    (∃ t, exec .txs s = .next t ∧ t.sp.toNat = valueOf s.xWidth s.x ∧ Frame [.sp] [] nowhere s t ∧ t.bus = s.bus) ∧
    (∃ t, exec .tas s = .next t ∧ t.sp = s.a ∧ Frame [.sp] [] nowhere s t ∧ t.bus = s.bus) ∧
    (∃ t, exec .tbs s = .next t ∧ t.sp = s.b ∧ Frame [.sp] [] nowhere s t ∧ t.bus = s.bus) ∧
    (∃ t, exec .tad s = .next t ∧ t.dpr = s.a ∧ Frame [.dpr] [] nowhere s t ∧ t.bus = s.bus) ∧
    (∃ t, exec .tbd s = .next t ∧ t.dpr = s.b ∧ Frame [.dpr] [] nowhere s t ∧ t.bus = s.bus)

/-- R234: A and B change places, or AL and BL when m = 1; N and Z show the new A. -/
def Obligations.XabExchanges : Prop :=
  ∀ s : State, ∃ t, exec .xab s = .next t ∧
    WrittenAs s.mWidth s.a t.a (valueOf s.mWidth s.b) ∧ WrittenAs s.mWidth s.b t.b (valueOf s.mWidth s.a) ∧
    ShowsNZ s.mWidth (valueOf s.mWidth s.b) t ∧ Frame [.a, .b] [.n, .z] nowhere s t ∧ t.bus = s.bus

/-! ## Stack -/

/-- R214, R216, R218, R220, R222, R224, R226, R228 to R231: the bytes pushed, the high one first; S lower by their
number; no flag and no other register changes.  PHP pushes PSH with zeros in bits 7..3, which is PRESUMED (D6,
assumption log 8); PER adds the PC of the next instruction, which is decision D20 (assumption log 27). -/
def Obligations.PushInstructions : Prop :=
  ∀ s : State,
    (∃ t, exec .pha s = .next t ∧ PushResult (pushBytes s.mWidth s.a) s t) ∧
    (∃ t, exec .phb s = .next t ∧ PushResult (pushBytes s.mWidth s.b) s t) ∧
    (∃ t, exec .phx s = .next t ∧ PushResult (pushBytes s.xWidth s.x) s t) ∧
    (∃ t, exec .phy s = .next t ∧ PushResult (pushBytes s.xWidth s.y) s t) ∧
    (∃ t, exec .phd s = .next t ∧ PushResult [hiByte s.dpr, loByte s.dpr] s t) ∧
    (∃ t, exec .pht s = .next t ∧ PushResult [s.dt] s t) ∧
    (∃ t, exec .phg s = .next t ∧ PushResult [s.pg] s t) ∧
    (∃ t, exec .php s = .next t ∧ PushResult [s.psh, s.psl] s t) ∧
    (∀ v, ∃ t, exec (.pea v) s = .next t ∧ PushResult [hiByte v, loByte v] s t) ∧
    (∀ v, ∃ t, exec (.per v) s = .next t ∧ PushResult [hiByte (s.pc + v), loByte (s.pc + v)] s t) ∧
    (∀ d, ∃ t v, exec (.pei d) s = .next t ∧ PushResult [hiByte v, loByte v] s t ∧
      (givesFrom 2 s (effAddr (.dir d) s).1 → v = wordAt s (effAddr (.dir d) s).1))

/-- R215, R219, R225, R227: the pulled datum at the register's width, the stack bytes above S where these are RAM or ROM;
N and Z show it. -/
def Obligations.PullsToRegisters : Prop :=
  ∀ s : State,
    (∃ t n, exec .pla s = .next t ∧ t.sp = s.sp + BitVec.ofNat 16 (bytesIn s.mWidth) ∧
      WrittenAs s.mWidth s.a t.a n ∧ ShowsNZ s.mWidth n t ∧ Frame [.a, .sp] [.n, .z] nowhere s t ∧
      (givesStack (bytesIn s.mWidth) s → n = stackData s.mWidth s 0)) ∧
    (∃ t n, exec .plb s = .next t ∧ t.sp = s.sp + BitVec.ofNat 16 (bytesIn s.mWidth) ∧
      WrittenAs s.mWidth s.b t.b n ∧ ShowsNZ s.mWidth n t ∧ Frame [.b, .sp] [.n, .z] nowhere s t ∧
      (givesStack (bytesIn s.mWidth) s → n = stackData s.mWidth s 0)) ∧
    (∃ t n, exec .plx s = .next t ∧ t.sp = s.sp + BitVec.ofNat 16 (bytesIn s.xWidth) ∧
      WrittenAs s.xWidth s.x t.x n ∧ ShowsNZ s.xWidth n t ∧ Frame [.x, .sp] [.n, .z] nowhere s t ∧
      (givesStack (bytesIn s.xWidth) s → n = stackData s.xWidth s 0)) ∧
    (∃ t n, exec .ply s = .next t ∧ t.sp = s.sp + BitVec.ofNat 16 (bytesIn s.xWidth) ∧
      WrittenAs s.xWidth s.y t.y n ∧ ShowsNZ s.xWidth n t ∧ Frame [.y, .sp] [.n, .z] nowhere s t ∧
      (givesStack (bytesIn s.xWidth) s → n = stackData s.xWidth s 0))

/-- R217, R221, R223: PLD loads DPR and no flag; PLT loads DT with N and Z from the byte; PLP loads PSL and then IPL
from the low three bits of PSH (D6, assumption log 8); the pulled bytes are those above S where these are RAM or ROM. -/
def Obligations.PullsToSpecialRegisters : Prop :=
  ∀ s : State,
    (∃ t, exec .pld s = .next t ∧ t.sp = s.sp + 2 ∧ Frame [.dpr, .sp] [] nowhere s t ∧
      (givesStack 2 s → t.dpr.toNat = stackData .w16 s 0)) ∧
    (∃ t, exec .plt s = .next t ∧ t.sp = s.sp + 1 ∧ Frame [.dt, .sp] [.n, .z] nowhere s t ∧
      ShowsNZ .w8 t.dt.toNat t ∧ (givesStack 1 s → t.dt = stackByte s 0)) ∧
    (∃ t, exec .plp s = .next t ∧ t.sp = s.sp + 2 ∧ KeepsAllBut [.sp] nowhere s t ∧
      (givesStack 2 s → (∀ f, t.flag f = (stackByte s 0).getLsbD (flagBit f)) ∧
        t.ipl = (stackByte s 1).extractLsb' 0 3))

/-- R212: PSH pushes the registers whose bit of the mask is 1, A first and PS last, at the widths of m and x.
PSH itself is pushed with zeros in bits 7..3, which is PRESUMED (D6, assumption log 8). -/
def Obligations.PshPushesMaskedRegisters : Prop :=
  ∀ (mask : Byte) (s : State), ∃ t, exec (.psh mask) s = .next t ∧ PushResult (pshBytes mask s) s t

/-- R213: PUL completes, changes no register but S and those of the mask, and no flag unless bit 7 restores PS; S is
higher by the number of bytes, at the widths that PS then has.  Where the stack bytes above S are RAM or ROM the registers
are restored from them, one after the other, PS first and A last; bit 6 stands for nothing (D21, assumption log 27), and
of PSH bits 7..3 are ignored (D6, assumption log 8). -/
def Obligations.PulRestoresMaskedRegisters : Prop :=
  ∀ (mask : Byte) (s : State), ∃ t, exec (.pul mask) s = .next t ∧
    KeepsAllBut [.a, .b, .x, .y, .dpr, .dt, .sp] nowhere s t ∧
    (mask.getLsbD 7 = false → t.ps = s.ps) ∧
    (mask.getLsbD 5 = false → t.dt = s.dt) ∧ (mask.getLsbD 4 = false → t.dpr = s.dpr) ∧
    (mask.getLsbD 3 = false → t.y = s.y) ∧ (mask.getLsbD 2 = false → t.x = s.x) ∧
    (mask.getLsbD 1 = false → t.b = s.b) ∧ (mask.getLsbD 0 = false → t.a = s.a) ∧
    t.sp = s.sp + BitVec.ofNat 16 (pulBytes mask t) ∧
    (givesStack (pulBytes mask t) s →
      (mask.getLsbD 7 = true → (∀ f, t.flag f = (stackByte s 0).getLsbD (flagBit f)) ∧
        t.ipl = (stackByte s 1).extractLsb' 0 3) ∧
      (mask.getLsbD 5 = true → t.dt = stackByte s (ifBit mask 7 2)) ∧
      (mask.getLsbD 4 = true → t.dpr.toNat = stackData .w16 s (ifBit mask 7 2 + ifBit mask 5 1)) ∧
      (mask.getLsbD 3 = true → WrittenAs t.xWidth s.y t.y
        (stackData t.xWidth s (ifBit mask 7 2 + ifBit mask 5 1 + ifBit mask 4 2))) ∧
      (mask.getLsbD 2 = true → WrittenAs t.xWidth s.x t.x
        (stackData t.xWidth s (ifBit mask 7 2 + ifBit mask 5 1 + ifBit mask 4 2 +
          ifBit mask 3 (bytesIn t.xWidth)))) ∧
      (mask.getLsbD 1 = true → WrittenAs t.mWidth s.b t.b
        (stackData t.mWidth s (ifBit mask 7 2 + ifBit mask 5 1 + ifBit mask 4 2 +
          ifBit mask 3 (bytesIn t.xWidth) + ifBit mask 2 (bytesIn t.xWidth)))) ∧
      (mask.getLsbD 0 = true → WrittenAs t.mWidth s.a t.a
        (stackData t.mWidth s (ifBit mask 7 2 + ifBit mask 5 1 + ifBit mask 4 2 +
          ifBit mask 3 (bytesIn t.xWidth) + ifBit mask 2 (bytesIn t.xWidth) +
          ifBit mask 1 (bytesIn t.mWidth)))))

/-- R212, R213: on any chip, registers saved by PSH with a mask without bit 6 are restored by PUL with the same mask,
whatever has happened to the registers in between, if S, the stack bytes in RAM and the chip are as PSH left them, and m
and x too where the mask does not save PS. -/
def Obligations.PulUndoesPsh : Prop :=
  ∀ (mask : Byte) (s u v t : State),
    mask.getLsbD 6 = false →
    (∀ k : Nat, k < 14 → s.kindAt (mkAddr 0#8 (s.sp - BitVec.ofNat 16 k)) = .ram) →
    exec (.psh mask) s = .next u →
    v.sp = u.sp → v.chip = u.chip → (∀ p, stackSpan 14 s.sp p → v.byteAt p = u.byteAt p) →
    (mask.getLsbD 7 = false → v.mWidth = s.mWidth ∧ v.xWidth = s.xWidth) →
    exec (.pul mask) v = .next t →
      t.sp = s.sp ∧
      (mask.getLsbD 7 = true → t.ps = s.ps) ∧
      (mask.getLsbD 5 = true → t.dt = s.dt) ∧ (mask.getLsbD 4 = true → t.dpr = s.dpr) ∧
      (mask.getLsbD 3 = true → valueOf s.xWidth t.y = valueOf s.xWidth s.y) ∧
      (mask.getLsbD 2 = true → valueOf s.xWidth t.x = valueOf s.xWidth s.x) ∧
      (mask.getLsbD 1 = true → valueOf s.mWidth t.b = valueOf s.mWidth s.b) ∧
      (mask.getLsbD 0 = true → valueOf s.mWidth t.a = valueOf s.mWidth s.a)

/-! ## Block transfer -/

/-- R232: MVN completes; DT is the destination bank, A (or AL) is all ones, X and Y (or XL and YL) are higher by the
count; no flag changes and no byte outside the destination bank (and the byte after it) does.  Where the block stays
inside the reach of the index registers in both banks, its source is RAM or ROM, its destination is RAM and does not run
into source bytes still to be read, it gets the source's bytes, and nothing else of memory changes.  The value left in A
is decision D16, the fixed banks D18 (assumption log 26). -/
def Obligations.MvnMovesUpward : Prop :=
  ∀ (dst src : Byte) (s : State) (n xo yo : Nat), n = valueOf s.mWidth s.a → xo = valueOf s.xWidth s.x →
    yo = valueOf s.xWidth s.y → ∃ t, exec (.mvn dst src) s = .next t ∧
      t.dt = dst ∧ valueOf s.mWidth t.a = 2 ^ bitsOf s.mWidth - 1 ∧
      WrittenAs s.xWidth s.x t.x ((xo + n) % 2 ^ bitsOf s.xWidth) ∧
      WrittenAs s.xWidth s.y t.y ((yo + n) % 2 ^ bitsOf s.xWidth) ∧
      KeepsAllBut [.a, .x, .y, .dt]
        (fun p => ∃ k : Nat, k ≤ 65536 ∧ p = mkAddr dst 0#16 + BitVec.ofNat 24 k) s t ∧ t.ps = s.ps ∧
      ((∀ k : Nat, k < n → gives s (mkAddr src (BitVec.ofNat 16 (xo + k)))) →
        xo + n ≤ 2 ^ bitsOf s.xWidth → yo + n ≤ 2 ^ bitsOf s.xWidth →
        (dst ≠ src ∨ yo ≤ xo ∨ xo + n ≤ yo) →
        (∀ k : Nat, k < n → s.kindAt (mkAddr dst (BitVec.ofNat 16 (yo + k))) = .ram) →
        (∀ k : Nat, k < n → t.byteAt (mkAddr dst (BitVec.ofNat 16 (yo + k))) =
          s.byteAt (mkAddr src (BitVec.ofNat 16 (xo + k)))) ∧
        (∀ p, (∀ k : Nat, k < n → p ≠ mkAddr dst (BitVec.ofNat 16 (yo + k))) → t.byteAt p = s.byteAt p))

/-- R233: MVP, as MVN with the addresses falling from X and Y (D16, D18, assumption log 26). -/
def Obligations.MvpMovesDownward : Prop :=
  ∀ (dst src : Byte) (s : State) (n xo yo : Nat), n = valueOf s.mWidth s.a → xo = valueOf s.xWidth s.x →
    yo = valueOf s.xWidth s.y → ∃ t, exec (.mvp dst src) s = .next t ∧
      t.dt = dst ∧ valueOf s.mWidth t.a = 2 ^ bitsOf s.mWidth - 1 ∧
      WrittenAs s.xWidth s.x t.x ((xo + (2 ^ 16 - n)) % 2 ^ bitsOf s.xWidth) ∧
      WrittenAs s.xWidth s.y t.y ((yo + (2 ^ 16 - n)) % 2 ^ bitsOf s.xWidth) ∧
      KeepsAllBut [.a, .x, .y, .dt]
        (fun p => ∃ k : Nat, k ≤ 65536 ∧ p = mkAddr dst 0#16 + BitVec.ofNat 24 k) s t ∧ t.ps = s.ps ∧
      ((∀ k : Nat, k < n → gives s (mkAddr src (BitVec.ofNat 16 (xo - k)))) → n ≤ xo + 1 → n ≤ yo + 1 →
        (dst ≠ src ∨ xo ≤ yo ∨ yo + n ≤ xo) →
        (∀ k : Nat, k < n → s.kindAt (mkAddr dst (BitVec.ofNat 16 (yo - k))) = .ram) →
        (∀ k : Nat, k < n → t.byteAt (mkAddr dst (BitVec.ofNat 16 (yo - k))) =
          s.byteAt (mkAddr src (BitVec.ofNat 16 (xo - k)))) ∧
        (∀ p, (∀ k : Nat, k < n → p ≠ mkAddr dst (BitVec.ofNat 16 (yo - k))) → t.byteAt p = s.byteAt p))

/-! ## Arithmetic -/

/-- R241, D = 0: the sum with the carry; C when it exceeds W bits, V when the signed sum leaves the signed range. -/
def Obligations.AdcAddsInBinary : Prop :=
  ∀ (r : Acc) (o : Operand) (s : State), s.flag .d = false → ∃ t, exec (.adc r o) s = .next t ∧
    ∀ (w : Width) (a b c : Nat), w = s.mWidth → a = valueOf w (s.acc r) → b = (operand w o s).1.toNat →
      c = (s.flag .c).toNat →
      WrittenAs w (s.acc r) (t.acc r) ((a + b + c) % 2 ^ bitsOf w) ∧
      ShowsNZ w ((a + b + c) % 2 ^ bitsOf w) t ∧
      t.flag .c = decide (2 ^ bitsOf w ≤ a + b + c) ∧
      t.flag .v = decide (signedOf w a + signedOf w b + c < -(2 ^ (bitsOf w - 1)) ∨
        2 ^ (bitsOf w - 1) ≤ signedOf w a + signedOf w b + c) ∧
      Frame [accReg r] [.n, .v, .z, .c] nowhere s t

/-- R244, D = 0: the difference with the complement of the carry; C when it is 0 or more, V when the signed difference
leaves the signed range. -/
def Obligations.SbcSubtractsInBinary : Prop :=
  ∀ (r : Acc) (o : Operand) (s : State), s.flag .d = false → ∃ t, exec (.sbc r o) s = .next t ∧
    ∀ (w : Width) (a b : Nat) (c : Int), w = s.mWidth → a = valueOf w (s.acc r) → b = (operand w o s).1.toNat →
      c = (if s.flag .c then 0 else 1) →
      WrittenAs w (s.acc r) (t.acc r) (((a : Int) - b - c) % 2 ^ bitsOf w).toNat ∧
      ShowsNZ w (((a : Int) - b - c) % 2 ^ bitsOf w).toNat t ∧
      t.flag .c = decide (0 ≤ (a : Int) - b - c) ∧
      t.flag .v = decide (signedOf w a - signedOf w b - c < -(2 ^ (bitsOf w - 1)) ∨
        2 ^ (bitsOf w - 1) ≤ signedOf w a - signedOf w b - c) ∧
      Frame [accReg r] [.n, .v, .z, .c] nowhere s t

/-- R242, R245, D = 1 and every digit at most 9: the decimal sum or difference of two or four digits; C exact, Z exact
after SBC; the other result flags are free (assumption log 18). -/
def Obligations.DecimalArithmetic : Prop :=
  ∀ (r : Acc) (o : Operand) (s : State) (w : Width) (a b : Nat), s.flag .d = true → w = s.mWidth →
    isBcd w (s.acc r) = true → isBcd w (operand w o s).1 = true →
    a = bcdVal w (s.acc r) → b = bcdVal w (operand w o s).1 →
      (∃ t, exec (.adc r o) s = .next t ∧
        isBcd w (t.acc r) = true ∧ bcdVal w (t.acc r) = (a + b + (s.flag .c).toNat) % 10 ^ digitsOf w ∧
        t.flag .c = decide (10 ^ digitsOf w ≤ a + b + (s.flag .c).toNat) ∧
        (w = .w8 → hiByte (t.acc r) = hiByte (s.acc r)) ∧ Frame [accReg r] [.n, .v, .z, .c] nowhere s t) ∧
      (∃ t, exec (.sbc r o) s = .next t ∧
        isBcd w (t.acc r) = true ∧
        (bcdVal w (t.acc r) : Int) = ((a : Int) - b - (if s.flag .c then 0 else 1)) % 10 ^ digitsOf w ∧
        t.flag .c = decide (0 ≤ (a : Int) - b - (if s.flag .c then 0 else 1)) ∧
        t.flag .z = decide (valueOf w (t.acc r) = 0) ∧
        (w = .w8 → hiByte (t.acc r) = hiByte (s.acc r)) ∧ Frame [accReg r] [.n, .v, .z, .c] nowhere s t)

/-- R243 (c), assumption log 18, D = 1 with a digit above 9: ADC and SBC complete; the W bits of the accumulator and N,
V, Z, C are free, and nothing else changes. -/
def Obligations.DigitsAboveNine : Prop :=
  ∀ (r : Acc) (o : Operand) (s : State), s.flag .d = true →
    (isBcd s.mWidth (s.acc r) = false ∨ isBcd s.mWidth (operand s.mWidth o s).1 = false) →
      (∃ t, exec (.adc r o) s = .next t ∧ (s.mWidth = .w8 → hiByte (t.acc r) = hiByte (s.acc r)) ∧
        Frame [accReg r] [.n, .v, .z, .c] nowhere s t) ∧
      (∃ t, exec (.sbc r o) s = .next t ∧ (s.mWidth = .w8 → hiByte (t.acc r) = hiByte (s.acc r)) ∧
        Frame [accReg r] [.n, .v, .z, .c] nowhere s t)

/-- R246 to R251: one more or one less in W bits, by m in an accumulator or memory, by x in an index register; N and Z
show the result, C and V stay.  Memory takes it where it is RAM; that the
cells of ROM and of unmapped addresses stay is decision D12 (assumption log 14), of device registers assumption log 15, and
the next address across banks is decision D8 (assumption log 22). -/
def Obligations.IncrementAndDecrement : Prop :=
  ∀ s : State,
    (∀ (tg : Target) (n : Nat), n = (targetValue s.mWidth tg s + 1) % 2 ^ bitsOf s.mWidth →
      ∃ t, exec (.inc tg) s = .next t ∧ Rewrites s.mWidth tg n [.n, .z] s t ∧ ShowsNZ s.mWidth n t) ∧
    (∀ (tg : Target) (n : Nat),
      n = (targetValue s.mWidth tg s + (2 ^ bitsOf s.mWidth - 1)) % 2 ^ bitsOf s.mWidth →
      ∃ t, exec (.dec tg) s = .next t ∧ Rewrites s.mWidth tg n [.n, .z] s t ∧ ShowsNZ s.mWidth n t) ∧
    (∃ t, exec .inx s = .next t ∧ LoadsX ((valueOf s.xWidth s.x + 1) % 2 ^ bitsOf s.xWidth) s t) ∧
    (∃ t, exec .dex s = .next t ∧
      LoadsX ((valueOf s.xWidth s.x + (2 ^ bitsOf s.xWidth - 1)) % 2 ^ bitsOf s.xWidth) s t) ∧
    (∃ t, exec .iny s = .next t ∧ LoadsY ((valueOf s.xWidth s.y + 1) % 2 ^ bitsOf s.xWidth) s t) ∧
    (∃ t, exec .dey s = .next t ∧
      LoadsY ((valueOf s.xWidth s.y + (2 ^ bitsOf s.xWidth - 1)) % 2 ^ bitsOf s.xWidth) s t)

/-- R252: the unsigned product, upper half to B and lower half to A; N and Z of the whole product, C = 0. -/
def Obligations.MpyMultiplies : Prop :=
  ∀ (o : Operand) (s : State), ∃ t, exec (.mpy o) s = .next t ∧
    ∀ (w : Width) (p : Nat), w = s.mWidth → p = valueOf w s.a * (operand w o s).1.toNat →
      WrittenAs w s.b t.b (p / 2 ^ bitsOf w) ∧ WrittenAs w s.a t.a (p % 2 ^ bitsOf w) ∧
      t.flag .n = decide (2 ^ (2 * bitsOf w - 1) ≤ p) ∧ t.flag .z = decide (p = 0) ∧ t.flag .c = false ∧
      Frame [.a, .b] [.n, .z, .c] nowhere s t

/-- R253, on a 7750: the signed product in two's complement, upper half to B and lower half to A; N its sign, Z, and C
as it was. -/
def Obligations.MpysMultipliesSigned : Prop :=
  ∀ (o : Operand) (s : State), s.chip.series = .s7750 → ∃ t, exec (.mpys o) s = .next t ∧
    ∀ (w : Width) (p : Int), w = s.mWidth →
      p = signedOf w (valueOf w s.a) * signedOf w (operand w o s).1.toNat →
      WrittenAs w s.b t.b (p / 2 ^ bitsOf w % 2 ^ bitsOf w).toNat ∧
      WrittenAs w s.a t.a (p % 2 ^ bitsOf w).toNat ∧
      t.flag .n = decide (p < 0) ∧ t.flag .z = decide (p = 0) ∧
      Frame [.a, .b] [.n, .z] nowhere s t

/-- R254, divisor not 0: the 2W-bit dividend in B and A; a quotient of W bits goes to A and the remainder to B, with N
and Z of the quotient and V = C = 0; otherwise V = C = 1, N and Z stay, and the W bits of A and B are free (assumption
log 19). -/
def Obligations.DivDivides : Prop :=
  ∀ (o : Operand) (s : State) (w : Width) (n d : Nat), w = s.mWidth → d = (operand w o s).1.toNat → d ≠ 0 →
    n = valueOf w s.b * 2 ^ bitsOf w + valueOf w s.a →
      ∃ t, exec (.div o) s = .next t ∧
        (n / d < 2 ^ bitsOf w →
          WrittenAs w s.a t.a (n / d) ∧ WrittenAs w s.b t.b (n % d) ∧ ShowsNZ w (n / d) t ∧
          t.flag .v = false ∧ t.flag .c = false ∧ Frame [.a, .b] [.n, .v, .z, .c] nowhere s t) ∧
        (2 ^ bitsOf w ≤ n / d →
          t.flag .v = true ∧ t.flag .c = true ∧
          (w = .w8 → hiByte t.a = hiByte s.a ∧ hiByte t.b = hiByte s.b) ∧
          Frame [.a, .b] [.v, .c] nowhere s t)

/-- R255 with assumption log 12, on a 7750, divisor not 0: the signed quotient toward zero and a remainder with the
dividend's sign; overflow as for DIV when the quotient is no signed W-bit number. -/
def Obligations.DivsDividesSigned : Prop :=
  ∀ (o : Operand) (s : State) (w : Width) (n d : Int), s.chip.series = .s7750 → w = s.mWidth →
    d = signedOf w (operand w o s).1.toNat → d ≠ 0 →
    n = signedOf w (valueOf w s.b) * 2 ^ bitsOf w + valueOf w s.a →
      ∃ t, exec (.divs o) s = .next t ∧
        (-(2 ^ (bitsOf w - 1)) ≤ n.tdiv d ∧ n.tdiv d < 2 ^ (bitsOf w - 1) →
          WrittenAs w s.a t.a (n.tdiv d % 2 ^ bitsOf w).toNat ∧
          WrittenAs w s.b t.b (n.tmod d % 2 ^ bitsOf w).toNat ∧
          t.flag .n = decide (n.tdiv d < 0) ∧ t.flag .z = decide (n.tdiv d = 0) ∧
          t.flag .v = false ∧ t.flag .c = false ∧ Frame [.a, .b] [.n, .v, .z, .c] nowhere s t) ∧
        (n.tdiv d < -(2 ^ (bitsOf w - 1)) ∨ 2 ^ (bitsOf w - 1) ≤ n.tdiv d →
          t.flag .v = true ∧ t.flag .c = true ∧
          (w = .w8 → hiByte t.a = hiByte s.a ∧ hiByte t.b = hiByte s.b) ∧
          Frame [.a, .b] [.v, .c] nowhere s t)

/-- R420: with a divisor of 0 DIV, and on a 7750 DIVS, takes the zero division interrupt after reading the operand: the
frame with the address of the next instruction (D26, assumption log 28), I = 1, IPL, A, B and the flags N, V, Z, C as they
were, PC from the zero division vector.  The zeros in bits 7..3 of the pushed PSH byte are PRESUMED (D6, assumption log
8). -/
def Obligations.ZeroDivisionTraps : Prop :=
  ∀ (o : Operand) (s : State), (operand s.mWidth o s).1 = 0#16 →
    (∃ t, exec (.div o) s = .next t ∧ EntryResult s.chip.vecZeroDiv none s t) ∧
    (s.chip.series = .s7750 → ∃ t, exec (.divs o) s = .next t ∧ EntryResult s.chip.vecZeroDiv none s t)

/-- R256, R257, R258. -/
def Obligations.LogicInstructions : Prop :=
  ∀ (r : Acc) (o : Operand) (s : State),
    (∃ t, exec (.and r o) s = .next t ∧
      LoadsAcc r (valueOf s.mWidth (s.acc r) &&& (operand s.mWidth o s).1.toNat) s t) ∧
    (∃ t, exec (.ora r o) s = .next t ∧
      LoadsAcc r (valueOf s.mWidth (s.acc r) ||| (operand s.mWidth o s).1.toNat) s t) ∧
    (∃ t, exec (.eor r o) s = .next t ∧
      LoadsAcc r (valueOf s.mWidth (s.acc r) ^^^ (operand s.mWidth o s).1.toNat) s t)

/-- R259, R260, R261: N and Z of the W-bit difference, C when it is 0 or more; V stays and no register changes. -/
def Obligations.CompareInstructions : Prop :=
  ∀ (o : Operand) (s : State),
    (∀ r, ∃ t, exec (.cmp r o) s = .next t ∧
      (∀ (w : Width) (e : Int), w = s.mWidth → e = (valueOf w (s.acc r) : Int) - (operand w o s).1.toNat →
        ShowsNZ w (e % 2 ^ bitsOf w).toNat t ∧ t.flag .c = decide (0 ≤ e)) ∧
      Frame [] [.n, .z, .c] nowhere s t) ∧
    (∃ t, exec (.cpx o) s = .next t ∧
      (∀ (w : Width) (e : Int), w = s.xWidth → e = (valueOf w s.x : Int) - (operand w o s).1.toNat →
        ShowsNZ w (e % 2 ^ bitsOf w).toNat t ∧ t.flag .c = decide (0 ≤ e)) ∧
      Frame [] [.n, .z, .c] nowhere s t) ∧
    (∃ t, exec (.cpy o) s = .next t ∧
      (∀ (w : Width) (e : Int), w = s.xWidth → e = (valueOf w s.y : Int) - (operand w o s).1.toNat →
        ShowsNZ w (e % 2 ^ bitsOf w).toNat t ∧ t.flag .c = decide (0 ≤ e)) ∧
      Frame [] [.n, .z, .c] nowhere s t)

/-- R262 to R266: by one place in W bits, in an accumulator or memory; C is the bit that leaves, N and Z show the
result, V stays.  ASR on a 7750.  Memory takes it where it is RAM; that the
cells of ROM and of unmapped addresses stay is decision D12 (assumption log 14), of device registers assumption log 15, and
the next address across banks is decision D8 (assumption log 22). -/
def Obligations.ShiftInstructions : Prop :=
  ∀ (tg : Target) (s : State) (w : Width) (v h c : Nat), w = s.mWidth → v = targetValue w tg s →
    h = 2 ^ (bitsOf w - 1) → c = (s.flag .c).toNat →
      (∃ t, exec (.asl tg) s = .next t ∧ Rewrites w tg (2 * v % 2 ^ bitsOf w) [.n, .z, .c] s t ∧
        ShowsNZ w (2 * v % 2 ^ bitsOf w) t ∧ t.flag .c = decide (h ≤ v)) ∧
      (∃ t, exec (.rol tg) s = .next t ∧ Rewrites w tg (2 * v % 2 ^ bitsOf w + c) [.n, .z, .c] s t ∧
        ShowsNZ w (2 * v % 2 ^ bitsOf w + c) t ∧ t.flag .c = decide (h ≤ v)) ∧
      (∃ t, exec (.lsr tg) s = .next t ∧ Rewrites w tg (v / 2) [.n, .z, .c] s t ∧
        t.flag .n = false ∧ t.flag .z = decide (v / 2 = 0) ∧ t.flag .c = decide (v % 2 = 1)) ∧
      (∃ t, exec (.ror tg) s = .next t ∧ Rewrites w tg (v / 2 + c * h) [.n, .z, .c] s t ∧
        ShowsNZ w (v / 2 + c * h) t ∧ t.flag .c = decide (v % 2 = 1)) ∧
      (s.chip.series = .s7750 → ∃ t, exec (.asr tg) s = .next t ∧
        Rewrites w tg (v / 2 + (if h ≤ v then h else 0)) [.n, .z, .c] s t ∧
        ShowsNZ w (v / 2 + (if h ≤ v then h else 0)) t ∧ t.flag .c = decide (v % 2 = 1))

/-- R267: A (or AL) rotated left by the immediate modulo W, not through C; no flag changes. -/
def Obligations.RlaRotates : Prop :=
  ∀ (i : Imm) (s : State) (w : Width) (v k : Nat), w = s.mWidth → v = valueOf w s.a →
    k = valueOf w (immValue i) % bitsOf w →
      ∃ t, exec (.rla i) s = .next t ∧
        WrittenAs w s.a t.a (v * 2 ^ k % 2 ^ bitsOf w + v / 2 ^ (bitsOf w - k)) ∧
        Frame [.a] [] nowhere s t ∧ t.bus = s.bus

/-- R288, R289, on a 7750: the low byte of the accumulator extended to 16 bits whatever m is; N and Z of the 16 bits. -/
def Obligations.ExtendInstructions : Prop :=
  ∀ (r : Acc) (s : State) (n : Nat), s.chip.series = .s7750 → n = (loByte (s.acc r)).toNat →
    (∃ t, exec (.exts r) s = .next t ∧ (t.acc r).toNat = (if n < 128 then n else n + 0xFF00) ∧
      t.flag .n = decide (128 ≤ n) ∧ t.flag .z = decide (n = 0) ∧
      Frame [accReg r] [.n, .z] nowhere s t ∧ t.bus = s.bus) ∧
    (∃ t, exec (.extz r) s = .next t ∧ (t.acc r).toNat = n ∧
      t.flag .n = false ∧ t.flag .z = decide (n = 0) ∧
      Frame [accReg r] [.n, .z] nowhere s t ∧ t.bus = s.bus)

/-- R128: on a chip that is no 7750 the five instructions of the 7750 Series are undefined codes: their meanings stop
with the fault. -/
def Obligations.Instructions7750Fault : Prop :=
  ∀ (o : Operand) (tg : Target) (r : Acc) (s : State), s.chip.series ≠ .s7750 →
    exec (.mpys o) s = .fault .undefinedOpcode ∧ exec (.divs o) s = .fault .undefinedOpcode ∧
    exec (.asr tg) s = .fault .undefinedOpcode ∧ exec (.exts r) s = .fault .undefinedOpcode ∧
    exec (.extz r) s = .fault .undefinedOpcode

/-! ## Bits and flags -/

/-- R301, R302: the W-bit datum with the masked bits cleared, or set, is written back to its address; no flag.  Memory takes it where it is RAM; that the
cells of ROM and of unmapped addresses stay is decision D12 (assumption log 14), of device registers assumption log 15, and
the next address across banks is decision D8 (assumption log 22). -/
def Obligations.BitInstructions : Prop :=
  ∀ (mask : Imm) (mode : Mode) (s : State),
    (∃ t, exec (.clb mask mode) s = .next t ∧
      StoreResult s.mWidth mode ((loadMode s.mWidth mode s).1 &&& ~~~immValue mask) s t) ∧
    (∃ t, exec (.seb mask mode) s = .next t ∧
      StoreResult s.mWidth mode ((loadMode s.mWidth mode s).1 ||| immValue mask) s t)

/-- R303 to R311: CLP and SEP clear and set the flags of the mask's bits, IPL stays; the others write one flag. -/
def Obligations.FlagInstructions : Prop :=
  ∀ s : State,
    (∀ mask : Byte, ∃ t, exec (.clp mask) s = .next t ∧
      (∀ f, t.flag f = (s.flag f && !mask.getLsbD (flagBit f))) ∧ t.ipl = s.ipl ∧
      KeepsAllBut [] nowhere s t ∧ t.bus = s.bus) ∧
    (∀ mask : Byte, ∃ t, exec (.sep mask) s = .next t ∧
      (∀ f, t.flag f = (s.flag f || mask.getLsbD (flagBit f))) ∧ t.ipl = s.ipl ∧
      KeepsAllBut [] nowhere s t ∧ t.bus = s.bus) ∧
    (∃ t, exec .clc s = .next t ∧ t.flag .c = false ∧ Frame [] [.c] nowhere s t ∧ t.bus = s.bus) ∧
    (∃ t, exec .sec s = .next t ∧ t.flag .c = true ∧ Frame [] [.c] nowhere s t ∧ t.bus = s.bus) ∧
    (∃ t, exec .clm s = .next t ∧ t.flag .m = false ∧ Frame [] [.m] nowhere s t ∧ t.bus = s.bus) ∧
    (∃ t, exec .sem s = .next t ∧ t.flag .m = true ∧ Frame [] [.m] nowhere s t ∧ t.bus = s.bus) ∧
    (∃ t, exec .cli s = .next t ∧ t.flag .i = false ∧ Frame [] [.i] nowhere s t ∧ t.bus = s.bus) ∧
    (∃ t, exec .sei s = .next t ∧ t.flag .i = true ∧ Frame [] [.i] nowhere s t ∧ t.bus = s.bus) ∧
    (∃ t, exec .clv s = .next t ∧ t.flag .v = false ∧ Frame [] [.v] nowhere s t ∧ t.bus = s.bus)

/-! ## Jump, call, branch, return -/

/-- R331, R333, R98 to R100: the absolute form writes PC alone, the long form PG and PC; the indirect forms take PC, or
PG and PC, from the pointer where its bytes are RAM or ROM, in the bank of the parameter ABS_IND_BANK (D13,
assumption log 25); the pointer of `(mmll,X)` is in the program bank and wraps inside it (D14, assumption log 25), with
the low byte of X at x = 1 (D10, assumption log 24). -/
def Obligations.JmpJumps : Prop :=
  ∀ (a : Word) (l : Addr) (s : State),
    (∃ t, exec (.jmp (.abs a)) s = .next t ∧ t.pc = a ∧ Frame [.pc] [] nowhere s t) ∧
    (∃ t, exec (.jmp (.abl l)) s = .next t ∧ t.pcAddr = l ∧ Frame [.pc, .pg] [] nowhere s t) ∧
    (∃ t, exec (.jmp (.ind a)) s = .next t ∧ Frame [.pc] [] nowhere s t ∧
      (givesFrom 2 s (mkAddr s.chip.absIndBank a) → t.pc = wordAt s (mkAddr s.chip.absIndBank a))) ∧
    (∃ t, exec (.jmp (.indL a)) s = .next t ∧ Frame [.pc, .pg] [] nowhere s t ∧
      (givesFrom 3 s (mkAddr s.chip.absIndBank a) → t.pcAddr = longAt s (mkAddr s.chip.absIndBank a))) ∧
    (∃ t, exec (.jmp (.indX a)) s = .next t ∧ Frame [.pc] [] nowhere s t ∧
      (∀ p, p = mkAddr s.pg (BitVec.ofNat 16 (a.toNat + valueOf s.xWidth s.x)) → givesFrom 2 s p → t.pc = wordAt s p))

/-- R334: the address of the next instruction is pushed, with PG in front in the long form, and then the jump is made;
the pointer of `(mmll,X)` is read after the push, in the program bank, wrapping inside it (R100: decision D14, assumption
log 25), with the low byte of X at x = 1 (D10, assumption log 24). -/
def Obligations.JsrCalls : Prop :=
  ∀ (a : Word) (l : Addr) (s : State),
    (∃ t, exec (.jsr (.abs a)) s = .next t ∧ t.pc = a ∧ Pushed [hiByte s.pc, loByte s.pc] s t ∧
      Frame [.pc, .sp] [] (stackSpan 2 s.sp) s t) ∧
    (∃ t, exec (.jsr (.abl l)) s = .next t ∧ t.pcAddr = l ∧ Pushed [s.pg, hiByte s.pc, loByte s.pc] s t ∧
      Frame [.pc, .pg, .sp] [] (stackSpan 3 s.sp) s t) ∧
    (∃ t, exec (.jsr (.indX a)) s = .next t ∧ Pushed [hiByte s.pc, loByte s.pc] s t ∧
      Frame [.pc, .sp] [] (stackSpan 2 s.sp) s t ∧
      (∀ p, p = mkAddr s.pg (BitVec.ofNat 16 (a.toNat + valueOf s.xWidth s.x)) → givesFrom 2 s p → t.pc = wordAt t p))

/-- R102, R332, R335 to R344: BRA always branches, the flag branches by their flag, BBC when every masked bit of the
datum is 0 and BBS when every one is 1; PG takes the carry or borrow. -/
def Obligations.BranchesBranch : Prop :=
  ∀ s : State,
    (∀ rr, ∃ t, exec (.bra (.short rr)) s = .next t ∧ BranchesIf true rr.toInt s t) ∧
    (∀ rr, ∃ t, exec (.bra (.long rr)) s = .next t ∧ BranchesIf true rr.toInt s t) ∧
    (∀ rr, ∃ t, exec (.bcc rr) s = .next t ∧ BranchesIf (!s.flag .c) rr.toInt s t) ∧
    (∀ rr, ∃ t, exec (.bcs rr) s = .next t ∧ BranchesIf (s.flag .c) rr.toInt s t) ∧
    (∀ rr, ∃ t, exec (.bne rr) s = .next t ∧ BranchesIf (!s.flag .z) rr.toInt s t) ∧
    (∀ rr, ∃ t, exec (.beq rr) s = .next t ∧ BranchesIf (s.flag .z) rr.toInt s t) ∧
    (∀ rr, ∃ t, exec (.bpl rr) s = .next t ∧ BranchesIf (!s.flag .n) rr.toInt s t) ∧
    (∀ rr, ∃ t, exec (.bmi rr) s = .next t ∧ BranchesIf (s.flag .n) rr.toInt s t) ∧
    (∀ rr, ∃ t, exec (.bvc rr) s = .next t ∧ BranchesIf (!s.flag .v) rr.toInt s t) ∧
    (∀ rr, ∃ t, exec (.bvs rr) s = .next t ∧ BranchesIf (s.flag .v) rr.toInt s t) ∧
    (∀ mask mode rr, ∃ t taken, exec (.bbc mask mode rr) s = .next t ∧ BranchesIf taken rr.toInt s t ∧
      (taken = true ↔ ∀ k, k < bitsOf s.mWidth → (immValue mask).getLsbD k = true →
        (loadMode s.mWidth mode s).1.getLsbD k = false)) ∧
    (∀ mask mode rr, ∃ t taken, exec (.bbs mask mode rr) s = .next t ∧ BranchesIf taken rr.toInt s t ∧
      (taken = true ↔ ∀ k, k < bitsOf s.mWidth → (immValue mask).getLsbD k = true →
        (loadMode s.mWidth mode s).1.getLsbD k = true))

/-- R345, R346, R347: RTI pulls PSL, PSH, PCL, PCH and PG, RTL PCL, PCH and PG, RTS PCL and PCH alone; they are
the bytes above S where these are RAM or ROM.  RTI ignores bits 7..3 of PSH (D6, assumption log 8). -/
def Obligations.ReturnInstructions : Prop :=
  ∀ s : State,
    (∃ t, exec .rti s = .next t ∧ t.sp = s.sp + 5 ∧ KeepsAllBut [.sp, .pc, .pg] nowhere s t ∧
      (givesStack 5 s → (∀ f, t.flag f = (stackByte s 0).getLsbD (flagBit f)) ∧
        t.ipl = (stackByte s 1).extractLsb' 0 3 ∧
        t.pc.toNat = stackData .w16 s 2 ∧ t.pg = stackByte s 4)) ∧
    (∃ t, exec .rts s = .next t ∧ t.sp = s.sp + 2 ∧ Frame [.sp, .pc] [] nowhere s t ∧
      (givesStack 2 s → t.pc.toNat = stackData .w16 s 0)) ∧
    (∃ t, exec .rtl s = .next t ∧ t.sp = s.sp + 3 ∧ Frame [.sp, .pc, .pg] [] nowhere s t ∧
      (givesStack 3 s → t.pc.toNat = stackData .w16 s 0 ∧ t.pg = stackByte s 2))

/-! ## Software interrupt, clock control, no operation -/

/-- R371: BRK enters through the vector at 00FFFA, with IPL as it was; its second byte has no effect.
The zeros in bits 7..3 of the pushed PSH byte are PRESUMED (D6, R35, assumption log 8). -/
def Obligations.BrkInterrupts : Prop :=
  ∀ (n : Byte) (s : State), ∃ t, exec (.brk n) s = .next t ∧ EntryResult 0xFFFA#16 none s t ∧ t.irq = s.irq

/-- R372, R373, R374: WIT and STP change the run state and nothing else, NOP nothing. -/
def Obligations.WaitStopAndNop : Prop :=
  ∀ s : State,
    (∃ t, exec .wit s = .next t ∧ t.run = .wait ∧ t.setRun s.run = s) ∧
    (∃ t, exec .stp s = .next t ∧ t.run = .stop ∧ t.setRun s.run = s) ∧
    exec .nop s = .next s
end

