-- ==== Sys2Proof/Laws/Exec.lean ====
section
/-! SUPPORT. The meaning of each instruction that reads memory, as one equation without the pairs of value and state:
`(op s).1` is what the operation gives, `(op s).2` the state after it. -/

namespace Sys2Proof.Machine

section
variable (s : State)

theorem exec_lda (r : Acc) (o : Operand) :
    exec (.lda r o) s = .next (loadAcc r (operand s.mWidth o s).1 (operand s.mWidth o s).2) := rfl

theorem exec_ldx (o : Operand) :
    exec (.ldx o) s = .next (loadX (operand s.xWidth o s).1 (operand s.xWidth o s).2) := rfl

theorem exec_ldy (o : Operand) :
    exec (.ldy o) s = .next (loadY (operand s.xWidth o s).1 (operand s.xWidth o s).2) := rfl

theorem exec_pla : exec .pla s = .next (loadAcc .a (pullW s.mWidth s).1 (pullW s.mWidth s).2) := rfl
theorem exec_plb : exec .plb s = .next (loadAcc .b (pullW s.mWidth s).1 (pullW s.mWidth s).2) := rfl
theorem exec_plx : exec .plx s = .next (loadX (pullW s.xWidth s).1 (pullW s.xWidth s).2) := rfl
theorem exec_ply : exec .ply s = .next (loadY (pullW s.xWidth s).1 (pullW s.xWidth s).2) := rfl

theorem pullDpr_eq : pullDpr s = (pull16 s).2.setDpr (pull16 s).1 := rfl
theorem pullDt_eq : pullDt s = (pull8 s).2.setDt (pull8 s).1 := rfl
theorem pullY_eq : pullY s = (pullW s.xWidth s).2.writeY s.xWidth (pullW s.xWidth s).1 := rfl
theorem pullX_eq : pullX s = (pullW s.xWidth s).2.writeX s.xWidth (pullW s.xWidth s).1 := rfl
theorem pullAcc_eq (r : Acc) :
    pullAcc r s = (pullW s.mWidth s).2.writeAcc s.mWidth r (pullW s.mWidth s).1 := rfl

theorem exec_plt :
    exec .plt s = .next (((pull8 s).2.setDt (pull8 s).1).setNZ .w8 ((pull8 s).1.setWidth 16)) := rfl

theorem exec_pei (dd : Byte) :
    exec (.pei dd) s =
      .next (push16 (read16 (s.directPage (zext24b dd)) s).1 (read16 (s.directPage (zext24b dd)) s).2) := rfl

theorem exec_adc (r : Acc) (o : Operand) :
    exec (.adc r o) s =
      if (operand s.mWidth o s).2.flag .d then
        .next (adcDecimal r s.mWidth (operand s.mWidth o s).1 (operand s.mWidth o s).2)
      else .next (putSum r s.mWidth (addBinary s.mWidth ((operand s.mWidth o s).2.readAcc s.mWidth r)
        (operand s.mWidth o s).1 ((operand s.mWidth o s).2.flag .c)) (operand s.mWidth o s).2) := rfl

theorem exec_sbc (r : Acc) (o : Operand) :
    exec (.sbc r o) s =
      if (operand s.mWidth o s).2.flag .d then
        .next (sbcDecimal r s.mWidth (operand s.mWidth o s).1 (operand s.mWidth o s).2)
      else .next (putSum r s.mWidth (subBinary s.mWidth ((operand s.mWidth o s).2.readAcc s.mWidth r)
        (operand s.mWidth o s).1 ((operand s.mWidth o s).2.flag .c)) (operand s.mWidth o s).2) := rfl

theorem exec_inc (t : Target) :
    exec (.inc t) s = .next ((modify s.mWidth t (incr s.mWidth) s).2.setNZ s.mWidth
      (incr s.mWidth (modify s.mWidth t (incr s.mWidth) s).1)) := rfl

theorem exec_dec (t : Target) :
    exec (.dec t) s = .next ((modify s.mWidth t (decr s.mWidth) s).2.setNZ s.mWidth
      (decr s.mWidth (modify s.mWidth t (decr s.mWidth) s).1)) := rfl

theorem exec_mpy (o : Operand) :
    exec (.mpy o) s = .next ((putProduct s.mWidth (mulUnsigned s.mWidth
      ((operand s.mWidth o s).2.readAcc s.mWidth .a) (operand s.mWidth o s).1)
        (operand s.mWidth o s).2).setFlag .c false) := rfl

theorem exec_mpys (o : Operand) :
    exec (.mpys o) s = on7750 s (putProduct s.mWidth (mulSigned s.mWidth
      ((operand s.mWidth o s).2.readAcc s.mWidth .a) (operand s.mWidth o s).1) (operand s.mWidth o s).2) := rfl

theorem exec_div (o : Operand) :
    exec (.div o) s =
      if (operand s.mWidth o s).1 = 0#16 then .next (takeZeroDivision (operand s.mWidth o s).2)
      else .next (putQuotient s.mWidth (divUnsigned s.mWidth ((operand s.mWidth o s).2.readAcc s.mWidth .b)
        ((operand s.mWidth o s).2.readAcc s.mWidth .a) (operand s.mWidth o s).1) (operand s.mWidth o s).2) := rfl

theorem exec_divs (o : Operand) :
    exec (.divs o) s =
      if (operand s.mWidth o s).1 = 0#16 then on7750 s (takeZeroDivision (operand s.mWidth o s).2)
      else on7750 s (putQuotient s.mWidth (divSigned s.mWidth ((operand s.mWidth o s).2.readAcc s.mWidth .b)
        ((operand s.mWidth o s).2.readAcc s.mWidth .a) (operand s.mWidth o s).1) (operand s.mWidth o s).2) := rfl

theorem combine_eq (f : Word → Word → Word) (r : Acc) (o : Operand) :
    combine f r o s = loadAcc r (f ((operand s.mWidth o s).2.readAcc s.mWidth r) (operand s.mWidth o s).1)
      (operand s.mWidth o s).2 := rfl

theorem exec_cmp (r : Acc) (o : Operand) :
    exec (.cmp r o) s = .next (putCompare s.mWidth (compareValues s.mWidth
      ((operand s.mWidth o s).2.readAcc s.mWidth r) (operand s.mWidth o s).1) (operand s.mWidth o s).2) := rfl

theorem exec_cpx (o : Operand) :
    exec (.cpx o) s = .next (putCompare s.xWidth (compareValues s.xWidth
      (operand s.xWidth o s).2.indexX (operand s.xWidth o s).1) (operand s.xWidth o s).2) := rfl

theorem exec_cpy (o : Operand) :
    exec (.cpy o) s = .next (putCompare s.xWidth (compareValues s.xWidth
      (operand s.xWidth o s).2.indexY (operand s.xWidth o s).1) (operand s.xWidth o s).2) := rfl

theorem shiftBy_eq (f : Width → Word → Shifted) (t : Target) :
    shiftBy f t s =
      ((modify s.mWidth t (fun v => (f s.mWidth v).r) s).2.setNZ s.mWidth
        (f s.mWidth (modify s.mWidth t (fun v => (f s.mWidth v).r) s).1).r).setFlag .c
          (f s.mWidth (modify s.mWidth t (fun v => (f s.mWidth v).r) s).1).c := rfl

theorem exec_bbc (mask : Imm) (mode : Mode) (rr : Byte) :
    exec (.bbc mask mode rr) s = .next (branchIf (isZero s.mWidth
      ((loadMode s.mWidth mode s).1 &&& immValue mask)) rr (loadMode s.mWidth mode s).2) := rfl

theorem exec_bbs (mask : Imm) (mode : Mode) (rr : Byte) :
    exec (.bbs mask mode rr) s = .next (branchIf (isZero s.mWidth
      (~~~(loadMode s.mWidth mode s).1 &&& immValue mask)) rr (loadMode s.mWidth mode s).2) := rfl

theorem exec_rts : exec .rts s = .next ((pull16 s).2.setPc (pull16 s).1) := rfl

theorem exec_rtl :
    exec .rtl s = .next (((pull8 (pull16 s).2).2.setPc (pull16 s).1).setPg (pull8 (pull16 s).2).1) := rfl

theorem exec_rti :
    exec .rti s = .next (((pull8 (pull16 (pullPs s)).2).2.setPc (pull16 (pullPs s)).1).setPg
      (pull8 (pull16 (pullPs s)).2).1) := rfl

theorem jumpThrough_eq (p : Addr) : jumpThrough p s = (read16 p s).2.setPc (read16 p s).1 := rfl

theorem jumpTo_indL (a : Word) :
    jumpTo (.indL a) s =
      (read24 (mkAddr s.chip.absIndBank a) s).2.goto (read24 (mkAddr s.chip.absIndBank a) s).1 := rfl

theorem blockTransfer_eq (dst : Byte) (move : Width → Nat → Transfer → Transfer) :
    blockTransfer dst move s =
      countDone (((move s.xWidth (s.readAcc s.mWidth .a).toNat ⟨s.indexX, s.indexY, s.setDt dst⟩).s.writeX s.xWidth
        (move s.xWidth (s.readAcc s.mWidth .a).toNat ⟨s.indexX, s.indexY, s.setDt dst⟩).sx).writeY s.xWidth
        (move s.xWidth (s.readAcc s.mWidth .a).toNat ⟨s.indexX, s.indexY, s.setDt dst⟩).sy) := rfl

end

end Sys2Proof.Machine
end

