-- ==== Sys2Proof/Laws/Memory.lean ====
section
/-! SUPPORT. The laws of memory: a byte written reads back and leaves every other one alone; every operation keeps
the canonical form; and memories in canonical form that read alike are equal. -/

namespace Sys2Proof.Machine

/-! ### Reading after writing -/

theorem Memory.get_erase (m : Memory) (a b : Nat) :
    (m.erase a).get b = if b = a then unlistedByte else m.get b := by
  induction m with
  | nil => simp [Memory.erase, Memory.get]
  | cons c rest ih =>
    obtain ⟨k, v⟩ := c
    by_cases hk : k = a
    · subst hk
      by_cases hb : b = k
      · rw [Memory.erase, if_pos rfl, ih]
        simp [hb]
      · simp [Memory.erase, Memory.get, ih, hb, Ne.symm hb]
    · by_cases hb : b = a
      · subst hb
        simp [Memory.erase, Memory.get, ih, hk]
      · simp [Memory.erase, Memory.get, ih, hk, hb]

theorem Memory.get_insert (m : Memory) (a b : Nat) (v : Byte) (h : m.get a = unlistedByte)
    (hn : ∀ c ∈ m, c.1 ≠ a) : (m.insert a v).get b = if b = a then v else m.get b := by
  induction m with
  | nil => simp [Memory.insert, Memory.get, eq_comm]
  | cons c rest ih =>
    obtain ⟨k, w⟩ := c
    have hk : k ≠ a := hn (k, w) (by simp)
    have ih' := ih (by simpa [Memory.get, hk] using h) (fun c hc => hn c (by simp [hc]))
    by_cases hlt : a < k
    · by_cases hb : b = a
      · simp [Memory.insert, Memory.get, hlt, hb]
      · simp [Memory.insert, Memory.get, hlt, hb, Ne.symm hb]
    · by_cases hb : b = a
      · subst hb
        simp [Memory.insert, Memory.get, hlt, hk, ih']
      · simp [Memory.insert, Memory.get, hlt, hb, ih']

theorem Memory.erase_absent (m : Memory) (a : Nat) : ∀ c ∈ m.erase a, c.1 ≠ a := by
  induction m with
  | nil => simp [Memory.erase]
  | cons c rest ih =>
    obtain ⟨k, v⟩ := c
    by_cases hk : k = a
    · simpa [Memory.erase, hk] using ih
    · intro d hd
      simp only [Memory.erase, hk, if_false, List.mem_cons] at hd
      rcases hd with rfl | hd
      · exact hk
      · exact ih d hd

/-- One byte after a write: the byte written at its address, what was there before anywhere else. -/
theorem Memory.get_set (m : Memory) (a b : Nat) (v : Byte) :
    (m.set a v).get b = if b = a then v else m.get b := by
  unfold Memory.set
  by_cases hv : v = unlistedByte
  · simp [hv, Memory.get_erase]
  · rw [if_neg hv, Memory.get_insert _ _ _ _ (by simp [Memory.get_erase]) (Memory.erase_absent m a),
      Memory.get_erase]
    by_cases hb : b = a <;> simp [hb]

@[simp] theorem Memory.get_set_same (m : Memory) (a : Nat) (v : Byte) : (m.set a v).get a = v := by
  simp [Memory.get_set]

theorem Memory.get_set_other (m : Memory) (a b : Nat) (v : Byte) (h : b ≠ a) : (m.set a v).get b = m.get b := by
  simp [Memory.get_set, h]

/-! ### The canonical form -/

theorem Memory.wfFrom_cons (lo k : Nat) (v : Byte) (m : Memory) :
    Memory.wfFrom lo ((k, v) :: m) = true ↔
      lo ≤ k ∧ k < memSize ∧ v ≠ unlistedByte ∧ Memory.wfFrom (k + 1) m = true := by
  simp [Memory.wfFrom, and_assoc]

theorem Memory.wfFrom_mono (m : Memory) (lo lo' : Nat) (h : lo' ≤ lo) (hm : m.wfFrom lo = true) :
    m.wfFrom lo' = true := by
  cases m with
  | nil => rfl
  | cons c rest =>
    obtain ⟨k, v⟩ := c
    rw [Memory.wfFrom_cons] at hm ⊢
    exact ⟨h.trans hm.1, hm.2⟩

theorem Memory.wfFrom_erase (m : Memory) (lo a : Nat) (hm : m.wfFrom lo = true) :
    (m.erase a).wfFrom lo = true := by
  induction m generalizing lo with
  | nil => rfl
  | cons c rest ih =>
    obtain ⟨k, v⟩ := c
    rw [Memory.wfFrom_cons] at hm
    by_cases hk : k = a
    · rw [Memory.erase, if_pos hk]
      exact Memory.wfFrom_mono _ _ _ (by omega) (ih (k + 1) hm.2.2.2)
    · rw [Memory.erase, if_neg hk, Memory.wfFrom_cons]
      exact ⟨hm.1, hm.2.1, hm.2.2.1, ih (k + 1) hm.2.2.2⟩

theorem Memory.wfFrom_insert (m : Memory) (lo a : Nat) (v : Byte) (hm : m.wfFrom lo = true) (hlo : lo ≤ a)
    (ha : a < memSize) (hv : v ≠ unlistedByte) (hn : ∀ c ∈ m, c.1 ≠ a) : (m.insert a v).wfFrom lo = true := by
  induction m generalizing lo with
  | nil => simp [Memory.insert, Memory.wfFrom, hlo, ha, hv]
  | cons c rest ih =>
    obtain ⟨k, w⟩ := c
    have hk : k ≠ a := hn (k, w) (by simp)
    rw [Memory.wfFrom_cons] at hm
    by_cases hlt : a < k
    · rw [Memory.insert, if_pos hlt, Memory.wfFrom_cons, Memory.wfFrom_cons]
      exact ⟨hlo, ha, hv, hlt, hm.2⟩
    · rw [Memory.insert, if_neg hlt, Memory.wfFrom_cons]
      exact ⟨hm.1, hm.2.1, hm.2.2.1, ih (k + 1) hm.2.2.2 (by omega) (fun c hc => hn c (by simp [hc]))⟩

/-- A write at an address of the address space keeps the canonical form. -/
theorem Memory.wf_set (m : Memory) (a : Nat) (v : Byte) (hm : m.wf = true) (ha : a < memSize) :
    (m.set a v).wf = true := by
  unfold Memory.set
  by_cases hv : v = unlistedByte
  · rw [if_pos hv]
    exact Memory.wfFrom_erase m 0 a hm
  · rw [if_neg hv]
    exact Memory.wfFrom_insert _ 0 a v (Memory.wfFrom_erase m 0 a hm) (Nat.zero_le _) ha hv
      (Memory.erase_absent m a)

theorem Memory.wf_nil : Memory.wf [] = true := rfl

/-! ### Equal memories are equal data -/

/-- Below the first address that `wfFrom` allows, nothing is listed. -/
theorem Memory.get_below (m : Memory) (lo a : Nat) (hm : m.wfFrom lo = true) (h : a < lo) :
    m.get a = unlistedByte := by
  induction m generalizing lo with
  | nil => rfl
  | cons c rest ih =>
    obtain ⟨k, v⟩ := c
    rw [Memory.wfFrom_cons] at hm
    rw [Memory.get, if_neg (by omega)]
    exact ih (k + 1) hm.2.2.2 (by omega)

/-- Memories in canonical form that read alike at every address are the same list. -/
theorem Memory.wfFrom_ext (m n : Memory) (lo : Nat) (hm : m.wfFrom lo = true) (hn : n.wfFrom lo = true)
    (h : ∀ a, m.get a = n.get a) : m = n := by
  induction m generalizing n lo with
  | nil =>
    cases n with
    | nil => rfl
    | cons c rest =>
      obtain ⟨k, v⟩ := c
      rw [Memory.wfFrom_cons] at hn
      exact absurd ((h k).symm.trans rfl) (by simpa [Memory.get] using hn.2.2.1)
  | cons c rest ih =>
    obtain ⟨k, v⟩ := c
    rw [Memory.wfFrom_cons] at hm
    cases n with
    | nil => exact absurd (h k) (by simpa [Memory.get] using hm.2.2.1)
    | cons d rest' =>
      obtain ⟨k', v'⟩ := d
      rw [Memory.wfFrom_cons] at hn
      have hk : k = k' := by
        by_contra hne
        rcases Nat.lt_or_gt_of_ne hne with hlt | hgt
        · have := h k
          rw [Memory.get, if_pos rfl, Memory.get, if_neg (by omega),
            Memory.get_below rest' (k' + 1) k hn.2.2.2 (by omega)] at this
          exact hm.2.2.1 this
        · have := h k'
          rw [Memory.get, if_neg (by omega), Memory.get_below rest (k + 1) k' hm.2.2.2 (by omega), Memory.get,
            if_pos rfl] at this
          exact hn.2.2.1 this.symm
      subst hk
      have hv : v = v' := by simpa [Memory.get] using h k
      subst hv
      congr 1
      refine ih rest' (k + 1) hm.2.2.2 hn.2.2.2 fun a => ?_
      by_cases ha : k = a
      · subst ha
        rw [Memory.get_below rest (k + 1) k hm.2.2.2 (by omega),
          Memory.get_below rest' (k + 1) k hn.2.2.2 (by omega)]
      · simpa [Memory.get, ha] using h a

theorem Memory.wf_ext (m n : Memory) (hm : m.wf = true) (hn : n.wf = true) (h : ∀ a, m.get a = n.get a) : m = n :=
  Memory.wfFrom_ext m n 0 hm hn h

end Sys2Proof.Machine
end

