-- ==== Sys2Proof/Laws/State.lean ====
section
/-! SUPPORT. One lemma per field per update of the state, and per view (a flag, IPL, a byte of memory, the kind of
an address), true by rfl; then what the updates of PS do to the flags. -/

namespace Sys2Proof.Machine

section
variable (s : State) (v : Word)
@[simp] theorem setA_a : (s.setA v).a = v := rfl
@[simp] theorem setA_b : (s.setA v).b = s.b := rfl
@[simp] theorem setA_x : (s.setA v).x = s.x := rfl
@[simp] theorem setA_y : (s.setA v).y = s.y := rfl
@[simp] theorem setA_sp : (s.setA v).sp = s.sp := rfl
@[simp] theorem setA_pc : (s.setA v).pc = s.pc := rfl
@[simp] theorem setA_pg : (s.setA v).pg = s.pg := rfl
@[simp] theorem setA_dt : (s.setA v).dt = s.dt := rfl
@[simp] theorem setA_dpr : (s.setA v).dpr = s.dpr := rfl
@[simp] theorem setA_ps : (s.setA v).ps = s.ps := rfl
@[simp] theorem setA_run : (s.setA v).run = s.run := rfl
@[simp] theorem setA_mem : (s.setA v).mem = s.mem := rfl
@[simp] theorem setA_chip : (s.setA v).chip = s.chip := rfl
@[simp] theorem setA_bus : (s.setA v).bus = s.bus := rfl
@[simp] theorem setA_irq : (s.setA v).irq = s.irq := rfl
@[simp] theorem setA_flag (f : Flag) : (s.setA v).flag f = s.flag f := rfl
@[simp] theorem setA_ipl : (s.setA v).ipl = s.ipl := rfl
@[simp] theorem setA_psl : (s.setA v).psl = s.psl := rfl
@[simp] theorem setA_psh : (s.setA v).psh = s.psh := rfl
@[simp] theorem setA_byteAt (p : Addr) : (s.setA v).byteAt p = s.byteAt p := rfl
@[simp] theorem setA_kindAt (p : Addr) : (s.setA v).kindAt p = s.kindAt p := rfl
end

section
variable (s : State) (v : Word)
@[simp] theorem setB_a : (s.setB v).a = s.a := rfl
@[simp] theorem setB_b : (s.setB v).b = v := rfl
@[simp] theorem setB_x : (s.setB v).x = s.x := rfl
@[simp] theorem setB_y : (s.setB v).y = s.y := rfl
@[simp] theorem setB_sp : (s.setB v).sp = s.sp := rfl
@[simp] theorem setB_pc : (s.setB v).pc = s.pc := rfl
@[simp] theorem setB_pg : (s.setB v).pg = s.pg := rfl
@[simp] theorem setB_dt : (s.setB v).dt = s.dt := rfl
@[simp] theorem setB_dpr : (s.setB v).dpr = s.dpr := rfl
@[simp] theorem setB_ps : (s.setB v).ps = s.ps := rfl
@[simp] theorem setB_run : (s.setB v).run = s.run := rfl
@[simp] theorem setB_mem : (s.setB v).mem = s.mem := rfl
@[simp] theorem setB_chip : (s.setB v).chip = s.chip := rfl
@[simp] theorem setB_bus : (s.setB v).bus = s.bus := rfl
@[simp] theorem setB_irq : (s.setB v).irq = s.irq := rfl
@[simp] theorem setB_flag (f : Flag) : (s.setB v).flag f = s.flag f := rfl
@[simp] theorem setB_ipl : (s.setB v).ipl = s.ipl := rfl
@[simp] theorem setB_psl : (s.setB v).psl = s.psl := rfl
@[simp] theorem setB_psh : (s.setB v).psh = s.psh := rfl
@[simp] theorem setB_byteAt (p : Addr) : (s.setB v).byteAt p = s.byteAt p := rfl
@[simp] theorem setB_kindAt (p : Addr) : (s.setB v).kindAt p = s.kindAt p := rfl
end

section
variable (s : State) (v : Word)
@[simp] theorem setX_a : (s.setX v).a = s.a := rfl
@[simp] theorem setX_b : (s.setX v).b = s.b := rfl
@[simp] theorem setX_x : (s.setX v).x = v := rfl
@[simp] theorem setX_y : (s.setX v).y = s.y := rfl
@[simp] theorem setX_sp : (s.setX v).sp = s.sp := rfl
@[simp] theorem setX_pc : (s.setX v).pc = s.pc := rfl
@[simp] theorem setX_pg : (s.setX v).pg = s.pg := rfl
@[simp] theorem setX_dt : (s.setX v).dt = s.dt := rfl
@[simp] theorem setX_dpr : (s.setX v).dpr = s.dpr := rfl
@[simp] theorem setX_ps : (s.setX v).ps = s.ps := rfl
@[simp] theorem setX_run : (s.setX v).run = s.run := rfl
@[simp] theorem setX_mem : (s.setX v).mem = s.mem := rfl
@[simp] theorem setX_chip : (s.setX v).chip = s.chip := rfl
@[simp] theorem setX_bus : (s.setX v).bus = s.bus := rfl
@[simp] theorem setX_irq : (s.setX v).irq = s.irq := rfl
@[simp] theorem setX_flag (f : Flag) : (s.setX v).flag f = s.flag f := rfl
@[simp] theorem setX_ipl : (s.setX v).ipl = s.ipl := rfl
@[simp] theorem setX_psl : (s.setX v).psl = s.psl := rfl
@[simp] theorem setX_psh : (s.setX v).psh = s.psh := rfl
@[simp] theorem setX_byteAt (p : Addr) : (s.setX v).byteAt p = s.byteAt p := rfl
@[simp] theorem setX_kindAt (p : Addr) : (s.setX v).kindAt p = s.kindAt p := rfl
end

section
variable (s : State) (v : Word)
@[simp] theorem setY_a : (s.setY v).a = s.a := rfl
@[simp] theorem setY_b : (s.setY v).b = s.b := rfl
@[simp] theorem setY_x : (s.setY v).x = s.x := rfl
@[simp] theorem setY_y : (s.setY v).y = v := rfl
@[simp] theorem setY_sp : (s.setY v).sp = s.sp := rfl
@[simp] theorem setY_pc : (s.setY v).pc = s.pc := rfl
@[simp] theorem setY_pg : (s.setY v).pg = s.pg := rfl
@[simp] theorem setY_dt : (s.setY v).dt = s.dt := rfl
@[simp] theorem setY_dpr : (s.setY v).dpr = s.dpr := rfl
@[simp] theorem setY_ps : (s.setY v).ps = s.ps := rfl
@[simp] theorem setY_run : (s.setY v).run = s.run := rfl
@[simp] theorem setY_mem : (s.setY v).mem = s.mem := rfl
@[simp] theorem setY_chip : (s.setY v).chip = s.chip := rfl
@[simp] theorem setY_bus : (s.setY v).bus = s.bus := rfl
@[simp] theorem setY_irq : (s.setY v).irq = s.irq := rfl
@[simp] theorem setY_flag (f : Flag) : (s.setY v).flag f = s.flag f := rfl
@[simp] theorem setY_ipl : (s.setY v).ipl = s.ipl := rfl
@[simp] theorem setY_psl : (s.setY v).psl = s.psl := rfl
@[simp] theorem setY_psh : (s.setY v).psh = s.psh := rfl
@[simp] theorem setY_byteAt (p : Addr) : (s.setY v).byteAt p = s.byteAt p := rfl
@[simp] theorem setY_kindAt (p : Addr) : (s.setY v).kindAt p = s.kindAt p := rfl
end

section
variable (s : State) (v : Word)
@[simp] theorem setSp_a : (s.setSp v).a = s.a := rfl
@[simp] theorem setSp_b : (s.setSp v).b = s.b := rfl
@[simp] theorem setSp_x : (s.setSp v).x = s.x := rfl
@[simp] theorem setSp_y : (s.setSp v).y = s.y := rfl
@[simp] theorem setSp_sp : (s.setSp v).sp = v := rfl
@[simp] theorem setSp_pc : (s.setSp v).pc = s.pc := rfl
@[simp] theorem setSp_pg : (s.setSp v).pg = s.pg := rfl
@[simp] theorem setSp_dt : (s.setSp v).dt = s.dt := rfl
@[simp] theorem setSp_dpr : (s.setSp v).dpr = s.dpr := rfl
@[simp] theorem setSp_ps : (s.setSp v).ps = s.ps := rfl
@[simp] theorem setSp_run : (s.setSp v).run = s.run := rfl
@[simp] theorem setSp_mem : (s.setSp v).mem = s.mem := rfl
@[simp] theorem setSp_chip : (s.setSp v).chip = s.chip := rfl
@[simp] theorem setSp_bus : (s.setSp v).bus = s.bus := rfl
@[simp] theorem setSp_irq : (s.setSp v).irq = s.irq := rfl
@[simp] theorem setSp_flag (f : Flag) : (s.setSp v).flag f = s.flag f := rfl
@[simp] theorem setSp_ipl : (s.setSp v).ipl = s.ipl := rfl
@[simp] theorem setSp_psl : (s.setSp v).psl = s.psl := rfl
@[simp] theorem setSp_psh : (s.setSp v).psh = s.psh := rfl
@[simp] theorem setSp_byteAt (p : Addr) : (s.setSp v).byteAt p = s.byteAt p := rfl
@[simp] theorem setSp_kindAt (p : Addr) : (s.setSp v).kindAt p = s.kindAt p := rfl
end

section
variable (s : State) (v : Word)
@[simp] theorem setPc_a : (s.setPc v).a = s.a := rfl
@[simp] theorem setPc_b : (s.setPc v).b = s.b := rfl
@[simp] theorem setPc_x : (s.setPc v).x = s.x := rfl
@[simp] theorem setPc_y : (s.setPc v).y = s.y := rfl
@[simp] theorem setPc_sp : (s.setPc v).sp = s.sp := rfl
@[simp] theorem setPc_pc : (s.setPc v).pc = v := rfl
@[simp] theorem setPc_pg : (s.setPc v).pg = s.pg := rfl
@[simp] theorem setPc_dt : (s.setPc v).dt = s.dt := rfl
@[simp] theorem setPc_dpr : (s.setPc v).dpr = s.dpr := rfl
@[simp] theorem setPc_ps : (s.setPc v).ps = s.ps := rfl
@[simp] theorem setPc_run : (s.setPc v).run = s.run := rfl
@[simp] theorem setPc_mem : (s.setPc v).mem = s.mem := rfl
@[simp] theorem setPc_chip : (s.setPc v).chip = s.chip := rfl
@[simp] theorem setPc_bus : (s.setPc v).bus = s.bus := rfl
@[simp] theorem setPc_irq : (s.setPc v).irq = s.irq := rfl
@[simp] theorem setPc_flag (f : Flag) : (s.setPc v).flag f = s.flag f := rfl
@[simp] theorem setPc_ipl : (s.setPc v).ipl = s.ipl := rfl
@[simp] theorem setPc_psl : (s.setPc v).psl = s.psl := rfl
@[simp] theorem setPc_psh : (s.setPc v).psh = s.psh := rfl
@[simp] theorem setPc_byteAt (p : Addr) : (s.setPc v).byteAt p = s.byteAt p := rfl
@[simp] theorem setPc_kindAt (p : Addr) : (s.setPc v).kindAt p = s.kindAt p := rfl
end

section
variable (s : State) (v : Byte)
@[simp] theorem setPg_a : (s.setPg v).a = s.a := rfl
@[simp] theorem setPg_b : (s.setPg v).b = s.b := rfl
@[simp] theorem setPg_x : (s.setPg v).x = s.x := rfl
@[simp] theorem setPg_y : (s.setPg v).y = s.y := rfl
@[simp] theorem setPg_sp : (s.setPg v).sp = s.sp := rfl
@[simp] theorem setPg_pc : (s.setPg v).pc = s.pc := rfl
@[simp] theorem setPg_pg : (s.setPg v).pg = v := rfl
@[simp] theorem setPg_dt : (s.setPg v).dt = s.dt := rfl
@[simp] theorem setPg_dpr : (s.setPg v).dpr = s.dpr := rfl
@[simp] theorem setPg_ps : (s.setPg v).ps = s.ps := rfl
@[simp] theorem setPg_run : (s.setPg v).run = s.run := rfl
@[simp] theorem setPg_mem : (s.setPg v).mem = s.mem := rfl
@[simp] theorem setPg_chip : (s.setPg v).chip = s.chip := rfl
@[simp] theorem setPg_bus : (s.setPg v).bus = s.bus := rfl
@[simp] theorem setPg_irq : (s.setPg v).irq = s.irq := rfl
@[simp] theorem setPg_flag (f : Flag) : (s.setPg v).flag f = s.flag f := rfl
@[simp] theorem setPg_ipl : (s.setPg v).ipl = s.ipl := rfl
@[simp] theorem setPg_psl : (s.setPg v).psl = s.psl := rfl
@[simp] theorem setPg_psh : (s.setPg v).psh = s.psh := rfl
@[simp] theorem setPg_byteAt (p : Addr) : (s.setPg v).byteAt p = s.byteAt p := rfl
@[simp] theorem setPg_kindAt (p : Addr) : (s.setPg v).kindAt p = s.kindAt p := rfl
end

section
variable (s : State) (v : Byte)
@[simp] theorem setDt_a : (s.setDt v).a = s.a := rfl
@[simp] theorem setDt_b : (s.setDt v).b = s.b := rfl
@[simp] theorem setDt_x : (s.setDt v).x = s.x := rfl
@[simp] theorem setDt_y : (s.setDt v).y = s.y := rfl
@[simp] theorem setDt_sp : (s.setDt v).sp = s.sp := rfl
@[simp] theorem setDt_pc : (s.setDt v).pc = s.pc := rfl
@[simp] theorem setDt_pg : (s.setDt v).pg = s.pg := rfl
@[simp] theorem setDt_dt : (s.setDt v).dt = v := rfl
@[simp] theorem setDt_dpr : (s.setDt v).dpr = s.dpr := rfl
@[simp] theorem setDt_ps : (s.setDt v).ps = s.ps := rfl
@[simp] theorem setDt_run : (s.setDt v).run = s.run := rfl
@[simp] theorem setDt_mem : (s.setDt v).mem = s.mem := rfl
@[simp] theorem setDt_chip : (s.setDt v).chip = s.chip := rfl
@[simp] theorem setDt_bus : (s.setDt v).bus = s.bus := rfl
@[simp] theorem setDt_irq : (s.setDt v).irq = s.irq := rfl
@[simp] theorem setDt_flag (f : Flag) : (s.setDt v).flag f = s.flag f := rfl
@[simp] theorem setDt_ipl : (s.setDt v).ipl = s.ipl := rfl
@[simp] theorem setDt_psl : (s.setDt v).psl = s.psl := rfl
@[simp] theorem setDt_psh : (s.setDt v).psh = s.psh := rfl
@[simp] theorem setDt_byteAt (p : Addr) : (s.setDt v).byteAt p = s.byteAt p := rfl
@[simp] theorem setDt_kindAt (p : Addr) : (s.setDt v).kindAt p = s.kindAt p := rfl
end

section
variable (s : State) (v : Word)
@[simp] theorem setDpr_a : (s.setDpr v).a = s.a := rfl
@[simp] theorem setDpr_b : (s.setDpr v).b = s.b := rfl
@[simp] theorem setDpr_x : (s.setDpr v).x = s.x := rfl
@[simp] theorem setDpr_y : (s.setDpr v).y = s.y := rfl
@[simp] theorem setDpr_sp : (s.setDpr v).sp = s.sp := rfl
@[simp] theorem setDpr_pc : (s.setDpr v).pc = s.pc := rfl
@[simp] theorem setDpr_pg : (s.setDpr v).pg = s.pg := rfl
@[simp] theorem setDpr_dt : (s.setDpr v).dt = s.dt := rfl
@[simp] theorem setDpr_dpr : (s.setDpr v).dpr = v := rfl
@[simp] theorem setDpr_ps : (s.setDpr v).ps = s.ps := rfl
@[simp] theorem setDpr_run : (s.setDpr v).run = s.run := rfl
@[simp] theorem setDpr_mem : (s.setDpr v).mem = s.mem := rfl
@[simp] theorem setDpr_chip : (s.setDpr v).chip = s.chip := rfl
@[simp] theorem setDpr_bus : (s.setDpr v).bus = s.bus := rfl
@[simp] theorem setDpr_irq : (s.setDpr v).irq = s.irq := rfl
@[simp] theorem setDpr_flag (f : Flag) : (s.setDpr v).flag f = s.flag f := rfl
@[simp] theorem setDpr_ipl : (s.setDpr v).ipl = s.ipl := rfl
@[simp] theorem setDpr_psl : (s.setDpr v).psl = s.psl := rfl
@[simp] theorem setDpr_psh : (s.setDpr v).psh = s.psh := rfl
@[simp] theorem setDpr_byteAt (p : Addr) : (s.setDpr v).byteAt p = s.byteAt p := rfl
@[simp] theorem setDpr_kindAt (p : Addr) : (s.setDpr v).kindAt p = s.kindAt p := rfl
end

section
variable (s : State) (v : BitVec 11)
@[simp] theorem setPs_a : (s.setPs v).a = s.a := rfl
@[simp] theorem setPs_b : (s.setPs v).b = s.b := rfl
@[simp] theorem setPs_x : (s.setPs v).x = s.x := rfl
@[simp] theorem setPs_y : (s.setPs v).y = s.y := rfl
@[simp] theorem setPs_sp : (s.setPs v).sp = s.sp := rfl
@[simp] theorem setPs_pc : (s.setPs v).pc = s.pc := rfl
@[simp] theorem setPs_pg : (s.setPs v).pg = s.pg := rfl
@[simp] theorem setPs_dt : (s.setPs v).dt = s.dt := rfl
@[simp] theorem setPs_dpr : (s.setPs v).dpr = s.dpr := rfl
@[simp] theorem setPs_ps : (s.setPs v).ps = v := rfl
@[simp] theorem setPs_run : (s.setPs v).run = s.run := rfl
@[simp] theorem setPs_mem : (s.setPs v).mem = s.mem := rfl
@[simp] theorem setPs_chip : (s.setPs v).chip = s.chip := rfl
@[simp] theorem setPs_bus : (s.setPs v).bus = s.bus := rfl
@[simp] theorem setPs_irq : (s.setPs v).irq = s.irq := rfl
@[simp] theorem setPs_byteAt (p : Addr) : (s.setPs v).byteAt p = s.byteAt p := rfl
@[simp] theorem setPs_kindAt (p : Addr) : (s.setPs v).kindAt p = s.kindAt p := rfl
end

section
variable (s : State) (v : RunState)
@[simp] theorem setRun_a : (s.setRun v).a = s.a := rfl
@[simp] theorem setRun_b : (s.setRun v).b = s.b := rfl
@[simp] theorem setRun_x : (s.setRun v).x = s.x := rfl
@[simp] theorem setRun_y : (s.setRun v).y = s.y := rfl
@[simp] theorem setRun_sp : (s.setRun v).sp = s.sp := rfl
@[simp] theorem setRun_pc : (s.setRun v).pc = s.pc := rfl
@[simp] theorem setRun_pg : (s.setRun v).pg = s.pg := rfl
@[simp] theorem setRun_dt : (s.setRun v).dt = s.dt := rfl
@[simp] theorem setRun_dpr : (s.setRun v).dpr = s.dpr := rfl
@[simp] theorem setRun_ps : (s.setRun v).ps = s.ps := rfl
@[simp] theorem setRun_run : (s.setRun v).run = v := rfl
@[simp] theorem setRun_mem : (s.setRun v).mem = s.mem := rfl
@[simp] theorem setRun_chip : (s.setRun v).chip = s.chip := rfl
@[simp] theorem setRun_bus : (s.setRun v).bus = s.bus := rfl
@[simp] theorem setRun_irq : (s.setRun v).irq = s.irq := rfl
@[simp] theorem setRun_flag (f : Flag) : (s.setRun v).flag f = s.flag f := rfl
@[simp] theorem setRun_ipl : (s.setRun v).ipl = s.ipl := rfl
@[simp] theorem setRun_psl : (s.setRun v).psl = s.psl := rfl
@[simp] theorem setRun_psh : (s.setRun v).psh = s.psh := rfl
@[simp] theorem setRun_byteAt (p : Addr) : (s.setRun v).byteAt p = s.byteAt p := rfl
@[simp] theorem setRun_kindAt (p : Addr) : (s.setRun v).kindAt p = s.kindAt p := rfl
end

section
variable (s : State) (v : Memory)
@[simp] theorem setMem_a : (s.setMem v).a = s.a := rfl
@[simp] theorem setMem_b : (s.setMem v).b = s.b := rfl
@[simp] theorem setMem_x : (s.setMem v).x = s.x := rfl
@[simp] theorem setMem_y : (s.setMem v).y = s.y := rfl
@[simp] theorem setMem_sp : (s.setMem v).sp = s.sp := rfl
@[simp] theorem setMem_pc : (s.setMem v).pc = s.pc := rfl
@[simp] theorem setMem_pg : (s.setMem v).pg = s.pg := rfl
@[simp] theorem setMem_dt : (s.setMem v).dt = s.dt := rfl
@[simp] theorem setMem_dpr : (s.setMem v).dpr = s.dpr := rfl
@[simp] theorem setMem_ps : (s.setMem v).ps = s.ps := rfl
@[simp] theorem setMem_run : (s.setMem v).run = s.run := rfl
@[simp] theorem setMem_mem : (s.setMem v).mem = v := rfl
@[simp] theorem setMem_chip : (s.setMem v).chip = s.chip := rfl
@[simp] theorem setMem_bus : (s.setMem v).bus = s.bus := rfl
@[simp] theorem setMem_irq : (s.setMem v).irq = s.irq := rfl
@[simp] theorem setMem_flag (f : Flag) : (s.setMem v).flag f = s.flag f := rfl
@[simp] theorem setMem_ipl : (s.setMem v).ipl = s.ipl := rfl
@[simp] theorem setMem_psl : (s.setMem v).psl = s.psl := rfl
@[simp] theorem setMem_psh : (s.setMem v).psh = s.psh := rfl
@[simp] theorem setMem_kindAt (p : Addr) : (s.setMem v).kindAt p = s.kindAt p := rfl
end

section
variable (s : State) (v : Bus)
@[simp] theorem setBus_a : (s.setBus v).a = s.a := rfl
@[simp] theorem setBus_b : (s.setBus v).b = s.b := rfl
@[simp] theorem setBus_x : (s.setBus v).x = s.x := rfl
@[simp] theorem setBus_y : (s.setBus v).y = s.y := rfl
@[simp] theorem setBus_sp : (s.setBus v).sp = s.sp := rfl
@[simp] theorem setBus_pc : (s.setBus v).pc = s.pc := rfl
@[simp] theorem setBus_pg : (s.setBus v).pg = s.pg := rfl
@[simp] theorem setBus_dt : (s.setBus v).dt = s.dt := rfl
@[simp] theorem setBus_dpr : (s.setBus v).dpr = s.dpr := rfl
@[simp] theorem setBus_ps : (s.setBus v).ps = s.ps := rfl
@[simp] theorem setBus_run : (s.setBus v).run = s.run := rfl
@[simp] theorem setBus_mem : (s.setBus v).mem = s.mem := rfl
@[simp] theorem setBus_chip : (s.setBus v).chip = s.chip := rfl
@[simp] theorem setBus_bus : (s.setBus v).bus = v := rfl
@[simp] theorem setBus_irq : (s.setBus v).irq = s.irq := rfl
@[simp] theorem setBus_flag (f : Flag) : (s.setBus v).flag f = s.flag f := rfl
@[simp] theorem setBus_ipl : (s.setBus v).ipl = s.ipl := rfl
@[simp] theorem setBus_psl : (s.setBus v).psl = s.psl := rfl
@[simp] theorem setBus_psh : (s.setBus v).psh = s.psh := rfl
@[simp] theorem setBus_byteAt (p : Addr) : (s.setBus v).byteAt p = s.byteAt p := rfl
@[simp] theorem setBus_kindAt (p : Addr) : (s.setBus v).kindAt p = s.kindAt p := rfl
end

section
variable (s : State) (v : Requests)
@[simp] theorem setIrq_a : (s.setIrq v).a = s.a := rfl
@[simp] theorem setIrq_b : (s.setIrq v).b = s.b := rfl
@[simp] theorem setIrq_x : (s.setIrq v).x = s.x := rfl
@[simp] theorem setIrq_y : (s.setIrq v).y = s.y := rfl
@[simp] theorem setIrq_sp : (s.setIrq v).sp = s.sp := rfl
@[simp] theorem setIrq_pc : (s.setIrq v).pc = s.pc := rfl
@[simp] theorem setIrq_pg : (s.setIrq v).pg = s.pg := rfl
@[simp] theorem setIrq_dt : (s.setIrq v).dt = s.dt := rfl
@[simp] theorem setIrq_dpr : (s.setIrq v).dpr = s.dpr := rfl
@[simp] theorem setIrq_ps : (s.setIrq v).ps = s.ps := rfl
@[simp] theorem setIrq_run : (s.setIrq v).run = s.run := rfl
@[simp] theorem setIrq_mem : (s.setIrq v).mem = s.mem := rfl
@[simp] theorem setIrq_chip : (s.setIrq v).chip = s.chip := rfl
@[simp] theorem setIrq_bus : (s.setIrq v).bus = s.bus := rfl
@[simp] theorem setIrq_irq : (s.setIrq v).irq = v := rfl
@[simp] theorem setIrq_flag (f : Flag) : (s.setIrq v).flag f = s.flag f := rfl
@[simp] theorem setIrq_ipl : (s.setIrq v).ipl = s.ipl := rfl
@[simp] theorem setIrq_psl : (s.setIrq v).psl = s.psl := rfl
@[simp] theorem setIrq_psh : (s.setIrq v).psh = s.psh := rfl
@[simp] theorem setIrq_byteAt (p : Addr) : (s.setIrq v).byteAt p = s.byteAt p := rfl
@[simp] theorem setIrq_kindAt (p : Addr) : (s.setIrq v).kindAt p = s.kindAt p := rfl
end

section
variable (s : State) (f : Flag) (v : Bool)
@[simp] theorem setFlag_a : (s.setFlag f v).a = s.a := rfl
@[simp] theorem setFlag_b : (s.setFlag f v).b = s.b := rfl
@[simp] theorem setFlag_x : (s.setFlag f v).x = s.x := rfl
@[simp] theorem setFlag_y : (s.setFlag f v).y = s.y := rfl
@[simp] theorem setFlag_sp : (s.setFlag f v).sp = s.sp := rfl
@[simp] theorem setFlag_pc : (s.setFlag f v).pc = s.pc := rfl
@[simp] theorem setFlag_pg : (s.setFlag f v).pg = s.pg := rfl
@[simp] theorem setFlag_dt : (s.setFlag f v).dt = s.dt := rfl
@[simp] theorem setFlag_dpr : (s.setFlag f v).dpr = s.dpr := rfl
@[simp] theorem setFlag_run : (s.setFlag f v).run = s.run := rfl
@[simp] theorem setFlag_mem : (s.setFlag f v).mem = s.mem := rfl
@[simp] theorem setFlag_chip : (s.setFlag f v).chip = s.chip := rfl
@[simp] theorem setFlag_bus : (s.setFlag f v).bus = s.bus := rfl
@[simp] theorem setFlag_irq : (s.setFlag f v).irq = s.irq := rfl
@[simp] theorem setFlag_byteAt (p : Addr) : (s.setFlag f v).byteAt p = s.byteAt p := rfl
@[simp] theorem setFlag_kindAt (p : Addr) : (s.setFlag f v).kindAt p = s.kindAt p := rfl
end

section
variable (s : State) (w : Width) (v : Word)
@[simp] theorem setNZ_a : (s.setNZ w v).a = s.a := rfl
@[simp] theorem setNZ_b : (s.setNZ w v).b = s.b := rfl
@[simp] theorem setNZ_x : (s.setNZ w v).x = s.x := rfl
@[simp] theorem setNZ_y : (s.setNZ w v).y = s.y := rfl
@[simp] theorem setNZ_sp : (s.setNZ w v).sp = s.sp := rfl
@[simp] theorem setNZ_pc : (s.setNZ w v).pc = s.pc := rfl
@[simp] theorem setNZ_pg : (s.setNZ w v).pg = s.pg := rfl
@[simp] theorem setNZ_dt : (s.setNZ w v).dt = s.dt := rfl
@[simp] theorem setNZ_dpr : (s.setNZ w v).dpr = s.dpr := rfl
@[simp] theorem setNZ_run : (s.setNZ w v).run = s.run := rfl
@[simp] theorem setNZ_mem : (s.setNZ w v).mem = s.mem := rfl
@[simp] theorem setNZ_chip : (s.setNZ w v).chip = s.chip := rfl
@[simp] theorem setNZ_bus : (s.setNZ w v).bus = s.bus := rfl
@[simp] theorem setNZ_irq : (s.setNZ w v).irq = s.irq := rfl
@[simp] theorem setNZ_byteAt (p : Addr) : (s.setNZ w v).byteAt p = s.byteAt p := rfl
@[simp] theorem setNZ_kindAt (p : Addr) : (s.setNZ w v).kindAt p = s.kindAt p := rfl
end

section
variable (s : State) (v : Byte)
@[simp] theorem setPsl_a : (s.setPsl v).a = s.a := rfl
@[simp] theorem setPsl_b : (s.setPsl v).b = s.b := rfl
@[simp] theorem setPsl_x : (s.setPsl v).x = s.x := rfl
@[simp] theorem setPsl_y : (s.setPsl v).y = s.y := rfl
@[simp] theorem setPsl_sp : (s.setPsl v).sp = s.sp := rfl
@[simp] theorem setPsl_pc : (s.setPsl v).pc = s.pc := rfl
@[simp] theorem setPsl_pg : (s.setPsl v).pg = s.pg := rfl
@[simp] theorem setPsl_dt : (s.setPsl v).dt = s.dt := rfl
@[simp] theorem setPsl_dpr : (s.setPsl v).dpr = s.dpr := rfl
@[simp] theorem setPsl_run : (s.setPsl v).run = s.run := rfl
@[simp] theorem setPsl_mem : (s.setPsl v).mem = s.mem := rfl
@[simp] theorem setPsl_chip : (s.setPsl v).chip = s.chip := rfl
@[simp] theorem setPsl_bus : (s.setPsl v).bus = s.bus := rfl
@[simp] theorem setPsl_irq : (s.setPsl v).irq = s.irq := rfl
@[simp] theorem setPsl_byteAt (p : Addr) : (s.setPsl v).byteAt p = s.byteAt p := rfl
@[simp] theorem setPsl_kindAt (p : Addr) : (s.setPsl v).kindAt p = s.kindAt p := rfl
end

section
variable (s : State) (v : Byte)
@[simp] theorem setPsh_a : (s.setPsh v).a = s.a := rfl
@[simp] theorem setPsh_b : (s.setPsh v).b = s.b := rfl
@[simp] theorem setPsh_x : (s.setPsh v).x = s.x := rfl
@[simp] theorem setPsh_y : (s.setPsh v).y = s.y := rfl
@[simp] theorem setPsh_sp : (s.setPsh v).sp = s.sp := rfl
@[simp] theorem setPsh_pc : (s.setPsh v).pc = s.pc := rfl
@[simp] theorem setPsh_pg : (s.setPsh v).pg = s.pg := rfl
@[simp] theorem setPsh_dt : (s.setPsh v).dt = s.dt := rfl
@[simp] theorem setPsh_dpr : (s.setPsh v).dpr = s.dpr := rfl
@[simp] theorem setPsh_run : (s.setPsh v).run = s.run := rfl
@[simp] theorem setPsh_mem : (s.setPsh v).mem = s.mem := rfl
@[simp] theorem setPsh_chip : (s.setPsh v).chip = s.chip := rfl
@[simp] theorem setPsh_bus : (s.setPsh v).bus = s.bus := rfl
@[simp] theorem setPsh_irq : (s.setPsh v).irq = s.irq := rfl
@[simp] theorem setPsh_byteAt (p : Addr) : (s.setPsh v).byteAt p = s.byteAt p := rfl
@[simp] theorem setPsh_kindAt (p : Addr) : (s.setPsh v).kindAt p = s.kindAt p := rfl
end

section
variable (s : State) (v : BitVec 3)
@[simp] theorem setIpl_a : (s.setIpl v).a = s.a := rfl
@[simp] theorem setIpl_b : (s.setIpl v).b = s.b := rfl
@[simp] theorem setIpl_x : (s.setIpl v).x = s.x := rfl
@[simp] theorem setIpl_y : (s.setIpl v).y = s.y := rfl
@[simp] theorem setIpl_sp : (s.setIpl v).sp = s.sp := rfl
@[simp] theorem setIpl_pc : (s.setIpl v).pc = s.pc := rfl
@[simp] theorem setIpl_pg : (s.setIpl v).pg = s.pg := rfl
@[simp] theorem setIpl_dt : (s.setIpl v).dt = s.dt := rfl
@[simp] theorem setIpl_dpr : (s.setIpl v).dpr = s.dpr := rfl
@[simp] theorem setIpl_run : (s.setIpl v).run = s.run := rfl
@[simp] theorem setIpl_mem : (s.setIpl v).mem = s.mem := rfl
@[simp] theorem setIpl_chip : (s.setIpl v).chip = s.chip := rfl
@[simp] theorem setIpl_bus : (s.setIpl v).bus = s.bus := rfl
@[simp] theorem setIpl_irq : (s.setIpl v).irq = s.irq := rfl
@[simp] theorem setIpl_byteAt (p : Addr) : (s.setIpl v).byteAt p = s.byteAt p := rfl
@[simp] theorem setIpl_kindAt (p : Addr) : (s.setIpl v).kindAt p = s.kindAt p := rfl
end

/-! ### The flags and IPL after an update of PS -/

/-- A flag after one flag is written. -/
@[simp] theorem flag_setFlag (s : State) (f g : Flag) (v : Bool) :
    (s.setFlag f v).flag g = if g = f then v else s.flag g := by
  cases f <;> cases g <;> cases v <;> simp [State.flag, State.setFlag, putFlag, flagMask, flagBit]

@[simp] theorem ipl_setFlag (s : State) (f : Flag) (v : Bool) : (s.setFlag f v).ipl = s.ipl := by
  apply BitVec.eq_of_getLsbD_eq
  intro i hi
  have h : i = 0 ∨ i = 1 ∨ i = 2 := by omega
  rcases h with rfl | rfl | rfl <;> cases f <;> cases v <;>
    simp [State.ipl, State.setFlag, putFlag, flagMask, flagBit]

/-- The flags after N and Z are written. -/
theorem flag_setNZ (s : State) (w : Width) (v : Word) (g : Flag) :
    (s.setNZ w v).flag g = if g = .z then isZero w v else if g = .n then msb w v else s.flag g := by
  simp [State.setNZ]

@[simp] theorem flag_setNZ_n (s : State) (w : Width) (v : Word) : (s.setNZ w v).flag .n = msb w v := by
  simp [flag_setNZ]

@[simp] theorem flag_setNZ_z (s : State) (w : Width) (v : Word) : (s.setNZ w v).flag .z = isZero w v := by
  simp [flag_setNZ]

@[simp] theorem ipl_setNZ (s : State) (w : Width) (v : Word) : (s.setNZ w v).ipl = s.ipl := by
  simp [State.setNZ]

/-- The flags after PSL is written: the bits of the byte. -/
@[simp] theorem flag_setPsl (s : State) (v : Byte) (g : Flag) : (s.setPsl v).flag g = v.getLsbD (flagBit g) := by
  simp only [State.flag, State.setPsl, setPs_ps, BitVec.getLsbD_append]
  cases g <;> simp [flagBit]

@[simp] theorem ipl_setPsl (s : State) (v : Byte) : (s.setPsl v).ipl = s.ipl := by
  apply BitVec.eq_of_getLsbD_eq
  intro i hi
  simp only [State.ipl, State.setPsl, setPs_ps, BitVec.getLsbD_append, BitVec.getLsbD_extractLsb']
  simp [hi]

/-- A flag is its bit of PSL. -/
theorem psl_getLsbD (s : State) (g : Flag) : s.psl.getLsbD (flagBit g) = s.flag g := by
  cases g <;> simp [State.psl, State.flag, flagBit]

@[simp] theorem flag_setIpl (s : State) (v : BitVec 3) (g : Flag) : (s.setIpl v).flag g = s.flag g := by
  simp only [State.flag, State.setIpl, State.psl, setPs_ps, BitVec.getLsbD_append, BitVec.getLsbD_extractLsb']
  cases g <;> simp [flagBit]

@[simp] theorem ipl_setIpl (s : State) (v : BitVec 3) : (s.setIpl v).ipl = v := by
  apply BitVec.eq_of_getLsbD_eq
  intro i hi
  simp only [State.ipl, State.setIpl, setPs_ps, BitVec.getLsbD_append, BitVec.getLsbD_extractLsb']
  simp [hi]

@[simp] theorem flag_setPsh (s : State) (v : Byte) (g : Flag) : (s.setPsh v).flag g = s.flag g :=
  flag_setIpl s _ g

@[simp] theorem ipl_setPsh (s : State) (v : Byte) : (s.setPsh v).ipl = v.extractLsb' 0 3 := ipl_setIpl s _

/-- PS is IPL and PSL, and nothing more (R36). -/
theorem ps_eq_append (s : State) : s.ipl ++ s.psl = s.ps := by
  apply BitVec.eq_of_getLsbD_eq
  intro i hi
  simp only [State.ipl, State.psl, BitVec.getLsbD_append, BitVec.getLsbD_extractLsb']
  by_cases h : i < 8
  · simp [h]
  · have h1 : i - 8 < 3 := by omega
    have h2 : 8 + (i - 8) = i := by omega
    simp [h, h1, h2]

/-! ### The accumulators and the program counter -/

@[simp] theorem setAcc_acc (s : State) (r : Acc) (v : Word) : (s.setAcc r v).acc r = v := by cases r <;> rfl

theorem acc_setAcc (s : State) (r q : Acc) (v : Word) : (s.setAcc r v).acc q = if q = r then v else s.acc q := by
  cases r <;> cases q <;> rfl

/-- A write of an accumulator is a write of one of the two fields. -/
theorem setAcc_cases (s : State) (r : Acc) (v : Word) :
    (r = .a ∧ s.setAcc r v = s.setA v) ∨ (r = .b ∧ s.setAcc r v = s.setB v) := by
  cases r
  · exact .inl ⟨rfl, rfl⟩
  · exact .inr ⟨rfl, rfl⟩

/-- The two halves of a 24-bit address. -/
theorem mkAddr_bank_offs (t : Addr) : mkAddr (addrBank t) (addrOffs t) = t := by
  apply BitVec.eq_of_getLsbD_eq
  intro i hi
  simp only [mkAddr, addrBank, addrOffs, BitVec.getLsbD_append, BitVec.getLsbD_extractLsb']
  by_cases h : i < 16
  · simp [h]
  · have h1 : i - 16 < 8 := by omega
    have h2 : 16 + (i - 16) = i := by omega
    simp [h, h1, h2]

/-- Going to an address makes it `PG:PC`. -/
@[simp] theorem goto_pcAddr (s : State) (t : Addr) : (s.goto t).pcAddr = t := mkAddr_bank_offs t

/-- The address of a bank and an offset, as a number (R11). -/
theorem mkAddr_toNat (k : Byte) (o : Word) : (mkAddr k o).toNat = k.toNat * 65536 + o.toNat := by
  simp only [mkAddr, BitVec.toNat_append]
  rw [Nat.shiftLeft_eq, ← Nat.shiftLeft_eq, ← Nat.shiftLeft_add_eq_or_of_lt o.isLt, Nat.shiftLeft_eq]

/-- A little-endian word as a number (R64). -/
theorem mkWord_toNat (hi lo : Byte) : (mkWord hi lo).toNat = hi.toNat * 256 + lo.toNat := by
  simp only [mkWord, BitVec.toNat_append]
  rw [← Nat.shiftLeft_add_eq_or_of_lt lo.isLt, Nat.shiftLeft_eq]

@[simp] theorem loByte_mkWord (hi lo : Byte) : loByte (mkWord hi lo) = lo := by
  apply BitVec.eq_of_getLsbD_eq
  intro i hi'
  simp only [loByte, mkWord, BitVec.getLsbD_append, BitVec.getLsbD_extractLsb']
  simp [hi']

@[simp] theorem hiByte_mkWord (hi lo : Byte) : hiByte (mkWord hi lo) = hi := by
  apply BitVec.eq_of_getLsbD_eq
  intro i hi'
  simp only [hiByte, mkWord, BitVec.getLsbD_append, BitVec.getLsbD_extractLsb']
  simp [hi']

@[simp] theorem mkWord_hi_lo (v : Word) : mkWord (hiByte v) (loByte v) = v := by
  apply BitVec.eq_of_getLsbD_eq
  intro i hi
  simp only [mkWord, hiByte, loByte, BitVec.getLsbD_append, BitVec.getLsbD_extractLsb']
  by_cases h : i < 8
  · simp [h]
  · have h1 : i - 8 < 8 := by omega
    have h2 : 8 + (i - 8) = i := by omega
    simp [h, h1, h2]

end Sys2Proof.Machine
end

