-- ==== Sys2Proof/Laws/Ops.lean ====
section
/-! SUPPORT. For each shared operation one lemma that says all it can do.  An operation that reads changes the bus
record alone; a write changes the bus record and the bytes it is meant for; a push or a pull moves S beside. -/

namespace Sys2Proof.Machine

/-! ### The two parts of a read, without the pairs -/

section
variable (w : Width) (a : Addr) (s : State)
theorem drawByte_snd : (drawByte s).2 = s.drawn := rfl
theorem read16_fst : (read16 a s).1 = mkWord (readByte (a + 1) (readByte a s).2).1 (readByte a s).1 := rfl
theorem read16_snd : (read16 a s).2 = (readByte (a + 1) (readByte a s).2).2 := rfl
theorem read24_fst : (read24 a s).1 = mkAddr (readByte (a + 2) (read16 a s).2).1 (read16 a s).1 := rfl
theorem read24_snd : (read24 a s).2 = (readByte (a + 2) (read16 a s).2).2 := rfl
theorem readMem_w8_fst : (readMem .w8 a s).1 = (readByte a s).1.setWidth 16 := rfl
theorem readMem_w8_snd : (readMem .w8 a s).2 = (readByte a s).2 := rfl
theorem readMem_w16 : readMem .w16 a s = read16 a s := rfl
theorem pull16_fst : (pull16 s).1 = mkWord (pull8 (pull8 s).2).1 (pull8 s).1 := rfl
theorem pull16_snd : (pull16 s).2 = (pull8 (pull8 s).2).2 := rfl
theorem pullW_w8_fst : (pullW .w8 s).1 = (pull8 s).1.setWidth 16 := rfl
theorem pullW_w8_snd : (pullW .w8 s).2 = (pull8 s).2 := rfl
theorem pullW_w16 : pullW .w16 s = pull16 s := rfl
theorem pullPs_eq : pullPs s = ((pull8 (pull8 s).2).2.setPsl (pull8 s).1).setPsh (pull8 (pull8 s).2).1 := rfl
end

theorem loadMode_fst (w : Width) (mode : Mode) (s : State) :
    (loadMode w mode s).1 = (readMem w (effAddr mode s).1 (effAddr mode s).2).1 := rfl

theorem loadMode_snd (w : Width) (mode : Mode) (s : State) :
    (loadMode w mode s).2 = (readMem w (effAddr mode s).1 (effAddr mode s).2).2 := rfl

theorem storeMode_eq (w : Width) (mode : Mode) (v : Word) (s : State) :
    storeMode w mode v s = writeMem w (effAddr mode s).1 v (effAddr mode s).2 := rfl

theorem modify_acc (w : Width) (r : Acc) (f : Word → Word) (s : State) :
    modify w (.acc r) f s = (s.readAcc w r, s.writeAcc w r (f (s.readAcc w r))) := rfl

theorem modify_mem (w : Width) (mode : Mode) (f : Word → Word) (s : State) :
    modify w (.mem mode) f s =
      ((loadMode w mode s).1,
        writeMem w (effAddr mode s).1 (f (loadMode w mode s).1) (loadMode w mode s).2) := rfl

theorem enterVector_eq (v : Word) (s : State) :
    enterVector v s = ((read16 (mkAddr 0#8 v) s).2.setPc (read16 (mkAddr 0#8 v) s).1).setPg 0#8 := rfl

/-! ### Operations that read: the bus record alone changes -/

@[simp] theorem setBus_setBus (s : State) (b c : Bus) : (s.setBus b).setBus c = s.setBus c := rfl
@[simp] theorem setBus_self (s : State) : s.setBus s.bus = s := rfl
@[simp] theorem setMem_setMem (s : State) (b c : Memory) : (s.setMem b).setMem c = s.setMem c := rfl
theorem setMem_setBus (s : State) (m : Memory) (b : Bus) : (s.setBus b).setMem m = (s.setMem m).setBus b := rfl
@[simp] theorem setSp_setSp (s : State) (v w : Word) : (s.setSp v).setSp w = s.setSp w := rfl
theorem setBus_setSp (s : State) (v : Word) (b : Bus) : (s.setBus b).setSp v = (s.setSp v).setBus b := rfl
theorem setMem_setSp (s : State) (v : Word) (m : Memory) : (s.setMem m).setSp v = (s.setSp v).setMem m := rfl

theorem touch_spec (a : Addr) (s : State) : ∃ b, s.touch a = s.setBus b := by
  unfold State.touch
  split
  · exact ⟨_, rfl⟩
  · exact ⟨s.bus, rfl⟩

theorem readByte_spec (a : Addr) (s : State) : ∃ b, (readByte a s).2 = s.setBus b := by
  obtain ⟨b, hb⟩ := touch_spec a s
  unfold readByte
  rw [hb]
  dsimp only
  split
  · exact ⟨b, rfl⟩
  · exact ⟨b, rfl⟩
  · exact ⟨_, rfl⟩
  · exact ⟨_, rfl⟩

theorem read16_spec (a : Addr) (s : State) : ∃ b, (read16 a s).2 = s.setBus b := by
  obtain ⟨b, hb⟩ := readByte_spec a s
  obtain ⟨c, hc⟩ := readByte_spec (a + 1) (readByte a s).2
  exact ⟨c, by rw [read16_snd, hc, hb, setBus_setBus]⟩

theorem read24_spec (a : Addr) (s : State) : ∃ b, (read24 a s).2 = s.setBus b := by
  obtain ⟨b, hb⟩ := read16_spec a s
  obtain ⟨c, hc⟩ := readByte_spec (a + 2) (read16 a s).2
  exact ⟨c, by rw [read24_snd, hc, hb, setBus_setBus]⟩

theorem readMem_spec (w : Width) (a : Addr) (s : State) : ∃ b, (readMem w a s).2 = s.setBus b := by
  cases w
  · exact readByte_spec a s
  · exact read16_spec a s

theorem effAddr_spec (mode : Mode) (s : State) : ∃ b, (effAddr mode s).2 = s.setBus b := by
  cases mode with
  | dInd dd => exact read16_spec (s.directPage (zext24b dd)) s
  | dXInd dd => exact read16_spec (s.directPage (zext24b dd + zext24 s.indexX)) s
  | dIndY dd => exact read16_spec (s.directPage (zext24b dd)) s
  | dIndL dd => exact read24_spec (s.directPage (zext24b dd)) s
  | dIndLY dd => exact read24_spec (s.directPage (zext24b dd)) s
  | srIndY nn => exact read16_spec (s.stackRel nn) s
  | _ => exact ⟨s.bus, rfl⟩

theorem loadMode_spec (w : Width) (mode : Mode) (s : State) : ∃ b, (loadMode w mode s).2 = s.setBus b := by
  obtain ⟨b, hb⟩ := effAddr_spec mode s
  obtain ⟨c, hc⟩ := readMem_spec w (effAddr mode s).1 (effAddr mode s).2
  exact ⟨c, by rw [loadMode_snd, hc, hb, setBus_setBus]⟩

theorem operand_spec (w : Width) (o : Operand) (s : State) : ∃ b, (operand w o s).2 = s.setBus b := by
  cases o
  · exact ⟨s.bus, rfl⟩
  · exact loadMode_spec w _ s

/-! ### The size of what a read gives -/

theorem narrow_toNat (w : Width) (v : Word) : (narrow w v).toNat = v.toNat % 2 ^ bitsOf w := by
  have h := v.isLt
  cases w
  · have : (0x00FF#16).toNat = 2 ^ 8 - 1 := rfl
    rw [narrow, BitVec.toNat_and, this, Nat.and_two_pow_sub_one_eq_mod]
    rfl
  · simp only [narrow, bitsOf]
    omega

theorem narrow_lt (w : Width) (v : Word) : (narrow w v).toNat < 2 ^ bitsOf w := by
  rw [narrow_toNat]
  exact Nat.mod_lt _ (Nat.two_pow_pos _)

theorem readMem_lt (w : Width) (a : Addr) (s : State) : (readMem w a s).1.toNat < 2 ^ bitsOf w := by
  cases w
  · have h := (readByte a s).1.isLt
    rw [readMem_w8_fst, BitVec.toNat_setWidth, bitsOf]
    omega
  · exact (read16 a s).1.isLt

/-- An operand is a W-bit value (R18). -/
theorem operand_lt (w : Width) (o : Operand) (s : State) : (operand w o s).1.toNat < 2 ^ bitsOf w := by
  cases o
  · exact narrow_lt w _
  · exact readMem_lt w _ _

theorem pull8_spec (s : State) : ∃ b, (pull8 s).2 = (s.setSp (s.sp + 1)).setBus b := readByte_spec _ _

theorem pull16_spec (s : State) : ∃ b, (pull16 s).2 = (s.setSp (s.sp + 2)).setBus b := by
  obtain ⟨b, hb⟩ := pull8_spec s
  obtain ⟨c, hc⟩ := pull8_spec (pull8 s).2
  refine ⟨c, ?_⟩
  rw [pull16_snd, hc, hb, setBus_setSp, setBus_setBus, setSp_setSp, setBus_sp, setSp_sp, BitVec.add_assoc]
  rfl

theorem pullW_spec (w : Width) (s : State) :
    ∃ b, (pullW w s).2 = (s.setSp (s.sp + BitVec.ofNat 16 (bitsOf w / 8))).setBus b := by
  cases w
  · exact pull8_spec s
  · exact pull16_spec s

theorem pullW_lt (w : Width) (s : State) : (pullW w s).1.toNat < 2 ^ bitsOf w := by
  cases w
  · have h := (pull8 s).1.isLt
    rw [pullW_w8_fst, BitVec.toNat_setWidth, bitsOf]
    omega
  · exact (pull16 s).1.isLt

/-! ### Operations that write: the bus record and the bytes written -/

theorem get_addr_ne (p a : Addr) (h : p ≠ a) : p.toNat ≠ a.toNat := fun e => h (BitVec.eq_of_toNat_eq e)

/-- A byte written: RAM takes it; nothing else of memory changes, and the canonical form stays. -/
theorem writeByte_spec (a : Addr) (v : Byte) (s : State) :
    ∃ m b, writeByte a v s = (s.setMem m).setBus b ∧ (s.mem.wf = true → m.wf = true) ∧
      ∀ p : Addr, m.get p.toNat = if p = a ∧ s.kindAt a = .ram then v else s.byteAt p := by
  obtain ⟨b, hb⟩ := touch_spec a s
  unfold writeByte
  rw [hb]
  dsimp only [setBus_kindAt]
  cases hk : s.kindAt a
  · refine ⟨s.mem.set a.toNat v, b, rfl, fun h => Memory.wf_set _ _ _ h a.isLt, fun p => ?_⟩
    by_cases hp : p = a
    · subst hp
      simp
    · rw [Memory.get_set_other _ _ _ _ (get_addr_ne p a hp)]
      simp [hp, State.byteAt]
  · exact ⟨s.mem, b, rfl, id, fun p => by simp [State.byteAt]⟩
  · exact ⟨s.mem, _, rfl, id, fun p => by simp [State.byteAt]⟩
  · exact ⟨s.mem, b, rfl, id, fun p => by simp [State.byteAt]⟩

theorem addr_succ_ne (a : Addr) : a + 1 ≠ a := by
  intro h
  have := congrArg BitVec.toNat h
  simp only [BitVec.toNat_add] at this
  have ha := a.isLt
  have h1 : (1 : Addr).toNat = 1 := rfl
  omega

theorem write16_spec (a : Addr) (v : Word) (s : State) :
    ∃ m b, write16 a v s = (s.setMem m).setBus b ∧ (s.mem.wf = true → m.wf = true) ∧
      ∀ p : Addr, m.get p.toNat =
        if p = a + 1 ∧ s.kindAt (a + 1) = .ram then hiByte v
        else if p = a ∧ s.kindAt a = .ram then loByte v else s.byteAt p := by
  obtain ⟨m, b, h, hw, hg⟩ := writeByte_spec a (loByte v) s
  obtain ⟨m', b', h', hw', hg'⟩ := writeByte_spec (a + 1) (hiByte v) (writeByte a (loByte v) s)
  refine ⟨m', b', ?_, ?_, fun p => ?_⟩
  · rw [write16, h', h]
    rfl
  · rw [h] at hw'
    exact fun hs => hw' (hw hs)
  · have hk : (writeByte a (loByte v) s).kindAt (a + 1) = s.kindAt (a + 1) := by rw [h]; rfl
    have hb : (writeByte a (loByte v) s).byteAt p = m.get p.toNat := by rw [h]; rfl
    rw [hg']
    simp only [hk, hb, hg]

/-- `Mem_W(ea) <- v`: the bytes at the two addresses of the datum, and no other byte. -/
theorem writeMem_spec (w : Width) (a : Addr) (v : Word) (s : State) :
    ∃ m b, writeMem w a v s = (s.setMem m).setBus b ∧ (s.mem.wf = true → m.wf = true) ∧
      ∀ p : Addr, m.get p.toNat =
        if w = .w16 ∧ p = a + 1 ∧ s.kindAt (a + 1) = .ram then hiByte v
        else if p = a ∧ s.kindAt a = .ram then loByte v else s.byteAt p := by
  cases w
  · simpa [writeMem] using writeByte_spec a (loByte v) s
  · simpa [writeMem] using write16_spec a v s

/-! ### The stack -/

/-- `k` below `sp`, for `k` less than the size of a bank: the addresses are different. -/
theorem stackAddr_inj (sp : Word) (j k : Nat) (hj : j < 65536) (hk : k < 65536)
    (h : mkAddr 0#8 (sp - BitVec.ofNat 16 j) = mkAddr 0#8 (sp - BitVec.ofNat 16 k)) : j = k := by
  have h' := congrArg BitVec.toNat h
  rw [mkAddr_toNat, mkAddr_toNat] at h'
  simp only [BitVec.toNat_sub, BitVec.toNat_ofNat] at h'
  have := sp.isLt
  omega

/-- The bytes of a list pushed in order. -/
def pushAll : List Byte → State → State
  | [], s => s
  | v :: rest, s => pushAll rest (push8 v s)

theorem pushAll_append (xs ys : List Byte) (s : State) : pushAll (xs ++ ys) s = pushAll ys (pushAll xs s) := by
  induction xs generalizing s with
  | nil => rfl
  | cons x xs ih => exact ih (push8 x s)

theorem push16_eq (v : Word) (s : State) : push16 v s = pushAll [hiByte v, loByte v] s := rfl
theorem pushPs_eq (s : State) : pushPs s = pushAll [s.psh, s.psl] s := rfl

theorem push8_spec (v : Byte) (s : State) :
    ∃ m b, push8 v s = ((s.setMem m).setBus b).setSp (s.sp - 1) ∧ (s.mem.wf = true → m.wf = true) ∧
      ∀ p : Addr, m.get p.toNat =
        if p = mkAddr 0#8 s.sp ∧ s.kindAt (mkAddr 0#8 s.sp) = .ram then v else s.byteAt p := by
  obtain ⟨m, b, h, hw, hg⟩ := writeByte_spec s.stackAddr v s
  exact ⟨m, b, by rw [push8, h], hw, hg⟩

/-- Bytes pushed: S is lower by their number, each RAM location of the stack holds its byte, every other byte of
memory is as before, and the canonical form stays. -/
theorem pushAll_spec (bs : List Byte) (s : State) (hlen : bs.length ≤ 65536) :
    ∃ m b, pushAll bs s = ((s.setMem m).setBus b).setSp (s.sp - BitVec.ofNat 16 bs.length) ∧
      (s.mem.wf = true → m.wf = true) ∧
      (∀ k v, bs[k]? = some v → m.get (mkAddr 0#8 (s.sp - BitVec.ofNat 16 k)).toNat =
        if s.kindAt (mkAddr 0#8 (s.sp - BitVec.ofNat 16 k)) = .ram then v
        else s.byteAt (mkAddr 0#8 (s.sp - BitVec.ofNat 16 k))) ∧
      (∀ p : Addr, (∀ k, k < bs.length → p ≠ mkAddr 0#8 (s.sp - BitVec.ofNat 16 k)) →
        m.get p.toNat = s.byteAt p) := by
  induction bs generalizing s with
  | nil =>
    refine ⟨s.mem, s.bus, ?_, id, fun k v h => by simp at h, fun p _ => rfl⟩
    simp [pushAll, State.setMem, State.setBus, State.setSp]
  | cons x xs ih =>
    obtain ⟨m, b, h, hw, hg⟩ := push8_spec x s
    have hl : xs.length + 1 ≤ 65536 := by simpa using hlen
    obtain ⟨m', b', h', hw', hin, hout⟩ := ih (push8 x s) (by omega)
    have hsp : (push8 x s).sp = s.sp - 1 := by rw [h]; rfl
    have hkind : ∀ p, (push8 x s).kindAt p = s.kindAt p := by intro p; rw [h]; rfl
    have hbyte : ∀ p : Addr, (push8 x s).byteAt p = m.get p.toNat := by intro p; rw [h]; rfl
    have hstep : ∀ k, (push8 x s).sp - BitVec.ofNat 16 k = s.sp - BitVec.ofNat 16 (k + 1) := by
      intro k
      rw [hsp]
      apply BitVec.eq_of_toNat_eq
      have := s.sp.isLt
      have h1 : (1 : Word).toNat = 1 := rfl
      simp only [BitVec.toNat_sub, BitVec.toNat_ofNat]
      omega
    refine ⟨m', b', ?_, ?_, ?_, ?_⟩
    · rw [pushAll, h', hstep, h]
      rfl
    · rw [h] at hw'
      exact fun hs => hw' (hw hs)
    · intro k v hk
      cases k with
      | zero =>
        have hv : x = v := by simpa using hk
        subst hv
        rw [hout _ (fun j hj he => ?_), hbyte, hg]
        · simp
        · rw [hstep] at he
          have := stackAddr_inj s.sp 0 (j + 1) (by omega) (by omega) he
          omega
      | succ j =>
        have hj : xs[j]? = some v := by simpa using hk
        have := hin j v hj
        rw [hstep, hkind, hbyte, hg] at this
        rw [this]
        have hlt : j < xs.length := (List.getElem?_eq_some_iff.mp hj).1
        have hne : mkAddr 0#8 (s.sp - BitVec.ofNat 16 (j + 1)) ≠ mkAddr 0#8 s.sp := by
          intro he
          have := stackAddr_inj s.sp (j + 1) 0 (by omega) (by omega) (by simpa using he)
          omega
        simp [hne]
    · intro p hp
      rw [hout p (fun k hk => ?_), hbyte, hg]
      · have := hp 0 (by simp)
        simp only [BitVec.sub_zero] at this
        simp [this]
      · rw [hstep]
        exact hp (k + 1) (by simpa using hk)

/-! ### Interrupts (R410) -/

theorem setFlag_eq (s : State) (f : Flag) (v : Bool) : s.setFlag f v = s.setPs (putFlag s.ps f v) := rfl

/-- The frame's five bytes, as one list of pushes. -/
theorem pushFrame_eq (s : State) :
    pushPs (push16 s.pc (push8 s.pg s)) = pushAll [s.pg, hiByte s.pc, loByte s.pc, s.psh, s.psl] s := by
  obtain ⟨m, c, h, -, -, -⟩ := pushAll_spec [s.pg, hiByte s.pc, loByte s.pc] s (by simp)
  have h1 : push16 s.pc (push8 s.pg s) = pushAll [s.pg, hiByte s.pc, loByte s.pc] s := rfl
  have h2 : [s.pg, hiByte s.pc, loByte s.pc, s.psh, s.psl] =
    [s.pg, hiByte s.pc, loByte s.pc] ++ [s.psh, s.psl] := rfl
  rw [h2, pushAll_append, h1, pushPs_eq, h]
  rfl

/-- PS as interrupt entry leaves it: I = 1, IPL the new level if there is one. -/
def entryPs (level : Option (BitVec 3)) (s : State) : BitVec 11 := ((s.setFlag .i true).atLevel level).ps

theorem flag_entryPs (level : Option (BitVec 3)) (s : State) (g : Flag) :
    (entryPs level s).getLsbD (flagBit g) = if g = .i then true else s.flag g := by
  cases level with
  | none => exact flag_setFlag s .i g true
  | some l => exact (flag_setIpl (s.setFlag .i true) l g).trans (flag_setFlag s .i g true)

theorem ipl_entryPs (level : Option (BitVec 3)) (s : State) :
    (entryPs level s).extractLsb' 8 3 = level.getD s.ipl := by
  cases level with
  | none => exact ipl_setFlag s .i true
  | some l => exact ipl_setIpl (s.setFlag .i true) l

/-- Taking an interrupt: the five bytes of the frame pushed, PS as `entryPs`, PG = 00, PC the word at the vector as
the memory then reads, the CPU running, and nothing else. -/
theorem takeInterrupt_spec (vector : Word) (level : Option (BitVec 3)) (s : State) :
    ∃ t u b, t = pushAll [s.pg, hiByte s.pc, loByte s.pc, s.psh, s.psl] s ∧
      u = t.setPs (entryPs level s) ∧ (read16 (mkAddr 0#8 vector) u).2 = u.setBus b ∧
      takeInterrupt vector level s =
        (((u.setBus b).setPc (read16 (mkAddr 0#8 vector) u).1).setPg 0#8).setRun .running := by
  have hps : (pushAll [s.pg, hiByte s.pc, loByte s.pc, s.psh, s.psl] s).ps = s.ps := by
    obtain ⟨m, c, h, -⟩ := pushAll_spec [s.pg, hiByte s.pc, loByte s.pc, s.psh, s.psl] s (by simp)
    rw [h]
    rfl
  have hpc : (push8 s.pg s).pc = s.pc := by
    obtain ⟨m, c, h, -⟩ := push8_spec s.pg s
    rw [h]
    rfl
  have hlevel : ((pushAll [s.pg, hiByte s.pc, loByte s.pc, s.psh, s.psl] s).setFlag .i true).atLevel level =
      (pushAll [s.pg, hiByte s.pc, loByte s.pc, s.psh, s.psl] s).setPs (entryPs level s) := by
    generalize pushAll [s.pg, hiByte s.pc, loByte s.pc, s.psh, s.psl] s = t at hps
    cases level <;>
      simp [entryPs, State.atLevel, State.setFlag, State.setIpl, State.psl, State.setPs, hps]
  obtain ⟨b, hb⟩ := read16_spec (mkAddr 0#8 vector)
    ((pushAll [s.pg, hiByte s.pc, loByte s.pc, s.psh, s.psl] s).setPs (entryPs level s))
  refine ⟨_, _, b, rfl, rfl, hb, ?_⟩
  unfold takeInterrupt
  dsimp only
  rw [hpc, pushFrame_eq, hlevel, enterVector_eq, hb]

end Sys2Proof.Machine
end

