-- ==== Sys2Proof/Laws/Values.lean ====
section
/-! SUPPORT. The values that the operations compute, as numbers: what is written at a width, what N and Z show, and
the arithmetic, in the terms of the statements. -/

namespace Sys2Proof.Machine

open Sys2Proof.Safety

/-! ### Values at a width -/

theorem valueOf_lt (w : Width) (v : Word) : valueOf w v < 2 ^ bitsOf w := Nat.mod_lt _ (Nat.two_pow_pos _)

theorem valueOf_of_lt (w : Width) (v : Word) (h : v.toNat < 2 ^ bitsOf w) : valueOf w v = v.toNat :=
  Nat.mod_eq_of_lt h

theorem valueOf_narrow (w : Width) (v : Word) : valueOf w (narrow w v) = valueOf w v := by
  rw [valueOf, narrow_toNat, Nat.mod_mod]
  rfl

theorem narrow_toNat_valueOf (w : Width) (v : Word) : (narrow w v).toNat = valueOf w v := narrow_toNat w v

/-- A register written at a width holds the W bits of the value (`wr_W` of R18). -/
theorem merge_written (w : Width) (old v : Word) : WrittenAs w old (merge w old v) (valueOf w v) := by
  cases w
  · have h : (merge .w8 old v).setWidth 8 = v.setWidth 8 := by
      apply BitVec.eq_of_getLsbD_eq
      intro i hi
      interval_cases i <;> simp [merge]
    refine ⟨?_, fun _ => ?_⟩
    · have := congrArg BitVec.toNat h
      simpa [BitVec.toNat_setWidth, valueOf, bitsOf] using this
    · apply BitVec.eq_of_getLsbD_eq
      intro i hi
      simp only [hiByte, merge, BitVec.getLsbD_extractLsb', BitVec.getLsbD_or, BitVec.getLsbD_and]
      interval_cases i <;> simp
  · exact ⟨rfl, by simp⟩

theorem merge_written_lt (w : Width) (old v : Word) (h : v.toNat < 2 ^ bitsOf w) :
    WrittenAs w old (merge w old v) v.toNat := by
  have := merge_written w old v
  rwa [valueOf_of_lt w v h] at this

/-! ### N and Z -/

theorem msb_eq (w : Width) (v : Word) : msb w v = decide (2 ^ (bitsOf w - 1) ≤ valueOf w v) := by
  cases w
  all_goals
    simp only [msb, bitsOf, valueOf]
    rw [BitVec.getLsbD, Nat.testBit_eq_decide_div_mod_eq]
    congr 1
    apply propext
    have := v.isLt
    omega

theorem isZero_eq (w : Width) (v : Word) : isZero w v = decide (valueOf w v = 0) := by
  rw [isZero, Bool.eq_iff_iff, beq_iff_eq, decide_eq_true_eq, ← BitVec.toNat_inj, narrow_toNat]
  rfl

/-- `setNZ_W` of R18. -/
theorem showsNZ_setNZ (w : Width) (v : Word) (s : State) : ShowsNZ w (valueOf w v) (s.setNZ w v) :=
  ⟨by rw [flag_setNZ_n, msb_eq], by rw [flag_setNZ_z, isZero_eq]⟩

/-! ### The frame: each update is harmless when what it writes is in the list -/

theorem frame_refl (regs : List Reg) (flags : List Flag) (stored : Addr → Prop) (s : State) :
    Frame regs flags stored s s :=
  ⟨⟨fun _ _ => rfl, fun _ _ => rfl, rfl, rfl, rfl⟩, fun _ _ => rfl, rfl⟩

section
variable {regs : List Reg} {flags : List Flag} {stored : Addr → Prop} {s t : State}

theorem frame_setBus (b : Bus) (h : Frame regs flags stored s t) : Frame regs flags stored s (t.setBus b) := h

theorem frame_setReg {u : State} (h : Frame regs flags stored s t) (q : Reg) (hq : q ∈ regs) (hr : ∀ r, r ≠ q → regVal u r = regVal t r)
    (hu : u.mem = t.mem ∧ u.ps = t.ps ∧ u.run = t.run ∧ u.chip = t.chip ∧ u.irq = t.irq) :
    Frame regs flags stored s u := by
  obtain ⟨hm, hp, hn, hc, hi⟩ := hu
  obtain ⟨⟨h1, h2, h3, h4, h5⟩, h6, h7⟩ := h
  refine ⟨⟨fun r hr' => ?_, fun p hp' => ?_, hn.trans h3, hc.trans h4, hi.trans h5⟩, fun f hf => ?_, ?_⟩
  · rw [hr r (fun e => hr' (e ▸ hq)), h1 r hr']
  · rw [State.byteAt, hm]
    exact h2 p hp'
  · rw [State.flag, hp]
    exact h6 f hf
  · rw [State.ipl, hp]
    exact h7

theorem frame_setA (v : Word) (hq : Reg.a ∈ regs) (h : Frame regs flags stored s t) :
    Frame regs flags stored s (t.setA v) :=
  frame_setReg h .a hq (fun r hr => by cases r <;> first | rfl | exact absurd rfl hr) ⟨rfl, rfl, rfl, rfl, rfl⟩

theorem frame_setB (v : Word) (hq : Reg.b ∈ regs) (h : Frame regs flags stored s t) :
    Frame regs flags stored s (t.setB v) :=
  frame_setReg h .b hq (fun r hr => by cases r <;> first | rfl | exact absurd rfl hr) ⟨rfl, rfl, rfl, rfl, rfl⟩

theorem frame_setAcc (q : Acc) (v : Word) (hq : accReg q ∈ regs) (h : Frame regs flags stored s t) :
    Frame regs flags stored s (t.setAcc q v) := by
  cases q
  · exact frame_setA v hq h
  · exact frame_setB v hq h

theorem frame_setX (v : Word) (hq : Reg.x ∈ regs) (h : Frame regs flags stored s t) :
    Frame regs flags stored s (t.setX v) :=
  frame_setReg h .x hq (fun r hr => by cases r <;> first | rfl | exact absurd rfl hr) ⟨rfl, rfl, rfl, rfl, rfl⟩

theorem frame_setY (v : Word) (hq : Reg.y ∈ regs) (h : Frame regs flags stored s t) :
    Frame regs flags stored s (t.setY v) :=
  frame_setReg h .y hq (fun r hr => by cases r <;> first | rfl | exact absurd rfl hr) ⟨rfl, rfl, rfl, rfl, rfl⟩

theorem frame_setSp (v : Word) (hq : Reg.sp ∈ regs) (h : Frame regs flags stored s t) :
    Frame regs flags stored s (t.setSp v) :=
  frame_setReg h .sp hq (fun r hr => by cases r <;> first | rfl | exact absurd rfl hr) ⟨rfl, rfl, rfl, rfl, rfl⟩

theorem frame_setPc (v : Word) (hq : Reg.pc ∈ regs) (h : Frame regs flags stored s t) :
    Frame regs flags stored s (t.setPc v) :=
  frame_setReg h .pc hq (fun r hr => by cases r <;> first | rfl | exact absurd rfl hr) ⟨rfl, rfl, rfl, rfl, rfl⟩

theorem frame_setPg (v : Byte) (hq : Reg.pg ∈ regs) (h : Frame regs flags stored s t) :
    Frame regs flags stored s (t.setPg v) :=
  frame_setReg h .pg hq (fun r hr => by cases r <;> first | rfl | exact absurd rfl hr) ⟨rfl, rfl, rfl, rfl, rfl⟩

theorem frame_setDt (v : Byte) (hq : Reg.dt ∈ regs) (h : Frame regs flags stored s t) :
    Frame regs flags stored s (t.setDt v) :=
  frame_setReg h .dt hq (fun r hr => by cases r <;> first | rfl | exact absurd rfl hr) ⟨rfl, rfl, rfl, rfl, rfl⟩

theorem frame_setDpr (v : Word) (hq : Reg.dpr ∈ regs) (h : Frame regs flags stored s t) :
    Frame regs flags stored s (t.setDpr v) :=
  frame_setReg h .dpr hq (fun r hr => by cases r <;> first | rfl | exact absurd rfl hr) ⟨rfl, rfl, rfl, rfl, rfl⟩

theorem frame_setFlag (f : Flag) (v : Bool) (hf : f ∈ flags) (h : Frame regs flags stored s t) :
    Frame regs flags stored s (t.setFlag f v) := by
  obtain ⟨⟨h1, h2, h3, h4, h5⟩, h6, h7⟩ := h
  refine ⟨⟨fun r hr => ?_, h2, h3, h4, h5⟩, fun g hg => ?_, ?_⟩
  · rw [← h1 r hr]
    cases r <;> rfl
  · have hgf : g ≠ f := fun e => hg (e ▸ hf)
    rw [flag_setFlag, if_neg hgf]
    exact h6 g hg
  · rw [ipl_setFlag]
    exact h7

theorem frame_setNZ (w : Width) (v : Word) (hn : Flag.n ∈ flags) (hz : Flag.z ∈ flags)
    (h : Frame regs flags stored s t) : Frame regs flags stored s (t.setNZ w v) :=
  frame_setFlag .z _ hz (frame_setFlag .n _ hn h)

theorem frame_setFlagFree (f : Flag) (hf : f ∈ flags) (h : Frame regs flags stored s t) :
    Frame regs flags stored s (t.setFlagFree f) :=
  frame_setFlag f _ hf (frame_setBus _ h)

theorem frame_setMem (m : Memory) (hm : ∀ p : Addr, ¬ stored p → m.get p.toNat = t.byteAt p)
    (h : Frame regs flags stored s t) : Frame regs flags stored s (t.setMem m) := by
  obtain ⟨⟨h1, h2, h3, h4, h5⟩, h6, h7⟩ := h
  refine ⟨⟨fun r hr => ?_, fun p hp => (hm p hp).trans (h2 p hp), h3, h4, h5⟩, h6, h7⟩
  rw [← h1 r hr]
  cases r <;> rfl

/-- A register-only update of memory-free operations keeps the bus. -/
theorem frame_nowhere_stored (h : Frame regs flags nowhere s t) : Frame regs flags stored s t :=
  ⟨⟨h.1.1, fun p _ => h.1.2.1 p id, h.1.2.2⟩, h.2⟩

end

/-! ### Loads -/

section
variable (s : State) (b : Bus) (v : Word)

/-- What LDA and its like do with a W-bit value, after the bus has been used. -/
theorem loadAcc_spec (r : Acc) : LoadsAcc r (valueOf s.mWidth v) s (loadAcc r v (s.setBus b)) := by
  refine ⟨?_, showsNZ_setNZ s.mWidth v _, frame_setNZ _ _ (by simp) (by simp)
    (frame_setAcc r _ (by simp) (frame_setBus b (frame_refl _ _ _ s)))⟩
  have := merge_written s.mWidth (s.acc r) v
  cases r <;> exact this

theorem loadX_spec : LoadsX (valueOf s.xWidth v) s (loadX v (s.setBus b)) :=
  ⟨merge_written s.xWidth s.x v, showsNZ_setNZ s.xWidth v _, frame_setNZ _ _ (by simp) (by simp)
    (frame_setX _ (by simp) (frame_setBus b (frame_refl _ _ _ s)))⟩

theorem loadY_spec : LoadsY (valueOf s.xWidth v) s (loadY v (s.setBus b)) :=
  ⟨merge_written s.xWidth s.y v, showsNZ_setNZ s.xWidth v _, frame_setNZ _ _ (by simp) (by simp)
    (frame_setY _ (by simp) (frame_setBus b (frame_refl _ _ _ s)))⟩

end

/-! ### Stores -/

/-- A store of a W-bit datum, after the bus has been used. -/
theorem writeMem_stores (w : Width) (ea : Addr) (v : Word) (s : State) (b : Bus) :
    Stores w ea v s (writeMem w ea v (s.setBus b)) ∧
      Frame [] [] (span w ea) s (writeMem w ea v (s.setBus b)) := by
  obtain ⟨m, c, h, -, hg⟩ := writeMem_spec w ea v (s.setBus b)
  rw [h]
  refine ⟨⟨?_, fun hw => ?_⟩, frame_setBus _ (frame_setMem m (fun p hp => ?_)
    (frame_setBus _ (frame_refl _ _ _ _)))⟩
  · change m.get _ = _
    rw [hg]
    by_cases hk : s.kindAt ea = .ram <;> simp [hk]
  · change m.get _ = _
    rw [hg]
    simp [hw]
  · simp only [span, not_or, not_and] at hp
    rw [hg, if_neg (fun h => hp.2 h.1 h.2.1), if_neg (fun h => hp.1 h.1)]

/-- A store at the effective address of a mode. -/
theorem storeMode_result (w : Width) (mode : Mode) (v : Word) (s : State) :
    StoreResult w mode v s (storeMode w mode v s) := by
  obtain ⟨b, hb⟩ := effAddr_spec mode s
  rw [storeMode_eq, hb]
  exact writeMem_stores _ _ _ _ _

/-- Read, compute, write back: the datum in memory before and after. -/
theorem modify_result (w : Width) (mode : Mode) (f : Word → Word) (s : State) :
    StoreResult w mode (f (loadMode w mode s).1) s (modify w (.mem mode) f s).2 := by
  obtain ⟨b, hb⟩ := loadMode_spec w mode s
  rw [modify_mem]
  dsimp only
  rw [hb]
  exact writeMem_stores _ _ _ _ _

/-! ### Pushes and pulls -/

/-- Bytes pushed one after the other. -/
theorem pushAll_result (bs : List Byte) (s : State) (h : bs.length ≤ 65536) : PushResult bs s (pushAll bs s) := by
  obtain ⟨m, b, he, -, hin, hout⟩ := pushAll_spec bs s h
  rw [he]
  refine ⟨⟨rfl, fun k v hk => hin k v hk⟩, frame_setSp _ (by simp) (frame_setBus _ (frame_setMem m
    (fun p hp => hout p fun k hk e => hp ⟨k, hk, e⟩) (frame_refl _ _ _ _)))⟩

theorem push8_result (v : Byte) (s : State) : PushResult [v] s (push8 v s) := pushAll_result [v] s (by simp)

theorem push16_result (v : Word) (s : State) : PushResult [hiByte v, loByte v] s (push16 v s) :=
  pushAll_result [hiByte v, loByte v] s (by simp)

theorem pushW_eq (w : Width) (v : Word) (s : State) : pushW w v s = pushAll (pushBytes w v) s := by
  cases w <;> rfl

theorem pushW_result (w : Width) (v : Word) (s : State) : PushResult (pushBytes w v) s (pushW w v s) := by
  rw [pushW_eq]
  cases w
  · exact pushAll_result _ s (by simp [pushBytes])
  · exact pushAll_result _ s (by simp [pushBytes])

/-! ### Addresses that give what memory holds -/

/-- A read there gives what memory holds, and nothing changes. -/
theorem readByte_gives (a : Addr) (s : State) (h : gives s a) : readByte a s = (s.byteAt a, s) := by
  have ht : s.touch a = s := if_neg fun hs => hs.2 (h.2 hs.1)
  unfold readByte
  rw [ht]
  dsimp only
  rcases h.1 with hk | hk <;> rw [hk]

theorem gives_ram {s : State} {a : Addr} (h : s.kindAt a = .ram) (hb : addrBank a = 0#8) : gives s a :=
  ⟨.inl h, fun _ => hb⟩

/-- The bank of a stack location. -/
theorem addrBank_bank0 (v : Word) : addrBank (mkAddr 0#8 v) = 0#8 := by
  apply BitVec.eq_of_toNat_eq
  have := v.isLt
  simp only [addrBank, mkAddr, BitVec.extractLsb'_toNat, BitVec.toNat_append, BitVec.toNat_ofNat]
  simp only [Nat.zero_mod, Nat.zero_shiftLeft, Nat.zero_or, Nat.shiftRight_eq_div_pow]
  omega

theorem gives_of_givesFrom {n : Nat} {s : State} {a : Addr} (h : givesFrom n s a) (hn : 0 < n) : gives s a := by
  have := h 0 hn
  rwa [BitVec.add_zero] at this

theorem givesFrom_mono {n m : Nat} {s : State} {a : Addr} (h : givesFrom n s a) (hm : m ≤ n) : givesFrom m s a :=
  fun k hk => h k (by omega)

theorem givesStack_mono {n m : Nat} {s : State} (h : givesStack n s) (hm : m ≤ n) : givesStack m s :=
  fun k hk => h k (by omega)

/-- What a read gives depends on the map of the chip alone. -/
theorem gives_congr {s t : State} (h : t.chip = s.chip) (a : Addr) : gives t a ↔ gives s a := by
  simp only [gives, State.kindAt, h]

theorem givesFrom_congr {s t : State} (h : t.chip = s.chip) (n : Nat) (a : Addr) :
    givesFrom n t a ↔ givesFrom n s a := by
  simp only [givesFrom, gives_congr h]

/-- The stack after a pull of `j` bytes. -/
theorem givesStack_setSp {n : Nat} (j : Nat) {s : State} (h : givesStack (j + n) s) :
    givesStack n (s.setSp (s.sp + BitVec.ofNat 16 j)) := by
  intro k hk
  have := h (j + k) (by omega)
  simp only [setSp_sp]
  rw [BitVec.add_assoc, ← BitVec.ofNat_add, ← Nat.add_assoc]
  exact this

theorem read16_gives (a : Addr) (s : State) (h : givesFrom 2 s a) : read16 a s = (wordAt s a, s) := by
  have h1 := readByte_gives a s (gives_of_givesFrom h (by omega))
  have h2 := readByte_gives (a + 1) s (h 1 (by omega))
  ext1
  · rw [read16_fst, h1, h2]
    rfl
  · rw [read16_snd, h1, h2]

theorem read24_gives (a : Addr) (s : State) (h : givesFrom 3 s a) : read24 a s = (longAt s a, s) := by
  have h1 := read16_gives a s (givesFrom_mono h (by omega))
  have h2 := readByte_gives (a + 2) s (h 2 (by omega))
  ext1
  · rw [read24_fst, h1, h2]
    rfl
  · rw [read24_snd, h1, h2]

theorem readMem_gives (w : Width) (a : Addr) (s : State) (h : givesFrom (bytesIn w) s a) :
    (readMem w a s).1.toNat = dataAt w s a ∧ (readMem w a s).2 = s := by
  cases w
  · rw [readMem_w8_fst, readMem_w8_snd, readByte_gives a s (gives_of_givesFrom h (by decide))]
    have := (s.byteAt a).isLt
    simp only [BitVec.toNat_setWidth, dataAt, and_true]
    omega
  · rw [readMem_w16, read16_gives a s h]
    refine ⟨?_, rfl⟩
    simp only [wordAt, mkWord_toNat, dataAt]
    omega

theorem pull8_gives (s : State) (h : givesStack 1 s) : pull8 s = (stackByte s 0, s.setSp (s.sp + 1)) :=
  readByte_gives (s.setSp (s.sp + 1)).stackAddr (s.setSp (s.sp + 1)) (h 0 (by omega))

/-- The byte `k` above S, after S has moved by `j`. -/
theorem stackByte_setSp (s : State) (j k : Nat) :
    stackByte (s.setSp (s.sp + BitVec.ofNat 16 j)) k = stackByte s (j + k) := by
  simp only [stackByte, setSp_sp, setSp_byteAt]
  congr 2
  rw [BitVec.add_assoc, ← BitVec.ofNat_add, Nat.add_assoc]

theorem pull16_gives (s : State) (h : givesStack 2 s) :
    pull16 s = (mkWord (stackByte s 1) (stackByte s 0), s.setSp (s.sp + 2)) := by
  have h1 := pull8_gives s (givesStack_mono h (by omega))
  have h2 := pull8_gives (s.setSp (s.sp + 1)) (givesStack_setSp 1 h)
  have h3 : stackByte (s.setSp (s.sp + 1)) 0 = stackByte s 1 := stackByte_setSp s 1 0
  ext1
  · rw [pull16_fst, h1, h2, h3]
  · rw [pull16_snd, h1, h2, setSp_setSp, setSp_sp, BitVec.add_assoc]
    rfl

theorem pullW_gives (w : Width) (s : State) (h : givesStack (bytesIn w) s) :
    (pullW w s).1.toNat = stackData w s 0 ∧ (pullW w s).2 = s.setSp (s.sp + BitVec.ofNat 16 (bytesIn w)) := by
  cases w
  · rw [pullW_w8_fst, pullW_w8_snd, pull8_gives s h]
    have := (stackByte s 0).isLt
    refine ⟨?_, rfl⟩
    simp only [BitVec.toNat_setWidth, stackData]
    omega
  · rw [pullW_w16, pull16_gives s h]
    refine ⟨?_, rfl⟩
    simp only [mkWord_toNat, stackData, Nat.zero_add]
    omega

/-- PS pulled: two bytes, and PS. -/
theorem pullPs_spec (s : State) :
    ∃ b, pullPs s = ((s.setSp (s.sp + 2)).setBus b).setPs (pullPs s).ps := by
  obtain ⟨b, hb⟩ := pull8_spec s
  obtain ⟨c, hc⟩ := pull8_spec (pull8 s).2
  have h : (pull8 (pull8 s).2).2 = (s.setSp (s.sp + 2)).setBus c := by
    rw [hc, hb, setBus_setSp, setBus_setBus, setSp_setSp, setBus_sp, setSp_sp, BitVec.add_assoc]
    rfl
  refine ⟨c, ?_⟩
  rw [pullPs_eq, h]
  rfl

theorem pullPs_gives (s : State) (h : givesStack 2 s) :
    (∀ f, (pullPs s).flag f = (stackByte s 0).getLsbD (flagBit f)) ∧
      (pullPs s).ipl = (stackByte s 1).extractLsb' 0 3 := by
  have h1 := pull8_gives s (givesStack_mono h (by omega))
  have h2 := pull8_gives (s.setSp (s.sp + 1)) (givesStack_setSp 1 h)
  have h3 : stackByte (s.setSp (s.sp + 1)) 0 = stackByte s 1 := stackByte_setSp s 1 0
  rw [pullPs_eq, h1, h2, h3]
  exact ⟨fun f => by rw [flag_setPsh, flag_setPsl], ipl_setPsh _ _⟩

theorem frame_setPs {regs : List Reg} {stored : Addr → Prop} {s t : State} (v : BitVec 11)
    (h : KeepsAllBut regs stored s t) : KeepsAllBut regs stored s (t.setPs v) := by
  refine ⟨fun r hr => ?_, h.2⟩
  rw [← h.1 r hr]
  cases r <;> rfl

/-! ### Numbers as words -/

theorem wordOf_toNat (w : Width) (n : Nat) : (wordOf w n).toNat = n % 2 ^ bitsOf w := by
  cases w <;> simp only [wordOf, bitsOf, BitVec.toNat_ofNat] <;> omega

theorem valueOf_wordOf (w : Width) (n : Nat) : valueOf w (wordOf w n) = n % 2 ^ bitsOf w := by
  rw [valueOf, wordOf_toNat, Nat.mod_mod]

theorem wordOfInt_toNat (w : Width) (n : Int) : (wordOfInt w n).toNat = (n % 2 ^ bitsOf w).toNat := by
  cases w <;> simp only [wordOfInt, bitsOf, BitVec.toNat_ofInt] <;> norm_num
  omega

theorem valueOf_wordOfInt (w : Width) (n : Int) : valueOf w (wordOfInt w n) = (n % 2 ^ bitsOf w).toNat := by
  rw [valueOf, wordOfInt_toNat]
  cases w <;> simp only [bitsOf] <;> omega

/-- What an operand leaves of the state, and that it is a W-bit value. -/
theorem operand_view (w : Width) (o : Operand) (s : State) :
    ∃ b, (operand w o s).2 = s.setBus b ∧ (operand w o s).1.toNat < 2 ^ bitsOf w ∧
      valueOf w (operand w o s).1 = (operand w o s).1.toNat := by
  obtain ⟨b, hb⟩ := operand_spec w o s
  have := operand_lt w o s
  exact ⟨b, hb, this, valueOf_of_lt _ _ this⟩

/-- `sgn_W` of R253. -/
theorem signed_eq (w : Width) (v : Word) : signed w v = signedOf w (valueOf w v) := by
  have := valueOf_lt w v
  rw [signed, signedOf, msb_eq, narrow_toNat_valueOf]
  split_ifs with h1 h2 h2
  · simp only [decide_eq_true_eq] at h1
    omega
  · rfl
  · rfl
  · simp only [decide_eq_true_eq] at h1
    omega

/-! ### Decimal digits (R243) -/

theorem isBcdN_mod (k n : Nat) : isBcdN k (n % 16 ^ k) = isBcdN k n := by
  induction k generalizing n with
  | zero => rfl
  | succ k ih =>
    have h1 : n % 16 ^ (k + 1) % 16 = n % 16 := Nat.mod_mod_of_dvd _ (dvd_pow_self 16 (by omega))
    have h2 : n % 16 ^ (k + 1) / 16 = n / 16 % 16 ^ k := by
      rw [pow_succ, Nat.mul_comm]
      exact Nat.mod_mul_right_div_self n 16 (16 ^ k)
    rw [isBcdN, isBcdN, h1, h2, ih]

theorem bcdValN_mod (k n : Nat) : bcdValN k (n % 16 ^ k) = bcdValN k n := by
  induction k generalizing n with
  | zero => rfl
  | succ k ih =>
    have h1 : n % 16 ^ (k + 1) % 16 = n % 16 := Nat.mod_mod_of_dvd _ (dvd_pow_self 16 (by omega))
    have h2 : n % 16 ^ (k + 1) / 16 = n / 16 % 16 ^ k := by
      rw [pow_succ, Nat.mul_comm]
      exact Nat.mod_mul_right_div_self n 16 (16 ^ k)
    rw [bcdValN, bcdValN, h1, h2, ih]

/-- The digits of a number, read back. -/
theorem toBcdN_spec (k n : Nat) (h : n < 10 ^ k) :
    isBcdN k (toBcdN k n) = true ∧ bcdValN k (toBcdN k n) = n ∧ toBcdN k n < 16 ^ k := by
  induction k generalizing n with
  | zero => exact ⟨rfl, by simp [bcdValN] at *; omega, by simp [toBcdN]⟩
  | succ k ih =>
    have hk : n / 10 < 10 ^ k := by
      rw [pow_succ] at h
      omega
    obtain ⟨h1, h2, h3⟩ := ih (n / 10) hk
    have e1 : (n % 10 + 16 * toBcdN k (n / 10)) % 16 = n % 10 := by omega
    have e2 : (n % 10 + 16 * toBcdN k (n / 10)) / 16 = toBcdN k (n / 10) := by omega
    refine ⟨?_, ?_, ?_⟩
    · simp only [toBcdN, isBcdN, e1, e2, h1, Bool.and_true, decide_eq_true_eq]
      omega
    · simp only [toBcdN, bcdValN, e1, e2, h2]
      omega
    · rw [toBcdN, pow_succ]
      omega

theorem pow_digits (w : Width) : 16 ^ digitsOf w = 2 ^ bitsOf w := by cases w <;> rfl

/-- Only the W low bits count for the digits. -/
theorem isBcd_of_valueOf (w : Width) (u v : Word) (h : valueOf w u = valueOf w v) :
    isBcd w u = isBcd w v ∧ bcdVal w u = bcdVal w v := by
  rw [valueOf, valueOf, ← pow_digits] at h
  refine ⟨?_, ?_⟩
  · rw [isBcd, isBcd, ← isBcdN_mod, h, isBcdN_mod]
  · rw [bcdVal, bcdVal, ← bcdValN_mod, h, bcdValN_mod]

theorem toBcd_spec (w : Width) (n : Nat) (h : n < 10 ^ digitsOf w) :
    isBcd w (toBcd w n) = true ∧ bcdVal w (toBcd w n) = n ∧ (toBcd w n).toNat < 2 ^ bitsOf w := by
  obtain ⟨h1, h2, h3⟩ := toBcdN_spec (digitsOf w) n h
  have h4 : (toBcd w n).toNat = toBcdN (digitsOf w) n := by
    rw [toBcd, BitVec.toNat_ofNat]
    refine Nat.mod_eq_of_lt (h3.trans_le ?_)
    cases w <;> norm_num [digitsOf]
  rw [isBcd, bcdVal, h4]
  exact ⟨h1, h2, by rw [← pow_digits]; exact h3⟩

/-! ### Read, compute, write back -/

theorem loadMode_lt (w : Width) (mode : Mode) (s : State) : (loadMode w mode s).1.toNat < 2 ^ bitsOf w :=
  readMem_lt _ _ _

/-- Only the W low bits of the datum count for a store. -/
theorem stores_congr (w : Width) (ea : Addr) (v v' : Word) (s t : State) (h : valueOf w v = valueOf w v')
    (hs : Stores w ea v s t) : Stores w ea v' s t := by
  cases w
  · have : loByte v = loByte v' := by
      apply BitVec.eq_of_toNat_eq
      simpa [loByte, valueOf, bitsOf] using h
    simpa [Stores, this] using hs
  · have : v = v' := by
      apply BitVec.eq_of_toNat_eq
      have h1 := v.isLt
      have h2 := v'.isLt
      simp only [valueOf, bitsOf] at h
      omega
    rwa [← this]

theorem valueOf_ofNat (w : Width) (n : Nat) : valueOf w (BitVec.ofNat 16 n) = n % 2 ^ bitsOf w := by
  cases w
  all_goals
    simp only [valueOf, bitsOf, BitVec.toNat_ofNat]
    omega

theorem modify_fst (w : Width) (tg : Target) (f : Word → Word) (s : State) :
    (modify w tg f s).1.toNat = targetValue w tg s := by
  cases tg with
  | acc r => exact narrow_toNat_valueOf _ _
  | mem mode => rfl

theorem modify_fst_lt (w : Width) (tg : Target) (f : Word → Word) (s : State) :
    (modify w tg f s).1.toNat < 2 ^ bitsOf w := by
  cases tg with
  | acc r => exact narrow_lt _ _
  | mem mode => exact loadMode_lt _ _ _

/-- The target holds the W bits of `f` of the value before. -/
theorem modify_rewrites (w : Width) (tg : Target) (f : Word → Word) (flags : List Flag) (n : Nat) (s : State)
    (hn : valueOf w (f (modify w tg f s).1) = n) : Rewrites w tg n flags s (modify w tg f s).2 := by
  cases tg with
  | acc r =>
    rw [modify_acc] at hn ⊢
    refine ⟨?_, frame_setAcc _ _ (by simp) (frame_refl _ _ _ s)⟩
    rw [← hn]
    have := merge_written w (s.acc r) (f (s.readAcc w r))
    cases r <;> exact this
  | mem mode =>
    have := modify_result w mode f s
    refine ⟨stores_congr _ _ _ _ _ _ ?_ this.1, this.2.1, fun f _ => this.2.2.1 f (by simp), this.2.2.2⟩
    rw [valueOf_ofNat, ← hn]
    exact (Nat.mod_eq_of_lt (valueOf_lt _ _)).symm

theorem rewrites_setFlag (w : Width) (tg : Target) (n : Nat) (flags : List Flag) (f : Flag) (v : Bool) (s t : State)
    (hf : f ∈ flags) (h : Rewrites w tg n flags s t) : Rewrites w tg n flags s (t.setFlag f v) := by
  cases tg with
  | acc r => exact ⟨by cases r <;> exact h.1, frame_setFlag _ _ hf h.2⟩
  | mem mode => exact ⟨h.1, frame_setFlag _ _ hf h.2⟩

/-- A frame with fewer flags is one with more. -/
theorem frame_mono {regs : List Reg} {flags flags' : List Flag} {stored : Addr → Prop} {s t : State}
    (h : Frame regs flags stored s t) (hf : ∀ f ∈ flags, f ∈ flags') : Frame regs flags' stored s t :=
  ⟨h.1, fun f hf' => h.2.1 f (fun h => hf' (hf f h)), h.2.2⟩

end Sys2Proof.Machine
end

