-- ==== Sys2Proof/Laws/Control.lean ====
section
/-! SUPPORT. What the operations of control can do, once for each: interrupt entry and reset, jumps and branches,
returns, block transfers, the boundary. -/

namespace Sys2Proof.Machine

open Sys2Proof.Safety

/-! ### Interrupt entry and reset -/

/-- Interrupt entry, in the terms of the statements (R410); the requests stay. -/
theorem takeInterrupt_result (vector : Word) (level : Option (BitVec 3)) (s : State) :
    EntryResult vector level s (takeInterrupt vector level s) ∧ (takeInterrupt vector level s).irq = s.irq := by
  obtain ⟨t, u, b, ht, hu, -, he⟩ := takeInterrupt_spec vector level s
  obtain ⟨pc, hpc⟩ : ∃ pc, pc = (read16 (mkAddr 0#8 vector) u).1 := ⟨_, rfl⟩
  rw [← hpc] at he
  rw [he]
  obtain ⟨⟨p1, p2⟩, ⟨k1, k2, k3, k4, k5⟩, k6, k7⟩ :=
    pushAll_result [s.pg, hiByte s.pc, loByte s.pc, s.psh, s.psl] s (by simp)
  rw [← ht] at p1 p2 k1 k2 k3 k4 k5 k6 k7
  subst hu
  refine ⟨⟨⟨p1, p2⟩, ?_, ?_, rfl, rfl, fun hp => ?_, fun r hr => ?_, fun f hf => ?_, fun p hp => k2 p hp, k4⟩, k5⟩
  · exact (flag_entryPs level s .i).trans (by simp)
  · exact ipl_entryPs level s
  · rw [read16_gives _ _ ((givesFrom_congr (s := s) (t := t.setPs (entryPs level s)) k4 _ _).mpr hp)] at hpc
    exact hpc
  · rw [← k1 r (by simp at hr ⊢; tauto)]
    cases r <;> first | (simp at hr; done) | rfl
  · exact (flag_entryPs level s f).trans (by simp [hf])

/-- The bus record and the requests before the entry do not matter for what it does. -/
theorem entryResult_setBus (vector : Word) (level : Option (BitVec 3)) (s t : State) (b : Bus)
    (h : EntryResult vector level (s.setBus b) t) : EntryResult vector level s t := h

theorem entryResult_setIrq (vector : Word) (level : Option (BitVec 3)) (s t : State) (q : Requests)
    (h : EntryResult vector level (s.setIrq q) t) : EntryResult vector level s t := h

theorem setFlagFree_eq (s : State) (f : Flag) :
    s.setFlagFree f = (s.setPs (putFlag s.ps f (Config.freeBit s.bus.draws))).setBus s.drawn.bus := rfl

theorem setPs_setBus (s : State) (v : BitVec 11) (b : Bus) : (s.setBus b).setPs v = (s.setPs v).setBus b := rfl
theorem setPs_setPs (s : State) (v w : BitVec 11) : (s.setPs v).setPs w = s.setPs w := rfl

/-- PS after the reset event: 004 with N, V, Z and C drawn. -/
def resetPs (n v z c : Bool) : BitVec 11 := putFlag (putFlag (putFlag (putFlag 0x004#11 .n n) .v v) .z z) .c c

theorem resetPs_spec (n v z c : Bool) :
    (resetPs n v z c).extractLsb' 8 3 = 0#3 ∧ (resetPs n v z c).getLsbD (flagBit .i) = true ∧
      (resetPs n v z c).getLsbD (flagBit .d) = false ∧ (resetPs n v z c).getLsbD (flagBit .x) = false ∧
      (resetPs n v z c).getLsbD (flagBit .m) = false := by
  revert n v z c
  decide

theorem drawFlags_spec (s : State) :
    ∃ n v z c b, drawFlags (s.setPs 0x004#11) = (s.setPs (resetPs n v z c)).setBus b := by
  simp only [drawFlags, setFlagFree_eq, setPs_setBus, setPs_setPs, setBus_setBus, setBus_ps, setPs_ps]
  exact ⟨_, _, _, _, _, rfl⟩

theorem drawRegisters_spec (s : State) :
    ∃ a b x y sp bus, drawRegisters s = (((((s.setA a).setB b).setX x).setY y).setSp sp).setBus bus := by
  simp only [drawRegisters, drawWord, State.drawn, State.setBus, State.setA, State.setB, State.setX, State.setY,
    State.setSp]
  exact ⟨_, _, _, _, _, _, rfl⟩

theorem takeReset_eq (s : State) :
    takeReset s = (enterVector vecReset (drawFlags ((drawRegisters
      ((((s.setIrq { s.irq with resetPending := false }).setPg 0#8).setDt 0#8).setDpr 0#16)).setPs
        0x004#11))).setRun .running := rfl

/-- The reset event: everything it can do (R450). -/
theorem takeReset_spec (s : State) :
    ∃ a b x y sp n v z c bus u,
      u = ((((((((((s.setIrq { s.irq with resetPending := false }).setPg 0#8).setDt 0#8).setDpr 0#16).setA a).setB
        b).setX x).setY y).setSp sp).setPs (resetPs n v z c)).setBus bus ∧
      takeReset s = (((read16 (mkAddr 0#8 vecReset) u).2.setPc (read16 (mkAddr 0#8 vecReset) u).1).setPg
        0#8).setRun .running := by
  obtain ⟨a, b, x, y, sp, bus, h⟩ := drawRegisters_spec
    ((((s.setIrq { s.irq with resetPending := false }).setPg 0#8).setDt 0#8).setDpr 0#16)
  obtain ⟨n, v, z, c, bus', h'⟩ := drawFlags_spec (drawRegisters
    ((((s.setIrq { s.irq with resetPending := false }).setPg 0#8).setDt 0#8).setDpr 0#16))
  refine ⟨a, b, x, y, sp, n, v, z, c, bus', _, rfl, ?_⟩
  rw [takeReset_eq, h', h, enterVector_eq, setPs_setBus, setBus_setBus]

/-! ### Accesses inside bank 0 (R62) -/

/-- An access that single-chip mode allows is not noted as one outside bank 0. -/
theorem touch_inside (a : Addr) (s : State) (h : s.chip.singleChip = true → addrBank a = 0#8) : s.touch a = s :=
  if_neg fun hs => hs.2 (h hs.1)

theorem readByte_outside (a : Addr) (s : State) (h : s.chip.singleChip = true → addrBank a = 0#8) :
    (readByte a s).2.bus.outside = s.bus.outside := by
  unfold readByte
  rw [touch_inside a s h]
  dsimp only
  split <;> rfl

theorem writeByte_outside (a : Addr) (v : Byte) (s : State) (h : s.chip.singleChip = true → addrBank a = 0#8) :
    (writeByte a v s).bus.outside = s.bus.outside := by
  unfold writeByte
  rw [touch_inside a s h]
  dsimp only
  split <;> rfl

theorem read16_outside (a : Addr) (s : State)
    (h : s.chip.singleChip = true → addrBank a = 0#8 ∧ addrBank (a + 1) = 0#8) :
    (read16 a s).2.bus.outside = s.bus.outside := by
  obtain ⟨b, hb⟩ := readByte_spec a s
  rw [read16_snd, readByte_outside _ _ (by rw [hb]; exact fun hs => (h hs).2), readByte_outside _ _ fun hs => (h hs).1]

/-- A vector below 00FFFF stands in bank 0 with both its bytes (R404, R405). -/
theorem addrBank_vector (v : Word) (h : v ≠ 0xFFFF#16) :
    addrBank (mkAddr 0#8 v) = 0#8 ∧ addrBank (mkAddr 0#8 v + 1) = 0#8 := by
  refine ⟨addrBank_bank0 v, ?_⟩
  have h1 : mkAddr 0#8 v + 1 = mkAddr 0#8 (v + 1) := by
    have h2 : v.toNat ≠ 65535 := fun e => h (BitVec.eq_of_toNat_eq e)
    have := v.isLt
    apply BitVec.eq_of_toNat_eq
    have e1 : (1 : Addr).toNat = 1 := rfl
    have e2 : (1 : Word).toNat = 1 := rfl
    rw [BitVec.toNat_add, mkAddr_toNat, mkAddr_toNat, BitVec.toNat_add, e1, e2]
    have : (0#8).toNat = 0 := rfl
    omega
  rw [h1, addrBank_bank0]

theorem pushAll_outside (bs : List Byte) (s : State) : (pushAll bs s).bus.outside = s.bus.outside := by
  induction bs generalizing s with
  | nil => rfl
  | cons v rest ih =>
    rw [pushAll, ih]
    exact writeByte_outside _ _ _ fun _ => addrBank_bank0 _

/-- Interrupt entry accesses bank 0 alone, but for a vector at 00FFFF. -/
theorem takeInterrupt_outside (vector : Word) (level : Option (BitVec 3)) (s : State)
    (h : s.chip.singleChip = true → vector ≠ 0xFFFF#16) :
    (takeInterrupt vector level s).bus.outside = s.bus.outside := by
  obtain ⟨t, u, b, ht, hu, hb, he⟩ := takeInterrupt_spec vector level s
  have hchip : u.chip = s.chip := by
    obtain ⟨m, c, h, -⟩ := pushAll_spec [s.pg, hiByte s.pc, loByte s.pc, s.psh, s.psl] s (by simp)
    rw [hu, ht, h]
    rfl
  have hread := read16_outside (mkAddr 0#8 vector) u (by rw [hchip]; exact fun hs => addrBank_vector _ (h hs))
  have hpush := pushAll_outside [s.pg, hiByte s.pc, loByte s.pc, s.psh, s.psl] s
  rw [hb, hu] at hread
  rw [he, ← hpush, ← ht]
  exact hread

theorem enterVector_outside (v : Word) (s : State) (h : v ≠ 0xFFFF#16) :
    (enterVector v s).bus.outside = s.bus.outside := read16_outside _ _ fun _ => addrBank_vector _ h

theorem drawRegisters_outside (s : State) : (drawRegisters s).bus.outside = s.bus.outside := rfl

theorem drawFlags_outside (s : State) (v : BitVec 11) : (drawFlags (s.setPs v)).bus.outside = s.bus.outside := rfl

/-- The reset event accesses bank 0 alone. -/
theorem takeReset_outside (s : State) : (takeReset s).bus.outside = s.bus.outside := by
  rw [takeReset_eq, setRun_bus, enterVector_outside _ _ (by decide), drawFlags_outside, drawRegisters_outside]
  rfl

/-! ### Jumps, branches, returns -/

theorem frame_goto {regs : List Reg} {flags : List Flag} {stored : Addr → Prop} {s t : State} (a : Addr)
    (hpc : Reg.pc ∈ regs) (hpg : Reg.pg ∈ regs) (h : Frame regs flags stored s t) :
    Frame regs flags stored s (t.goto a) :=
  frame_setPg _ hpg (frame_setPc _ hpc h)

theorem jumpThrough_frame {regs : List Reg} {flags : List Flag} {stored : Addr → Prop} (p : Addr) (s : State)
    (hpc : Reg.pc ∈ regs) : Frame regs flags stored s (jumpThrough p s) := by
  obtain ⟨b, hb⟩ := read16_spec p s
  rw [jumpThrough_eq, hb]
  exact frame_setPc _ hpc (frame_setBus _ (frame_refl _ _ _ s))

theorem jumpThrough_gives (p : Addr) (s : State) (h : givesFrom 2 s p) : jumpThrough p s = s.setPc (wordAt s p) := by
  rw [jumpThrough_eq, read16_gives _ _ h]

/-- The offset of the pointer in the `(mmll,X)` mode. -/
theorem add_indexX (s : State) (a : Word) : a + s.indexX = BitVec.ofNat 16 (a.toNat + valueOf s.xWidth s.x) := by
  apply BitVec.eq_of_toNat_eq
  rw [BitVec.toNat_add, State.indexX, narrow_toNat_valueOf, BitVec.toNat_ofNat]

/-- A branch by a displacement that stands for the integer `x`. -/
theorem branch_result (s : State) (d : Addr) (x : Int) (hd : (d.toNat : Int) = x % 2 ^ 24) (taken : Bool) :
    BranchesIf taken x s (if taken then s.branch d else s) := by
  refine ⟨?_, ?_⟩
  · cases taken
    · rfl
    · simp only [if_true, State.branch, goto_pcAddr, BitVec.toNat_add]
      omega
  · cases taken
    · exact frame_refl _ _ _ _
    · exact frame_goto _ (by simp) (by simp) (frame_refl _ _ _ _)

theorem sext24b_toNat (rr : Byte) : ((sext24b rr).toNat : Int) = rr.toInt % 2 ^ 24 := by
  rw [sext24b, BitVec.toNat_signExtend, BitVec.toInt_eq_msb_cond]
  have := rr.isLt
  cases rr.msb
  · simp [BitVec.toNat_setWidth]
  · simp [BitVec.toNat_setWidth]
    omega

theorem sext24_toNat (rr : Word) : ((sext24 rr).toNat : Int) = rr.toInt % 2 ^ 24 := by
  rw [sext24, BitVec.toNat_signExtend, BitVec.toInt_eq_msb_cond]
  have := rr.isLt
  cases rr.msb
  · simp [BitVec.toNat_setWidth]
  · simp [BitVec.toNat_setWidth]
    omega

/-- `isZero` by the bits. -/
theorem isZero_iff (w : Width) (v : Word) : isZero w v = true ↔ ∀ k, k < bitsOf w → v.getLsbD k = false := by
  constructor
  · intro h k hk
    rw [isZero, beq_iff_eq] at h
    have h2 : (narrow w v).getLsbD k = v.getLsbD k := by
      cases w
      · simp only [bitsOf] at hk
        simp only [narrow, BitVec.getLsbD_and]
        interval_cases k <;> simp
      · rfl
    rw [← h2, h]
    simp
  · intro h
    rw [isZero, beq_iff_eq]
    apply BitVec.eq_of_getLsbD_eq
    intro k hk
    cases w
    · simp only [narrow, BitVec.getLsbD_and]
      by_cases h8 : k < 8
      · rw [h k h8]
        simp
      · interval_cases k <;> simp at *
    · simp only [narrow]
      rw [h k hk]
      simp

/-- The return from an interrupt: S five higher, PS, PC and PG loaded, the bus used, nothing else. -/
theorem returnFromInterrupt_spec (s : State) :
    ∃ ps pc pg b, returnFromInterrupt s =
      ((((s.setSp (s.sp + 5)).setPs ps).setPc pc).setPg pg).setBus b := by
  obtain ⟨b, hb⟩ := pullPs_spec s
  obtain ⟨c, hc⟩ := pull16_spec (pullPs s)
  obtain ⟨d, hd⟩ := pull8_spec (pull16 (pullPs s)).2
  have hsp : (pullPs s).sp = s.sp + 2 := by
    rw [hb]
    rfl
  have h5 : s.sp + 2 + 2 + 1 = s.sp + 5 := by
    rw [BitVec.add_assoc, BitVec.add_assoc]
    rfl
  have h0 : returnFromInterrupt s =
      ((pull8 (pull16 (pullPs s)).2).2.setPc (pull16 (pullPs s)).1).setPg (pull8 (pull16 (pullPs s)).2).1 := by
    dsimp only [returnFromInterrupt]
  rw [h0]
  generalize (pull8 (pull16 (pullPs s)).2).1 = pg
  generalize (pull16 (pullPs s)).1 = pc
  rw [hd, hc, setBus_sp, setSp_sp, hsp, h5]
  generalize (pullPs s).ps = ps at *
  rw [hb]
  refine ⟨ps, pc, pg, d, ?_⟩
  simp only [State.setSp, State.setBus, State.setPs, State.setPc, State.setPg]

/-! ### Block transfers -/

theorem moveWord_spec (dst src : Byte) (t : Transfer) :
    ∃ m b, moveWord dst src t = { t with s := (t.s.setMem m).setBus b } ∧ (t.s.mem.wf = true → m.wf = true) := by
  obtain ⟨b, hb⟩ := read16_spec (mkAddr src t.sx) t.s
  obtain ⟨m, c, h, hw, -⟩ := writeMem_spec .w16 (mkAddr dst t.sy) (read16 (mkAddr src t.sx) t.s).1
    (read16 (mkAddr src t.sx) t.s).2
  refine ⟨m, c, ?_, ?_⟩
  · have h0 : moveWord dst src t = ⟨t.sx, t.sy, writeMem .w16 (mkAddr dst t.sy) (read16 (mkAddr src t.sx) t.s).1
        (read16 (mkAddr src t.sx) t.s).2⟩ := rfl
    rw [h0, h, hb]
    rfl
  · rw [hb] at hw
    exact hw

theorem moveByte_spec (dst src : Byte) (t : Transfer) :
    ∃ m b, moveByte dst src t = { t with s := (t.s.setMem m).setBus b } ∧ (t.s.mem.wf = true → m.wf = true) := by
  obtain ⟨b, hb⟩ := readByte_spec (mkAddr src t.sx) t.s
  obtain ⟨m, c, h, hw, -⟩ := writeByte_spec (mkAddr dst t.sy) (readByte (mkAddr src t.sx) t.s).1
    (readByte (mkAddr src t.sx) t.s).2
  refine ⟨m, c, ?_, ?_⟩
  · have h0 : moveByte dst src t = ⟨t.sx, t.sy, writeByte (mkAddr dst t.sy) (readByte (mkAddr src t.sx) t.s).1
        (readByte (mkAddr src t.sx) t.s).2⟩ := rfl
    rw [h0, h, hb]
    rfl
  · rw [hb] at hw
    exact hw

/-- A transfer of any count changes memory and the bus record alone, and keeps the canonical form. -/
theorem moveUp_spec (dst src : Byte) (w : Width) (cnt : Nat) (t : Transfer) :
    ∃ m b, (moveUp dst src w cnt t).s = (t.s.setMem m).setBus b ∧ (t.s.mem.wf = true → m.wf = true) := by
  induction cnt using Nat.strongRecOn generalizing t with
  | ind cnt ih =>
    match cnt with
    | 0 => exact ⟨t.s.mem, t.s.bus, rfl, id⟩
    | 1 =>
      obtain ⟨m, b, h, hw⟩ := moveByte_spec dst src t
      refine ⟨m, b, ?_, hw⟩
      rw [moveUp, h]
      rfl
    | n + 2 =>
      obtain ⟨m, b, h, hw⟩ := moveWord_spec dst src t
      obtain ⟨m', b', h', hw'⟩ := ih n (by omega) ((moveWord dst src t).shift w 2)
      refine ⟨m', b', ?_, fun hs => hw' ?_⟩
      · rw [moveUp, h', h]
        rfl
      · rw [h]
        exact hw hs

theorem moveDown_spec (dst src : Byte) (w : Width) (cnt : Nat) (t : Transfer) :
    ∃ m b, (moveDown dst src w cnt t).s = (t.s.setMem m).setBus b ∧ (t.s.mem.wf = true → m.wf = true) := by
  induction cnt using Nat.strongRecOn generalizing t with
  | ind cnt ih =>
    match cnt with
    | 0 => exact ⟨t.s.mem, t.s.bus, rfl, id⟩
    | 1 =>
      obtain ⟨m, b, h, hw⟩ := moveByte_spec dst src t
      refine ⟨m, b, ?_, hw⟩
      rw [moveDown, h]
      rfl
    | n + 2 =>
      obtain ⟨m, b, h, hw⟩ := moveWord_spec dst src (t.shift w (-1))
      obtain ⟨m', b', h', hw'⟩ := ih n (by omega) ((moveWord dst src (t.shift w (-1))).shift w (-1))
      refine ⟨m', b', ?_, fun hs => hw' ?_⟩
      · rw [moveDown, h', h]
        rfl
      · rw [h]
        exact hw hs

/-- A after a transfer; the bus record may change with it. -/
theorem countDone_spec (s : State) :
    ∃ a b, countDone s = (s.setA a).setBus b ∧ valueOf s.mWidth a = 2 ^ bitsOf s.mWidth - 1 := by
  unfold countDone
  cases s.mWidth
  · refine ⟨mkWord (Config.freeByte s.bus.draws) 0xFF#8, s.drawn.bus, rfl, ?_⟩
    rw [valueOf, mkWord_toNat, bitsOf]
    have : (0xFF#8).toNat = 255 := rfl
    omega
  · exact ⟨_, _, rfl, rfl⟩

/-! ### The boundary and the contract -/

theorem boundary_spec (s : State) : ∃ q, boundary s = s.setIrq q := by
  unfold boundary
  split
  · exact ⟨s.irq, rfl⟩
  · exact ⟨_, rfl⟩

/-- What the events of a boundary leave of the stream. -/
theorem applyEvent_inputs (q : Requests) (e : EnvEvent) : (applyEvent q e).inputs = q.inputs := by
  cases e with
  | raise r => rw [applyEvent]; split <;> rfl
  | withdraw r => rfl
  | watchdog on => rfl
  | reset on => rfl

/-- One event, in all it can do (R407). -/
theorem applyEvent_spec (q : Requests) (e : EnvEvent) :
    (∀ r : Request, r ∈ (applyEvent q e).pending ↔ (r ∈ q.pending ∧ e ≠ .withdraw r) ∨ e = .raise r) ∧
    ((applyEvent q e).wdtPending = true ↔ (q.wdtPending = true ∧ e ≠ .watchdog false) ∨ e = .watchdog true) ∧
    ((applyEvent q e).resetPending = true ↔ (q.resetPending = true ∧ e ≠ .reset false) ∨ e = .reset true) := by
  cases e with
  | raise r =>
    rw [applyEvent]
    split
    next h =>
      refine ⟨fun t => ⟨fun ht => .inl ⟨ht, by simp⟩, fun ht => ?_⟩, by simp, by simp⟩
      rcases ht with ht | ht
      · exact ht.1
      · cases ht
        exact h
    next h =>
      refine ⟨fun t => ?_, by simp, by simp⟩
      simp only [List.mem_append, List.mem_singleton, EnvEvent.raise.injEq, ne_eq, reduceCtorEq, not_false_eq_true,
        and_true]
      exact or_congr_right ⟨Eq.symm, Eq.symm⟩
  | withdraw r =>
    refine ⟨fun t => ?_, by simp [applyEvent], by simp [applyEvent]⟩
    simp only [applyEvent, List.mem_filter, decide_eq_true_eq, ne_eq, EnvEvent.withdraw.injEq, reduceCtorEq, or_false]
    exact and_congr_right fun _ => not_congr ⟨Eq.symm, Eq.symm⟩
  | watchdog on => cases on <;> simp [applyEvent]
  | reset on => cases on <;> simp [applyEvent]

/-- A boundary with one more event at the end of its list. -/
theorem boundary_snoc (s : State) (before : List EnvEvent) (e : EnvEvent) (rest : List (List EnvEvent))
    (h : s.irq.inputs = (before ++ [e]) :: rest) :
    (boundary s).irq = applyEvent (boundary (s.setIrq { s.irq with inputs := before :: rest })).irq e := by
  rw [boundary, h]
  simp only [List.foldl_append, List.foldl_cons, List.foldl_nil]
  rfl

theorem foldl_applyEvent_inputs (events : List EnvEvent) (q : Requests) :
    (events.foldl applyEvent q).inputs = q.inputs := by
  induction events generalizing q with
  | nil => rfl
  | cons e rest ih => rw [List.foldl_cons, ih, applyEvent_inputs]

theorem foldl_applyEvent_listed (c : Chip) (events : List EnvEvent) (q : Requests)
    (hq : requestsListed c q = true) (he : events.all (eventListed c) = true) :
    requestsListed c (events.foldl applyEvent q) = true := by
  induction events generalizing q with
  | nil => exact hq
  | cons e rest ih =>
    simp only [List.all_cons, Bool.and_eq_true] at he
    rw [List.foldl_cons]
    refine ih _ ?_ he.2
    simp only [requestsListed, Bool.and_eq_true, List.all_eq_true, applyEvent_inputs] at hq ⊢
    refine ⟨fun r hr => ?_, hq.2⟩
    rcases ((applyEvent_spec q e).1 r).mp hr with h | h
    · exact hq.1 r h.1
    · subst h
      exact he.1

/-- The environment names sources of the chip alone, and so does what it leaves (R404). -/
theorem boundary_listed (s : State) (h : requestsListed s.chip s.irq = true) :
    requestsListed s.chip (boundary s).irq = true := by
  rw [boundary]
  split
  · exact h
  next events rest hi =>
    simp only [requestsListed, hi, List.all_cons, Bool.and_eq_true] at h
    exact foldl_applyEvent_listed _ _ _ (by simp only [requestsListed, Bool.and_eq_true]; exact ⟨h.1, h.2.2⟩) h.2.1

/-- The vector of a source of the chip is one of the chip's table (R404). -/
theorem vectorIn_mem (l : List Source) (n : Nat) (h : (l.any fun e => e.src == n) = true) :
    ∃ e ∈ l, e.src = n ∧ e.vector = vectorIn l n := by
  induction l with
  | nil => cases h
  | cons e rest ih =>
    rw [vectorIn]
    split
    next he => exact ⟨e, by simp, he, rfl⟩
    next he =>
      rw [List.any_cons, Bool.or_eq_true] at h
      obtain ⟨f, hf, h1, h2⟩ := ih (h.resolve_left (by simpa using he))
      exact ⟨f, by simp [hf], h1, h2⟩

/-- What R404 requires of the vectors of a chip. -/
theorem chip_wf_vectors (c : Chip) (h : c.wf = true) :
    (∀ v ∈ c.vectors, v ∉ [0xFFFF#16, vecBreak, vecReset]) ∧ c.vectors.Nodup := by
  simp only [Chip.wf, Bool.and_eq_true, List.all_eq_true, decide_eq_true_eq] at h
  refine ⟨fun v hv => ?_, h.1.1.2⟩
  have := h.1.1.1 v hv
  simp only [bne_iff_ne, ne_eq] at this
  simp only [List.mem_cons, List.not_mem_nil, or_false, vecBreak, vecReset]
  tauto

/-- R404: on a chip whose parameters are as it requires, the vector of a source of the chip is no other vector and not
FFFF, and no other source has it. -/
theorem vectorIn_listed (c : Chip) (h : c.wf = true) (n : Nat) (hn : c.lists n = true) :
    vectorIn c.sources n ∉ [0xFFFF#16, vecBreak, vecReset, c.vecZeroDiv, c.vecWdt] ∧
      ∀ e ∈ c.sources, e.vector = vectorIn c.sources n → e.src = n := by
  obtain ⟨h1, h2⟩ := chip_wf_vectors c h
  obtain ⟨e, he, hs, hv⟩ := vectorIn_mem _ _ hn
  have hm : e.vector ∈ c.sources.map Source.vector := List.mem_map.mpr ⟨e, he, rfl⟩
  have h3 := h1 e.vector (List.mem_cons_of_mem _ (List.mem_cons_of_mem _ hm))
  simp only [Chip.vectors, List.nodup_cons, List.mem_cons, not_or] at h2
  rw [← hv]
  refine ⟨?_, fun f hf hfe => by rw [List.inj_on_of_nodup_map h2.2.2 hf he hfe, hs]⟩
  simp only [List.mem_cons, List.not_mem_nil, or_false, not_or] at h3 ⊢
  exact ⟨h3.1, h3.2.1, h3.2.2, fun e => h2.1.2 (e ▸ hm), fun e => h2.2.1 (e ▸ hm)⟩

/-- Interrupt entry keeps the contract of single-chip mode, if it accesses bank 0 alone. -/
theorem withinContract_entry (vector : Word) (level : Option (BitVec 3)) (s t : State)
    (h : EntryResult vector level s t) (ho : t.bus.outside = s.bus.outside) (hs : withinContract s = true) :
    withinContract t = true := by
  obtain ⟨-, -, -, hpg, -, -, hr, -, -, hc⟩ := h
  have h1 : t.dt = s.dt := BitVec.eq_of_toNat_eq (hr .dt (by simp))
  have h2 : t.dpr = s.dpr := BitVec.eq_of_toNat_eq (hr .dpr (by simp))
  rw [withinContract, hc, hpg, h1, h2, ho]
  rw [withinContract] at hs
  revert hs
  cases s.chip.singleChip
  · simp
  · simp only [Bool.not_true, Bool.false_or, Bool.and_eq_true, beq_self_eq_true, true_and]
    exact fun h => ⟨⟨h.1.1.2, h.1.2⟩, h.2⟩

/-- A state within the contract of single-chip mode is so after the boundary too. -/
theorem withinContract_boundary (s : State) : withinContract (boundary s) = withinContract s := by
  obtain ⟨q, hq⟩ := boundary_spec s
  rw [hq]
  rfl

/-- The step as the contract says it (D11). -/
theorem keepContract_eq (t : State) :
    keepContract (.next t) = if withinContract t then .next t else .refused .singleChip := rfl

/-- Outside single-chip mode the contract holds of every state. -/
theorem keepContract_next (r : Result) (t : State) (h : r = .next t) (hc : t.chip.singleChip = false) :
    keepContract r = .next t := by
  rw [h, keepContract]
  simp [withinContract, hc]

/-- The request taken is one of the list, and none of the list has a higher level (R409 (4)). -/
theorem foremost_spec (c : Chip) (l : List Request) :
    (foremost c l = none ↔ l = []) ∧ ∀ r, foremost c l = some r → r ∈ l ∧ ∀ q ∈ l, q.level ≤ r.level := by
  have before : ∀ q r : Request, goesBefore c q r = true → r.level ≤ q.level := by
    intro q r h
    simp only [goesBefore, Bool.or_eq_true, Bool.and_eq_true, decide_eq_true_eq] at h
    rcases h with h | h
    · exact BitVec.le_of_lt h
    · rw [h.1]
      exact BitVec.le_refl _
  have after : ∀ q r : Request, ¬ goesBefore c q r = true → q.level ≤ r.level := by
    intro q r h
    simp only [goesBefore, Bool.or_eq_true, Bool.and_eq_true, decide_eq_true_eq, not_or] at h
    exact BitVec.not_lt.mp h.1
  induction l with
  | nil => simp [foremost]
  | cons x xs ih =>
    rw [foremost]
    cases h : foremost c xs with
    | none =>
      have := ih.1.mp h
      subst this
      simp
    | some q =>
      obtain ⟨h1, h2⟩ := ih.2 q h
      dsimp only
      split_ifs with hg
      · refine ⟨by simp, fun r hr => ?_⟩
        cases hr
        refine ⟨by simp [h1], fun p hp => ?_⟩
        rcases List.mem_cons.mp hp with rfl | hp
        · exact before _ _ hg
        · exact h2 p hp
      · refine ⟨by simp, fun r hr => ?_⟩
        cases hr
        refine ⟨by simp, fun p hp => ?_⟩
        rcases List.mem_cons.mp hp with rfl | hp
        · exact BitVec.le_refl _
        · exact BitVec.le_trans (h2 p hp) (after _ _ hg)

end Sys2Proof.Machine
end

