-- ==== Sys2Proof/Laws/PerInstr.lean ====
section
/-! SUPPORT. A statement about every instruction, one lemma for each constructor: how long its encoding is (R120). -/

namespace Sys2Proof.Laws

/-- Bytes of an encoding, if there is one, between `1` and `n` of them. -/
def Within (n : Nat) (o : Option (List Byte)) : Prop := ∀ bytes, o = some bytes → 1 ≤ bytes.length ∧ bytes.length ≤ n

theorem within_some (n : Nat) (bs : List Byte) (h1 : 1 ≤ bs.length) (h2 : bs.length ≤ n) : Within n (some bs) := by
  intro bytes h
  cases h
  exact ⟨h1, h2⟩

theorem within_none (n : Nat) : Within n none := by
  intro bytes h
  cases h

theorem within_mono (m n : Nat) (o : Option (List Byte)) (hmn : m ≤ n) (h : Within m o) : Within n o :=
  fun bytes hb => ⟨(h bytes hb).1, (h bytes hb).2.trans hmn⟩

theorem imm_length (v : Imm) : 1 ≤ v.bytes.length ∧ v.bytes.length ≤ 2 := by cases v <;> simp [Imm.bytes, putWord]

theorem mode_length (m : Mode) : m.bytes.length ≤ 3 := by cases m <;> simp [Mode.bytes, putWord, putAddr]

theorem lead_length (r : Acc) : r.lead.length ≤ 1 := by cases r <;> simp [Acc.lead]

theorem within_encAccMem (lead : List Byte) (c : Byte) (m : Mode) (h : lead.length ≤ 1) :
    Within 5 (encAccMem lead c m) := by
  intro bytes hb
  have := mode_length m
  simp only [encAccMem, Option.map_eq_some_iff] at hb
  obtain ⟨k, -, rfl⟩ := hb
  simp only [List.length_append, List.length_cons]
  omega

theorem within_encAcc (lead : List Byte) (c : Byte) (o : Operand) (h : lead.length ≤ 1) :
    Within 5 (encAcc lead c o) := by
  cases o with
  | imm v =>
    have := imm_length v
    apply within_some <;> simp only [List.length_append, List.length_cons] <;> omega
  | mem m => exact within_encAccMem lead c m h

theorem within_encRmw (accA accB lead : List Byte) (d dx a ax : Byte) (t : Target)
    (hA : 1 ≤ accA.length ∧ accA.length ≤ 2) (hB : 1 ≤ accB.length ∧ accB.length ≤ 2) (h : lead.length ≤ 1) :
    Within 4 (encRmw accA accB lead d dx a ax t) := by
  rcases t with r | m
  · cases r
    · exact within_some _ _ hA.1 (by omega)
    · exact within_some _ _ hB.1 (by omega)
  · cases m <;> first
      | exact within_none _
      | apply within_some <;> simp [putWord] <;> omega

theorem within_encCompare (i d a : Byte) (o : Operand) : Within 3 (encCompare i d a o) := by
  rcases o with v | m
  · have := imm_length v
    apply within_some <;> (simp only [List.length_cons]; omega)
  · cases m <;> first | exact within_none _ | apply within_some <;> simp [putWord]

theorem within_encBit (d a : Byte) (v : Imm) (m : Mode) : Within 5 (encBit d a v m) := by
  have := imm_length v
  cases m <;> first | exact within_none _ | apply within_some <;> simp [putWord] <;> omega

theorem within_encBit_rel (d a : Byte) (v : Imm) (m : Mode) (rr : Byte) :
    Within 6 ((encBit d a v m).map (· ++ [rr])) := by
  intro bytes hb
  simp only [Option.map_eq_some_iff] at hb
  obtain ⟨bs, hbs, rfl⟩ := hb
  have := within_encBit d a v m bs hbs
  simp only [List.length_append, List.length_cons, List.length_nil]
  omega

/-- R120: an encoding has 1 to 6 bytes. -/
def EncodingLength.Statement (i : Instr) : Prop := Within 6 (encode i)

theorem EncodingLength.lda (r : Acc) (o : Operand) : EncodingLength.Statement (.lda r o) :=
  within_mono 5 6 _ (by decide) (within_encAcc _ _ o (lead_length r))

theorem EncodingLength.ldm (v : Imm) (mode : Mode) : EncodingLength.Statement (.ldm v mode) := by
  have := imm_length v
  cases mode <;> first | exact within_none _ | apply within_some <;> simp [putWord] <;> omega

theorem EncodingLength.ldt (v : Byte) : EncodingLength.Statement (.ldt v) := within_some 6 _ (by simp) (by simp)

theorem EncodingLength.ldx (o : Operand) : EncodingLength.Statement (.ldx o) := by
  rcases o with v | m
  · have := imm_length v
    apply within_some <;> (simp only [List.length_cons]; omega)
  · cases m <;> first | exact within_none _ | apply within_some <;> simp [putWord]

theorem EncodingLength.ldy (o : Operand) : EncodingLength.Statement (.ldy o) := by
  rcases o with v | m
  · have := imm_length v
    apply within_some <;> (simp only [List.length_cons]; omega)
  · cases m <;> first | exact within_none _ | apply within_some <;> simp [putWord]

theorem EncodingLength.sta (r : Acc) (mode : Mode) : EncodingLength.Statement (.sta r mode) :=
  within_mono 5 6 _ (by decide) (within_encAccMem _ _ mode (lead_length r))

theorem EncodingLength.stx (mode : Mode) : EncodingLength.Statement (.stx mode) := by
  cases mode <;> first | exact within_none _ | apply within_some <;> simp [putWord]

theorem EncodingLength.sty (mode : Mode) : EncodingLength.Statement (.sty mode) := by
  cases mode <;> first | exact within_none _ | apply within_some <;> simp [putWord]

theorem EncodingLength.tax : EncodingLength.Statement .tax := within_some 6 _ (by simp) (by simp)

theorem EncodingLength.txa : EncodingLength.Statement .txa := within_some 6 _ (by simp) (by simp)

theorem EncodingLength.tay : EncodingLength.Statement .tay := within_some 6 _ (by simp) (by simp)

theorem EncodingLength.tya : EncodingLength.Statement .tya := within_some 6 _ (by simp) (by simp)

theorem EncodingLength.tsx : EncodingLength.Statement .tsx := within_some 6 _ (by simp) (by simp)

theorem EncodingLength.txs : EncodingLength.Statement .txs := within_some 6 _ (by simp) (by simp)

theorem EncodingLength.tad : EncodingLength.Statement .tad := within_some 6 _ (by simp) (by simp)

theorem EncodingLength.tas : EncodingLength.Statement .tas := within_some 6 _ (by simp) (by simp)

theorem EncodingLength.tda : EncodingLength.Statement .tda := within_some 6 _ (by simp) (by simp)

theorem EncodingLength.tsa : EncodingLength.Statement .tsa := within_some 6 _ (by simp) (by simp)

theorem EncodingLength.tbd : EncodingLength.Statement .tbd := within_some 6 _ (by simp) (by simp)

theorem EncodingLength.tdb : EncodingLength.Statement .tdb := within_some 6 _ (by simp) (by simp)

theorem EncodingLength.tbs : EncodingLength.Statement .tbs := within_some 6 _ (by simp) (by simp)

theorem EncodingLength.tsb : EncodingLength.Statement .tsb := within_some 6 _ (by simp) (by simp)

theorem EncodingLength.tbx : EncodingLength.Statement .tbx := within_some 6 _ (by simp) (by simp)

theorem EncodingLength.txb : EncodingLength.Statement .txb := within_some 6 _ (by simp) (by simp)

theorem EncodingLength.tby : EncodingLength.Statement .tby := within_some 6 _ (by simp) (by simp)

theorem EncodingLength.tyb : EncodingLength.Statement .tyb := within_some 6 _ (by simp) (by simp)

theorem EncodingLength.txy : EncodingLength.Statement .txy := within_some 6 _ (by simp) (by simp)

theorem EncodingLength.tyx : EncodingLength.Statement .tyx := within_some 6 _ (by simp) (by simp)

theorem EncodingLength.psh (mask : Byte) : EncodingLength.Statement (.psh mask) := within_some 6 _ (by simp) (by simp)

theorem EncodingLength.pul (mask : Byte) : EncodingLength.Statement (.pul mask) := within_some 6 _ (by simp) (by simp)

theorem EncodingLength.pha : EncodingLength.Statement .pha := within_some 6 _ (by simp) (by simp)

theorem EncodingLength.pla : EncodingLength.Statement .pla := within_some 6 _ (by simp) (by simp)

theorem EncodingLength.php : EncodingLength.Statement .php := within_some 6 _ (by simp) (by simp)

theorem EncodingLength.plp : EncodingLength.Statement .plp := within_some 6 _ (by simp) (by simp)

theorem EncodingLength.phb : EncodingLength.Statement .phb := within_some 6 _ (by simp) (by simp)

theorem EncodingLength.plb : EncodingLength.Statement .plb := within_some 6 _ (by simp) (by simp)

theorem EncodingLength.phd : EncodingLength.Statement .phd := within_some 6 _ (by simp) (by simp)

theorem EncodingLength.pld : EncodingLength.Statement .pld := within_some 6 _ (by simp) (by simp)

theorem EncodingLength.pht : EncodingLength.Statement .pht := within_some 6 _ (by simp) (by simp)

theorem EncodingLength.plt : EncodingLength.Statement .plt := within_some 6 _ (by simp) (by simp)

theorem EncodingLength.phx : EncodingLength.Statement .phx := within_some 6 _ (by simp) (by simp)

theorem EncodingLength.plx : EncodingLength.Statement .plx := within_some 6 _ (by simp) (by simp)

theorem EncodingLength.phy : EncodingLength.Statement .phy := within_some 6 _ (by simp) (by simp)

theorem EncodingLength.ply : EncodingLength.Statement .ply := within_some 6 _ (by simp) (by simp)

theorem EncodingLength.phg : EncodingLength.Statement .phg := within_some 6 _ (by simp) (by simp)

theorem EncodingLength.pea (v : Word) : EncodingLength.Statement (.pea v) :=
  within_some 6 _ (by simp [putWord]) (by simp [putWord])

theorem EncodingLength.pei (dd : Byte) : EncodingLength.Statement (.pei dd) := within_some 6 _ (by simp) (by simp)

theorem EncodingLength.per (v : Word) : EncodingLength.Statement (.per v) :=
  within_some 6 _ (by simp [putWord]) (by simp [putWord])

theorem EncodingLength.mvn (dst : Byte) (src : Byte) : EncodingLength.Statement (.mvn dst src) :=
  within_some 6 _ (by simp) (by simp)

theorem EncodingLength.mvp (dst : Byte) (src : Byte) : EncodingLength.Statement (.mvp dst src) :=
  within_some 6 _ (by simp) (by simp)

theorem EncodingLength.xab : EncodingLength.Statement .xab := within_some 6 _ (by simp) (by simp)

theorem EncodingLength.adc (r : Acc) (o : Operand) : EncodingLength.Statement (.adc r o) :=
  within_mono 5 6 _ (by decide) (within_encAcc _ _ o (lead_length r))

theorem EncodingLength.sbc (r : Acc) (o : Operand) : EncodingLength.Statement (.sbc r o) :=
  within_mono 5 6 _ (by decide) (within_encAcc _ _ o (lead_length r))

theorem EncodingLength.inc (t : Target) : EncodingLength.Statement (.inc t) :=
  within_mono 4 6 _ (by decide) (within_encRmw _ _ _ _ _ _ _ t (by decide) (by decide) (by decide))

theorem EncodingLength.dec (t : Target) : EncodingLength.Statement (.dec t) :=
  within_mono 4 6 _ (by decide) (within_encRmw _ _ _ _ _ _ _ t (by decide) (by decide) (by decide))

theorem EncodingLength.inx : EncodingLength.Statement .inx := within_some 6 _ (by simp) (by simp)

theorem EncodingLength.dex : EncodingLength.Statement .dex := within_some 6 _ (by simp) (by simp)

theorem EncodingLength.iny : EncodingLength.Statement .iny := within_some 6 _ (by simp) (by simp)

theorem EncodingLength.dey : EncodingLength.Statement .dey := within_some 6 _ (by simp) (by simp)

theorem EncodingLength.mpy (o : Operand) : EncodingLength.Statement (.mpy o) :=
  within_mono 5 6 _ (by decide) (within_encAcc _ _ o (by decide))

theorem EncodingLength.mpys (o : Operand) : EncodingLength.Statement (.mpys o) :=
  within_mono 5 6 _ (by decide) (within_encAcc _ _ o (by decide))

theorem EncodingLength.div (o : Operand) : EncodingLength.Statement (.div o) :=
  within_mono 5 6 _ (by decide) (within_encAcc _ _ o (by decide))

theorem EncodingLength.divs (o : Operand) : EncodingLength.Statement (.divs o) :=
  within_mono 5 6 _ (by decide) (within_encAcc _ _ o (by decide))

theorem EncodingLength.and (r : Acc) (o : Operand) : EncodingLength.Statement (.and r o) :=
  within_mono 5 6 _ (by decide) (within_encAcc _ _ o (lead_length r))

theorem EncodingLength.ora (r : Acc) (o : Operand) : EncodingLength.Statement (.ora r o) :=
  within_mono 5 6 _ (by decide) (within_encAcc _ _ o (lead_length r))

theorem EncodingLength.eor (r : Acc) (o : Operand) : EncodingLength.Statement (.eor r o) :=
  within_mono 5 6 _ (by decide) (within_encAcc _ _ o (lead_length r))

theorem EncodingLength.cmp (r : Acc) (o : Operand) : EncodingLength.Statement (.cmp r o) :=
  within_mono 5 6 _ (by decide) (within_encAcc _ _ o (lead_length r))

theorem EncodingLength.cpx (o : Operand) : EncodingLength.Statement (.cpx o) :=
  within_mono 3 6 _ (by decide) (within_encCompare _ _ _ o)

theorem EncodingLength.cpy (o : Operand) : EncodingLength.Statement (.cpy o) :=
  within_mono 3 6 _ (by decide) (within_encCompare _ _ _ o)

theorem EncodingLength.asl (t : Target) : EncodingLength.Statement (.asl t) :=
  within_mono 4 6 _ (by decide) (within_encRmw _ _ _ _ _ _ _ t (by decide) (by decide) (by decide))

theorem EncodingLength.asr (t : Target) : EncodingLength.Statement (.asr t) :=
  within_mono 4 6 _ (by decide) (within_encRmw _ _ _ _ _ _ _ t (by decide) (by decide) (by decide))

theorem EncodingLength.lsr (t : Target) : EncodingLength.Statement (.lsr t) :=
  within_mono 4 6 _ (by decide) (within_encRmw _ _ _ _ _ _ _ t (by decide) (by decide) (by decide))

theorem EncodingLength.rol (t : Target) : EncodingLength.Statement (.rol t) :=
  within_mono 4 6 _ (by decide) (within_encRmw _ _ _ _ _ _ _ t (by decide) (by decide) (by decide))

theorem EncodingLength.ror (t : Target) : EncodingLength.Statement (.ror t) :=
  within_mono 4 6 _ (by decide) (within_encRmw _ _ _ _ _ _ _ t (by decide) (by decide) (by decide))

theorem EncodingLength.rla (n : Imm) : EncodingLength.Statement (.rla n) := by
  have := imm_length n
  apply within_some <;> (simp only [List.length_cons]; omega)

theorem EncodingLength.exts (r : Acc) : EncodingLength.Statement (.exts r) := by
  cases r <;> apply within_some <;> simp

theorem EncodingLength.extz (r : Acc) : EncodingLength.Statement (.extz r) := by
  cases r <;> apply within_some <;> simp

theorem EncodingLength.clb (mask : Imm) (mode : Mode) : EncodingLength.Statement (.clb mask mode) :=
  within_mono 5 6 _ (by decide) (within_encBit _ _ mask mode)

theorem EncodingLength.seb (mask : Imm) (mode : Mode) : EncodingLength.Statement (.seb mask mode) :=
  within_mono 5 6 _ (by decide) (within_encBit _ _ mask mode)

theorem EncodingLength.clp (mask : Byte) : EncodingLength.Statement (.clp mask) := within_some 6 _ (by simp) (by simp)

theorem EncodingLength.sep (mask : Byte) : EncodingLength.Statement (.sep mask) := within_some 6 _ (by simp) (by simp)

theorem EncodingLength.clc : EncodingLength.Statement .clc := within_some 6 _ (by simp) (by simp)

theorem EncodingLength.sec : EncodingLength.Statement .sec := within_some 6 _ (by simp) (by simp)

theorem EncodingLength.clm : EncodingLength.Statement .clm := within_some 6 _ (by simp) (by simp)

theorem EncodingLength.sem : EncodingLength.Statement .sem := within_some 6 _ (by simp) (by simp)

theorem EncodingLength.cli : EncodingLength.Statement .cli := within_some 6 _ (by simp) (by simp)

theorem EncodingLength.sei : EncodingLength.Statement .sei := within_some 6 _ (by simp) (by simp)

theorem EncodingLength.clv : EncodingLength.Statement .clv := within_some 6 _ (by simp) (by simp)

theorem EncodingLength.jmp (j : Jump) : EncodingLength.Statement (.jmp j) := by
  cases j <;> apply within_some <;> simp [encJump, putWord, putAddr]

theorem EncodingLength.bra (d : Disp) : EncodingLength.Statement (.bra d) := by
  cases d <;> apply within_some <;> simp [putWord]

theorem EncodingLength.jsr (j : Jump) : EncodingLength.Statement (.jsr j) := by
  cases j <;> first | exact within_none _ | apply within_some <;> simp [putWord, putAddr]

theorem EncodingLength.bbc (mask : Imm) (mode : Mode) (rr : Byte) : EncodingLength.Statement (.bbc mask mode rr) :=
  within_encBit_rel _ _ mask mode rr

theorem EncodingLength.bbs (mask : Imm) (mode : Mode) (rr : Byte) : EncodingLength.Statement (.bbs mask mode rr) :=
  within_encBit_rel _ _ mask mode rr

theorem EncodingLength.bcc (rr : Byte) : EncodingLength.Statement (.bcc rr) := within_some 6 _ (by simp) (by simp)

theorem EncodingLength.bcs (rr : Byte) : EncodingLength.Statement (.bcs rr) := within_some 6 _ (by simp) (by simp)

theorem EncodingLength.bne (rr : Byte) : EncodingLength.Statement (.bne rr) := within_some 6 _ (by simp) (by simp)

theorem EncodingLength.beq (rr : Byte) : EncodingLength.Statement (.beq rr) := within_some 6 _ (by simp) (by simp)

theorem EncodingLength.bpl (rr : Byte) : EncodingLength.Statement (.bpl rr) := within_some 6 _ (by simp) (by simp)

theorem EncodingLength.bmi (rr : Byte) : EncodingLength.Statement (.bmi rr) := within_some 6 _ (by simp) (by simp)

theorem EncodingLength.bvc (rr : Byte) : EncodingLength.Statement (.bvc rr) := within_some 6 _ (by simp) (by simp)

theorem EncodingLength.bvs (rr : Byte) : EncodingLength.Statement (.bvs rr) := within_some 6 _ (by simp) (by simp)

theorem EncodingLength.rti : EncodingLength.Statement .rti := within_some 6 _ (by simp) (by simp)

theorem EncodingLength.rts : EncodingLength.Statement .rts := within_some 6 _ (by simp) (by simp)

theorem EncodingLength.rtl : EncodingLength.Statement .rtl := within_some 6 _ (by simp) (by simp)

theorem EncodingLength.brk (nn : Byte) : EncodingLength.Statement (.brk nn) := within_some 6 _ (by simp) (by simp)

theorem EncodingLength.wit : EncodingLength.Statement .wit := within_some 6 _ (by simp) (by simp)

theorem EncodingLength.stp : EncodingLength.Statement .stp := within_some 6 _ (by simp) (by simp)

theorem EncodingLength.nop : EncodingLength.Statement .nop := within_some 6 _ (by simp) (by simp)

end Sys2Proof.Laws
end

