-- ==== Sys2Proof/Tests/Slice0.lean ====
section
/-! SUPPORT. Tests: ill-formed terms, one word or more for each constructor's decoding, one step for each
instruction, and for each statement with hypotheses a state and operands that meet them. -/

namespace Sys2Proof.Tests

open Sys2Proof.Machine Sys2Proof.Safety

/-! ### Ill-formed terms: one for each check of `WellFormed` -/

theorem test_wf_imm_by_m : (Instr.lda .a (.imm (.i8 0))).wellFormed .s7750 false true = false := by decide
theorem test_wf_imm_by_x : (Instr.ldx (.imm (.i16 0))).wellFormed .s7750 false true = false := by decide
theorem test_wf_acc_group : (Instr.adc .b (.mem (.dirY 0))).wellFormed .s7750 false false = false := by decide
theorem test_wf_sta_mode : (Instr.sta .a (.dirY 0)).wellFormed .s7750 false false = false := by decide
theorem test_wf_rmw_mode : (Instr.asl (.mem (.absY 0))).wellFormed .s7750 false false = false := by decide
theorem test_wf_ldm_mode : (Instr.ldm (.i16 0) (.abl 0)).wellFormed .s7750 false false = false := by decide
theorem test_wf_ldm_imm : (Instr.ldm (.i8 0) (.dir 0)).wellFormed .s7750 false false = false := by decide
theorem test_wf_ldx_mode : (Instr.ldx (.mem (.dirX 0))).wellFormed .s7750 false false = false := by decide
theorem test_wf_ldy_mode : (Instr.ldy (.mem (.dirY 0))).wellFormed .s7750 false false = false := by decide
theorem test_wf_stx_mode : (Instr.stx (.dirX 0)).wellFormed .s7750 false false = false := by decide
theorem test_wf_sty_mode : (Instr.sty (.absX 0)).wellFormed .s7750 false false = false := by decide
theorem test_wf_cpx_mode : (Instr.cpx (.mem (.dirX 0))).wellFormed .s7750 false false = false := by decide
theorem test_wf_bit_mode : (Instr.clb (.i16 0) (.dirX 0)).wellFormed .s7750 false false = false := by decide
theorem test_wf_bit_imm : (Instr.bbs (.i8 0) (.dir 0) 0).wellFormed .s7750 false false = false := by decide
theorem test_wf_rla_imm : (Instr.rla (.i16 0)).wellFormed .s7750 true false = false := by decide
theorem test_wf_call : (Instr.jsr (.indL 0)).wellFormed .s7750 false false = false := by decide
theorem test_wf_series : (Instr.exts .a).wellFormed .s7700 false false = false := by decide
theorem test_wf_series_present : (Instr.exts .a).wellFormed .s7750 false false = true := by decide

/-! ### Decoding: the words written out from the encoding tables of the instructions' pages -/

/-- The instruction of bytes that are exactly one instruction. -/
def reads (series : Series) (m x : Bool) (bs : List Byte) : Option Instr :=
  match decode series m x bs with
  | .ok p => if p.2 = [] then some p.1 else none
  | .error _ => none

/-- On a 7750 with m = x = 0. -/
def dec (bs : List Byte) : Option Instr := reads .s7750 false false bs

/-- R162 to R166. -/
theorem test_decode_load :
    dec [0xA9, 0x34, 0x12] = some (.lda .a (.imm (.i16 0x1234))) ∧
    reads .s7750 true false [0x42, 0xA9, 0x12] = some (.lda .b (.imm (.i8 0x12))) ∧
    dec [0x64, 0x20, 0x34, 0x12] = some (.ldm (.i16 0x1234) (.dir 0x20)) ∧
    dec [0x89, 0xC2, 0x12] = some (.ldt 0x12) ∧
    dec [0xA2, 0x7F, 0x02] = some (.ldx (.imm (.i16 0x027F))) ∧
    dec [0xB6, 0x10] = some (.ldx (.mem (.dirY 0x10))) ∧
    reads .s7750 false true [0xA0, 0x7F] = some (.ldy (.imm (.i8 0x7F))) ∧
    dec [0xBC, 0x34, 0x12] = some (.ldy (.mem (.absX 0x1234))) := by
  decide

/-- R135: the fourteen memory modes of the accumulator group, with LDA. -/
theorem test_decode_modes :
    dec [0xA5, 0x10] = some (.lda .a (.mem (.dir 0x10))) ∧
    dec [0xB5, 0x10] = some (.lda .a (.mem (.dirX 0x10))) ∧
    dec [0xB2, 0x10] = some (.lda .a (.mem (.dInd 0x10))) ∧
    dec [0xA1, 0x10] = some (.lda .a (.mem (.dXInd 0x10))) ∧
    dec [0xB1, 0x10] = some (.lda .a (.mem (.dIndY 0x10))) ∧
    dec [0xA7, 0x10] = some (.lda .a (.mem (.dIndL 0x10))) ∧
    dec [0xB7, 0x10] = some (.lda .a (.mem (.dIndLY 0x10))) ∧
    dec [0xAD, 0x34, 0x12] = some (.lda .a (.mem (.abs 0x1234))) ∧
    dec [0xBD, 0x34, 0x12] = some (.lda .a (.mem (.absX 0x1234))) ∧
    dec [0xB9, 0x34, 0x12] = some (.lda .a (.mem (.absY 0x1234))) ∧
    dec [0xAF, 0x56, 0x34, 0x12] = some (.lda .a (.mem (.abl 0x123456))) ∧
    dec [0xBF, 0x56, 0x34, 0x12] = some (.lda .a (.mem (.ablX 0x123456))) ∧
    dec [0xA3, 0x01] = some (.lda .a (.mem (.sr 0x01))) ∧
    dec [0xB3, 0x01] = some (.lda .a (.mem (.srIndY 0x01))) := by
  decide

/-- R167 to R169, R180 to R199. -/
theorem test_decode_store_transfer :
    dec [0x8D, 0x00, 0x30] = some (.sta .a (.abs 0x3000)) ∧
    dec [0x42, 0x85, 0x42] = some (.sta .b (.dir 0x42)) ∧
    dec [0x96, 0x10] = some (.stx (.dirY 0x10)) ∧ dec [0x84, 0x10] = some (.sty (.dir 0x10)) ∧
    dec [0xAA] = some .tax ∧ dec [0x8A] = some .txa ∧ dec [0xA8] = some .tay ∧ dec [0x98] = some .tya ∧
    dec [0xBA] = some .tsx ∧ dec [0x9A] = some .txs ∧ dec [0x5B] = some .tad ∧ dec [0x1B] = some .tas ∧
    dec [0x7B] = some .tda ∧ dec [0x3B] = some .tsa ∧ dec [0x9B] = some .txy ∧ dec [0xBB] = some .tyx ∧
    dec [0x42, 0x5B] = some .tbd ∧ dec [0x42, 0x7B] = some .tdb ∧ dec [0x42, 0x1B] = some .tbs ∧
    dec [0x42, 0x3B] = some .tsb ∧ dec [0x42, 0xAA] = some .tbx ∧ dec [0x42, 0x8A] = some .txb ∧
    dec [0x42, 0xA8] = some .tby ∧ dec [0x42, 0x98] = some .tyb := by
  decide

/-- R212 to R234. -/
theorem test_decode_stack_move :
    dec [0xEB, 0x0F] = some (.psh 0x0F) ∧ dec [0xFB, 0xBF] = some (.pul 0xBF) ∧
    dec [0x48] = some .pha ∧ dec [0x68] = some .pla ∧ dec [0x08] = some .php ∧ dec [0x28] = some .plp ∧
    dec [0x42, 0x48] = some .phb ∧ dec [0x42, 0x68] = some .plb ∧ dec [0x0B] = some .phd ∧
    dec [0x2B] = some .pld ∧ dec [0x8B] = some .pht ∧ dec [0xAB] = some .plt ∧ dec [0xDA] = some .phx ∧
    dec [0xFA] = some .plx ∧ dec [0x5A] = some .phy ∧ dec [0x7A] = some .ply ∧ dec [0x4B] = some .phg ∧
    dec [0xF4, 0x34, 0x12] = some (.pea 0x1234) ∧ dec [0xD4, 0x10] = some (.pei 0x10) ∧
    dec [0x62, 0x34, 0x12] = some (.per 0x1234) ∧ dec [0x54, 0x02, 0x01] = some (.mvn 0x02 0x01) ∧
    dec [0x44, 0x02, 0x01] = some (.mvp 0x02 0x01) ∧ dec [0x89, 0x28] = some .xab := by
  decide

/-- R241 to R255. -/
theorem test_decode_arithmetic :
    dec [0x69, 0xFF, 0x7F] = some (.adc .a (.imm (.i16 0x7FFF))) ∧
    dec [0x42, 0x65, 0x10] = some (.adc .b (.mem (.dir 0x10))) ∧
    dec [0xE9, 0x01, 0x00] = some (.sbc .a (.imm (.i16 0x0001))) ∧
    dec [0x3A] = some (.inc (.acc .a)) ∧ dec [0xE6, 0x10] = some (.inc (.mem (.dir 0x10))) ∧
    dec [0x42, 0x1A] = some (.dec (.acc .b)) ∧ dec [0xDE, 0x34, 0x12] = some (.dec (.mem (.absX 0x1234))) ∧
    dec [0xE8] = some .inx ∧ dec [0xCA] = some .dex ∧ dec [0xC8] = some .iny ∧ dec [0x88] = some .dey ∧
    dec [0x89, 0x09, 0xFF, 0xFF] = some (.mpy (.imm (.i16 0xFFFF))) ∧
    dec [0x89, 0x89, 0x03, 0x00] = some (.mpys (.imm (.i16 0x0003))) ∧
    dec [0x89, 0x25, 0x40] = some (.div (.mem (.dir 0x40))) ∧
    dec [0x89, 0xA9, 0x02, 0x00] = some (.divs (.imm (.i16 0x0002))) := by
  decide

/-- R256 to R267, R288, R289; R129 for the B forms of ASR, EXTS and EXTZ. -/
theorem test_decode_logic_shift :
    dec [0x29, 0x0F, 0xF0] = some (.and .a (.imm (.i16 0xF00F))) ∧
    dec [0x03, 0x01] = some (.ora .a (.mem (.sr 0x01))) ∧
    dec [0x42, 0x51, 0x10] = some (.eor .b (.mem (.dIndY 0x10))) ∧
    dec [0xD5, 0x10] = some (.cmp .a (.mem (.dirX 0x10))) ∧
    dec [0xE0, 0x10, 0x00] = some (.cpx (.imm (.i16 0x0010))) ∧
    dec [0xC4, 0x10] = some (.cpy (.mem (.dir 0x10))) ∧
    dec [0x06, 0x10] = some (.asl (.mem (.dir 0x10))) ∧ dec [0x42, 0x08] = some (.asr (.acc .b)) ∧
    dec [0x89, 0x16, 0x10] = some (.asr (.mem (.dirX 0x10))) ∧ dec [0x4A] = some (.lsr (.acc .a)) ∧
    dec [0x2E, 0x34, 0x12] = some (.rol (.mem (.abs 0x1234))) ∧
    dec [0x7E, 0x00, 0x30] = some (.ror (.mem (.absX 0x3000))) ∧
    dec [0x89, 0x49, 0x04, 0x00] = some (.rla (.i16 0x0004)) ∧
    dec [0x89, 0x8B] = some (.exts .a) ∧ dec [0x42, 0x8B] = some (.exts .b) ∧
    dec [0x89, 0xAB] = some (.extz .a) ∧ dec [0x42, 0xAB] = some (.extz .b) := by
  decide

/-- R301 to R311. -/
theorem test_decode_bits_flags :
    dec [0x14, 0x04, 0xA5, 0x5A] = some (.clb (.i16 0x5AA5) (.dir 0x04)) ∧
    dec [0x0C, 0x00, 0x30, 0x01, 0x80] = some (.seb (.i16 0x8001) (.abs 0x3000)) ∧
    dec [0xC2, 0x20] = some (.clp 0x20) ∧ dec [0xE2, 0x30] = some (.sep 0x30) ∧
    dec [0x18] = some .clc ∧ dec [0x38] = some .sec ∧ dec [0xD8] = some .clm ∧ dec [0xF8] = some .sem ∧
    dec [0x58] = some .cli ∧ dec [0x78] = some .sei ∧ dec [0xB8] = some .clv := by
  decide

/-- R331 to R347, R371 to R374. -/
theorem test_decode_control :
    dec [0x4C, 0x14, 0xAC] = some (.jmp (.abs 0xAC14)) ∧ dec [0x5C, 0x56, 0x34, 0x12] = some (.jmp (.abl 0x123456)) ∧
    dec [0x6C, 0x34, 0x12] = some (.jmp (.ind 0x1234)) ∧ dec [0xDC, 0x34, 0x12] = some (.jmp (.indL 0x1234)) ∧
    dec [0x7C, 0x00, 0x90] = some (.jmp (.indX 0x9000)) ∧ dec [0x80, 0x10] = some (.bra (.short 0x10)) ∧
    dec [0x82, 0x00, 0x10] = some (.bra (.long 0x1000)) ∧ dec [0x20, 0x00, 0x90] = some (.jsr (.abs 0x9000)) ∧
    dec [0x22, 0x00, 0x90, 0x05] = some (.jsr (.abl 0x059000)) ∧ dec [0xFC, 0x00, 0x90] = some (.jsr (.indX 0x9000)) ∧
    dec [0x3C, 0x00, 0x30, 0x00, 0xFF, 0xF9] = some (.bbc (.i16 0xFF00) (.abs 0x3000) 0xF9) ∧
    reads .s7750 true false [0x24, 0x10, 0x81, 0x05] = some (.bbs (.i8 0x81) (.dir 0x10) 0x05) ∧
    dec [0x90, 0x02] = some (.bcc 0x02) ∧ dec [0xB0, 0x02] = some (.bcs 0x02) ∧ dec [0xD0, 0xF0] = some (.bne 0xF0) ∧
    dec [0xF0, 0x10] = some (.beq 0x10) ∧ dec [0x10, 0x7F] = some (.bpl 0x7F) ∧ dec [0x30, 0x01] = some (.bmi 0x01) ∧
    dec [0x50, 0x7F] = some (.bvc 0x7F) ∧ dec [0x70, 0x7F] = some (.bvs 0x7F) ∧ dec [0x40] = some .rti ∧
    dec [0x60] = some .rts ∧ dec [0x6B] = some .rtl ∧ dec [0x00, 0xEA] = some (.brk 0xEA) ∧
    dec [0xCB] = some .wit ∧ dec [0xDB] = some .stp ∧ dec [0xEA] = some .nop := by
  decide

/-- R130, R128: V7, V8, V9, V10; and bytes that end too early. -/
theorem test_decode_undefined :
    dec [0x42, 0xE8] = none ∧ dec [0x42, 0x89, 0x09, 0x02, 0x00] = none ∧ dec [0x02] = none ∧
    reads .s7700 false false [0x89, 0x8B] = none ∧ dec [0xA9, 0x34] = none ∧ dec [] = none := by
  decide

/-- R131: encodings from the same tables. -/
theorem test_encode :
    encode (.lda .b (.mem (.ablX 0x123456))) = some [0x42, 0xBF, 0x56, 0x34, 0x12] ∧
    encode (.asr (.mem (.absX 0x3000))) = some [0x89, 0x1E, 0x00, 0x30] ∧
    encode (.bbc (.i16 0xFF00) (.abs 0x3000) 0xF9) = some [0x3C, 0x00, 0x30, 0x00, 0xFF, 0xF9] := by
  decide

/-- The opcode table's numbers: A9 with its operand zero, 42A9 and 898B with the prefix first (assumption log 20). -/
theorem test_table_word :
    decodeTableWord 8 0xA9 = some (.lda .a (.imm (.i16 0))) ∧ decodeTableWord 16 0x42A9 = some (.lda .b (.imm (.i16 0))) ∧
    decodeTableWord 16 0x898B = some (.exts .a) ∧ decodeTableWord 8 0x02 = none := by
  decide

/-- A placed row is the next step's instruction. -/
theorem test_with_fetch_word :
    (match step ({ State.reset with b := 0x1234#16 }.withFetchWord 16 0x42A9) with
      | .next t => some (t.b, t.pc, t.flag .z)
      | _ => none) = some (0x0000#16, 0x0004#16, true) := by
  decide

/-! ### One step: the vectors of 95_test_vectors.md, by their numbers -/

/-- The default start of the vectors. -/
def start : State := { State.reset with sp := 0x01FF#16, pc := 0x8000#16, ps := 0#11 }

/-- Bytes in memory from an address on. -/
def hold (s : State) (a : Addr) (bs : List Byte) : State := s.setMem (placeBytes bs a s.mem)

/-- The state after one step with the bytes at `PG:PC`. -/
def run1 (s : State) (code : List Byte) : Option State :=
  match step (hold s s.pcAddr code) with
  | .next t => some t
  | .fault _ => none
  | .refused _ => none

/-- V2. -/
theorem test_lda_8bit :
    (run1 { start with ps := 0x020#11, a := 0xFF00#16 } [0xA9, 0x34, 0x12, 0xEA]).map
      (fun t => (t.a, t.ps)) =
    some (0xFF34#16, 0x020#11) := by
  decide

/-- V31. -/
theorem test_lda_absY :
    (run1 (hold { start with ps := 0x010#11, y := 0x1201#16 } 0x003001#24 [0x22, 0x00]) [0xB9, 0x00, 0x30]).map
      (fun t => (t.a, t.ps)) =
    some (0x0022#16, 0x010#11) := by
  decide

/-- V53. -/
theorem test_ldm_absX :
    (run1 (hold { start with ps := 0x0A0#11, x := 0x0005#16 } 0x003005#24 [0x77]) [0x9E, 0x00, 0x30, 0x00]).map
      (fun t => (t.ps, t.byteAt 0x003005#24)) =
    some (0x0A0#11, 0x00#8) := by
  decide

/-- V54. -/
theorem test_ldt :
    (run1 { start with dt := 0x05#8, ps := 0x080#11 } [0x89, 0xC2, 0x00]).map
      (fun t => (t.dt, t.ps)) =
    some (0x00#8, 0x080#11) := by
  decide

/-- V5. -/
theorem test_ldx_8bit :
    (run1 { start with ps := 0x010#11, x := 0xAB00#16 } [0xA2, 0x7F, 0x02]).map
      (fun t => (t.x, t.ps)) =
    some (0xAB7F#16, 0x010#11) := by
  decide

/-- V55. -/
theorem test_ldy_dirX :
    (run1 (hold { start with x := 0x0002#16 } 0x000012#24 [0x00, 0x80]) [0xB4, 0x10]).map
      (fun t => (t.y, t.ps)) =
    some (0x8000#16, 0x080#11) := by
  decide

/-- V39. -/
theorem test_sta_16bit :
    (run1 { start with a := 0xBEEF#16 } [0x85, 0x20]).map
      (fun t => (t.ps, t.byteAt 0x000020#24, t.byteAt 0x000021#24)) =
    some (0x000#11, 0xEF#8, 0xBE#8) := by
  decide

/-- V56. -/
theorem test_stx_dirY :
    (run1 (hold { start with ps := 0x010#11, x := 0xAB12#16, y := 0x0003#16 } 0x000013#24 [0xFF, 0xFF])
      [0x96, 0x10]).map
      (fun t => (t.ps, t.byteAt 0x000013#24)) =
    some (0x010#11, 0x12#8) := by
  decide

/-- V59. -/
theorem test_tax_whole :
    (run1 { start with ps := 0x020#11, a := 0x8000#16 } [0xAA]).map
      (fun t => (t.x, t.ps)) =
    some (0x8000#16, 0x0A0#11) := by
  decide

/-- V58. -/
theorem test_txa_8bit :
    (run1 { start with ps := 0x020#11, x := 0x1280#16, a := 0xAAAA#16 } [0x8A]).map
      (fun t => (t.a, t.ps)) =
    some (0xAA80#16, 0x0A0#11) := by
  decide

/-- V60. -/
theorem test_tas :
    (run1 { start with ps := 0x020#11, a := 0x0000#16 } [0x1B]).map
      (fun t => (t.sp, t.ps)) =
    some (0x0000#16, 0x020#11) := by
  decide

/-- V61. -/
theorem test_tbd :
    (run1 { start with b := 0xFF10#16 } [0x42, 0x5B]).map
      (fun t => (t.dpr, t.ps)) =
    some (0xFF10#16, 0x000#11) := by
  decide

/-- V62. -/
theorem test_txs_8bit :
    (run1 { start with ps := 0x010#11, x := 0x02FF#16 } [0x9A]).map
      (fun t => (t.sp, t.ps)) =
    some (0x00FF#16, 0x010#11) := by
  decide

/-- V63. -/
theorem test_tsx_8bit :
    (run1 { start with ps := 0x010#11, sp := 0x0180#16, x := 0x5500#16 } [0xBA]).map
      (fun t => (t.x, t.ps)) =
    some (0x5580#16, 0x090#11) := by
  decide

/-- V64. -/
theorem test_tda :
    (run1 { start with dpr := 0x0000#16, a := 0x1111#16 } [0x7B]).map
      (fun t => (t.a, t.ps)) =
    some (0x0000#16, 0x002#11) := by
  decide

/-- V57. -/
theorem test_txa_zero_extended :
    (run1 { start with ps := 0x010#11, x := 0x12FF#16, a := 0xAAAA#16 } [0x8A]).map
      (fun t => (t.a, t.ps)) =
    some (0x00FF#16, 0x010#11) := by
  decide

/-- V65. -/
theorem test_tyb_zero_extended :
    (run1 { start with ps := 0x010#11, y := 0xFF80#16, b := 0x1234#16 } [0x42, 0x98]).map
      (fun t => (t.b, t.ps)) =
    some (0x0080#16, 0x010#11) := by
  decide

/-- V67. -/
theorem test_pha_8bit :
    (run1 { start with ps := 0x020#11, a := 0x1234#16 } [0x48]).map
      (fun t => (t.sp, t.ps, t.byteAt 0x0001FF#24)) =
    some (0x01FE#16, 0x020#11, 0x34#8) := by
  decide

/-- V68. -/
theorem test_pla :
    (run1 (hold { start with sp := 0x01FD#16 } 0x0001FE#24 [0x00, 0x80]) [0x68]).map
      (fun t => (t.a, t.sp, t.ps)) =
    some (0x8000#16, 0x01FF#16, 0x080#11) := by
  decide

/-- V69. -/
theorem test_phb :
    (run1 { start with b := 0xBEEF#16 } [0x42, 0x48]).map
      (fun t => (t.sp, t.ps, t.byteAt 0x0001FF#24, t.byteAt 0x0001FE#24)) =
    some (0x01FD#16, 0x000#11, 0xBE#8, 0xEF#8) := by
  decide

/-- V70. -/
theorem test_php :
    (run1 { start with ps := 0x5A3#11 } [0x08]).map
      (fun t => (t.sp, t.ps, t.byteAt 0x0001FF#24, t.byteAt 0x0001FE#24)) =
    some (0x01FD#16, 0x5A3#11, 0x05#8, 0xA3#8) := by
  decide

/-- V71. -/
theorem test_plp :
    (run1 (hold { start with sp := 0x01FD#16 } 0x0001FE#24 [0x31, 0xFF]) [0x28]).map
      (fun t => (t.sp, t.ps)) =
    some (0x01FF#16, 0x731#11) := by
  decide

/-- V73. -/
theorem test_plt :
    (run1 (hold { start with sp := 0x01FE#16 } 0x0001FF#24 [0x80]) [0xAB]).map
      (fun t => (t.sp, t.dt, t.ps)) =
    some (0x01FF#16, 0x80#8, 0x080#11) := by
  decide

/-- V74. -/
theorem test_phg :
    (run1 { start with pc := 0x8000#16, pg := 0x12#8 } [0x4B]).map
      (fun t => (t.sp, t.ps, t.byteAt 0x0001FF#24)) =
    some (0x01FE#16, 0x000#11, 0x12#8) := by
  decide

/-- V75. -/
theorem test_pea :
    (run1 start [0xF4, 0x34, 0x12]).map
      (fun t => (t.sp, t.ps, t.byteAt 0x0001FF#24, t.byteAt 0x0001FE#24)) =
    some (0x01FD#16, 0x000#11, 0x12#8, 0x34#8) := by
  decide

/-- V76. -/
theorem test_pei :
    (run1 (hold start 0x000010#24 [0xCD, 0xAB]) [0xD4, 0x10]).map
      (fun t => (t.sp, t.ps, t.byteAt 0x0001FF#24, t.byteAt 0x0001FE#24)) =
    some (0x01FD#16, 0x000#11, 0xAB#8, 0xCD#8) := by
  decide

/-- V78. -/
theorem test_per_wraps :
    (run1 { start with pc := 0xF000#16, pg := 0x01#8 } [0x62, 0x00, 0x80]).map
      (fun t => (t.sp, t.ps, t.byteAt 0x0001FF#24, t.byteAt 0x0001FE#24)) =
    some (0x01FD#16, 0x000#11, 0x70#8, 0x03#8) := by
  decide

/-- V80. -/
theorem test_psh_8bit :
    (run1 { start with a := 0x1122#16, b := 0x3344#16, x := 0x5566#16, y := 0x7788#16, ps := 0x030#11 } [0xEB,
      0x0F]).map
      (fun t => (t.sp, t.ps, t.byteAt 0x0001FF#24, t.byteAt 0x0001FE#24, t.byteAt 0x0001FD#24,
      t.byteAt 0x0001FC#24)) =
    some (0x01FB#16, 0x030#11, 0x22#8, 0x44#8, 0x66#8, 0x88#8) := by
  decide

/-- V81. -/
theorem test_pul_restored_widths :
    (run1 (hold { start with sp := 0x02F3#16, a := 0xEE00#16, b := 0xDD00#16 } 0x0002F4#24 [0x20, 0x03, 0xBB, 0xAA,
      0x99, 0x88, 0x77, 0x66, 0x55, 0x44, 0x22]) [0xFB, 0xBF]).map
      (fun t => (t.a, t.b, t.x, t.y, t.sp, t.dt, t.dpr, t.ps)) =
    some (0xEE22#16, 0xDD44#16, 0x5566#16, 0x7788#16, 0x02FE#16, 0xBB#8, 0x99AA#16, 0x320#11) := by
  decide

/-- V83. -/
theorem test_pul_no_flags :
    (run1 (hold { start with sp := 0x01FD#16, a := 0x1234#16 } 0x0001FE#24 [0x00, 0x00]) [0xFB, 0x01]).map
      (fun t => (t.a, t.sp, t.ps)) =
    some (0x0000#16, 0x01FF#16, 0x000#11) := by
  decide

/-- V86. -/
theorem test_mvn_overlap :
    (run1 (hold { start with a := 0x0004#16, x := 0x1000#16, y := 0x1001#16 } 0x001000#24 [0xA1, 0xA2, 0xA3, 0xA4,
      0xA5]) [0x54, 0x00, 0x00]).map
      (fun t => (t.a, t.x, t.y, t.ps, t.byteAt 0x001001#24, t.byteAt 0x001002#24, t.byteAt 0x001003#24,
      t.byteAt 0x001004#24)) =
    some (0xFFFF#16, 0x1004#16, 0x1005#16, 0x000#11, 0xA1#8, 0xA2#8, 0xA2#8, 0xA4#8) := by
  decide

/-- V88. -/
theorem test_mvn_8bit_count :
    (run1 (hold { start with ps := 0x020#11, a := 0x1202#16, x := 0x1000#16, y := 0x0800#16 } 0x001000#24 [0x09,
      0x08, 0x07]) [0x54, 0x00, 0x00]).map
      (fun t => (t.x, t.y, t.ps, t.byteAt 0x000800#24, t.byteAt 0x000801#24)) =
    some (0x1002#16, 0x0802#16, 0x020#11, 0x09#8, 0x08#8) := by
  decide

/-- V89. -/
theorem test_mvp_odd :
    (run1 (hold { start with a := 0x0003#16, x := 0x1002#16, y := 0x1003#16 } 0x001000#24 [0x01, 0x02, 0x03])
      [0x44, 0x00, 0x00]).map
      (fun t => (t.a, t.x, t.y, t.ps, t.byteAt 0x001002#24, t.byteAt 0x001003#24, t.byteAt 0x001001#24)) =
    some (0xFFFF#16, 0x0FFF#16, 0x1000#16, 0x000#11, 0x02#8, 0x03#8, 0x01#8) := by
  decide

/-- V90. -/
theorem test_xab_8bit :
    (run1 { start with ps := 0x020#11, a := 0x1234#16, b := 0x5600#16 } [0x89, 0x28]).map
      (fun t => (t.a, t.b, t.ps)) =
    some (0x1200#16, 0x5634#16, 0x022#11) := by
  decide

/-- V100. -/
theorem test_adc_overflow :
    (run1 { start with a := 0x0001#16 } [0x69, 0xFF, 0x7F]).map
      (fun t => (t.a, t.ps)) =
    some (0x8000#16, 0x0C0#11) := by
  decide

/-- V106. -/
theorem test_adc_decimal :
    (run1 { start with ps := 0x029#11, a := 0x0099#16 } [0x69, 0x01]).map
      (fun t => (t.a)) =
    some (0x0001#16) := by
  decide

/-- V110. -/
theorem test_sbc_overflow :
    (run1 { start with ps := 0x001#11, a := 0x8000#16 } [0xE9, 0x01, 0x00]).map
      (fun t => (t.a, t.ps)) =
    some (0x7FFF#16, 0x041#11) := by
  decide

/-- V112. -/
theorem test_sbc_decimal :
    (run1 { start with ps := 0x029#11, a := 0x0000#16 } [0xE9, 0x01]).map
      (fun t => (t.a)) =
    some (0x0099#16) := by
  decide

/-- V113. -/
theorem test_inc_memory :
    (run1 (hold { start with ps := 0x001#11 } 0x000010#24 [0xFF, 0xFF]) [0xE6, 0x10]).map
      (fun t => (t.ps, t.byteAt 0x000010#24, t.byteAt 0x000011#24)) =
    some (0x003#11, 0x00#8, 0x00#8) := by
  decide

/-- V114. -/
theorem test_inc_acc_8bit :
    (run1 { start with ps := 0x020#11, a := 0x127F#16 } [0x3A]).map
      (fun t => (t.a, t.ps)) =
    some (0x1280#16, 0x0A0#11) := by
  decide

/-- V115. -/
theorem test_dec_b :
    (run1 { start with b := 0x0000#16 } [0x42, 0x1A]).map
      (fun t => (t.b, t.ps)) =
    some (0xFFFF#16, 0x080#11) := by
  decide

/-- V116. -/
theorem test_dex_8bit :
    (run1 { start with ps := 0x010#11, x := 0x3400#16 } [0xCA]).map
      (fun t => (t.x, t.ps)) =
    some (0x34FF#16, 0x090#11) := by
  decide

/-- V117. -/
theorem test_iny :
    (run1 { start with y := 0x7FFF#16 } [0xC8]).map
      (fun t => (t.y, t.ps)) =
    some (0x8000#16, 0x080#11) := by
  decide

/-- V119. -/
theorem test_mpy_8bit :
    (run1 { start with ps := 0x020#11, a := 0x1210#16, b := 0x34FF#16 } [0x89, 0x09, 0x10]).map
      (fun t => (t.a, t.b, t.ps)) =
    some (0x1200#16, 0x3401#16, 0x020#11) := by
  decide

/-- V118. -/
theorem test_mpy_16bit :
    (run1 { start with a := 0xFFFF#16, ps := 0x001#11 } [0x89, 0x09, 0xFF, 0xFF]).map
      (fun t => (t.a, t.b, t.ps)) =
    some (0x0001#16, 0xFFFE#16, 0x080#11) := by
  decide

/-- V121. -/
theorem test_mpys :
    (run1 { start with a := 0xFFFE#16, ps := 0x001#11 } [0x89, 0x89, 0x03, 0x00]).map
      (fun t => (t.a, t.b, t.ps)) =
    some (0xFFFA#16, 0xFFFF#16, 0x081#11) := by
  decide

/-- V124. -/
theorem test_div_by_zero :
    (run1 (hold { start with a := 0x1234#16, b := 0x0001#16, ps := 0x0C1#11 } 0x00FFFC#24 [0x00, 0xD0])
      [0x89, 0x29, 0x00, 0x00]).map
      (fun t => (t.sp, t.ps, t.byteAt 0x0001FF#24, t.byteAt 0x0001FE#24, t.byteAt 0x0001FD#24, t.byteAt 0x0001FC#24,
      t.byteAt 0x0001FB#24)) =
    some (0x01FA#16, 0x0C5#11, 0x00#8, 0x80#8, 0x04#8, 0x00#8, 0xC1#8) := by
  decide

/-- V125. -/
theorem test_div_8bit :
    (run1 { start with ps := 0x020#11, a := 0xEE34#16, b := 0xDD12#16 } [0x89, 0x29, 0x56]).map
      (fun t => (t.a, t.b, t.ps)) =
    some (0xEE36#16, 0xDD10#16, 0x020#11) := by
  decide

/-- V126. -/
theorem test_divs_negative_dividend :
    (run1 { start with a := 0xFFF9#16, b := 0xFFFF#16 } [0x89, 0xA9, 0x02, 0x00]).map
      (fun t => (t.a, t.ps)) =
    some (0xFFFD#16, 0x080#11) := by
  decide

/-- V127. -/
theorem test_divs_negative_divisor :
    (run1 { start with a := 0x0007#16, b := 0x0000#16 } [0x89, 0xA9, 0xFE, 0xFF]).map
      (fun t => (t.a, t.b, t.ps)) =
    some (0xFFFD#16, 0x0001#16, 0x080#11) := by
  decide

/-- V129. -/
theorem test_and :
    (run1 { start with a := 0x1234#16 } [0x29, 0x0F, 0xF0]).map
      (fun t => (t.a, t.ps)) =
    some (0x1004#16, 0x000#11) := by
  decide

/-- V130. -/
theorem test_ora_8bit :
    (run1 { start with ps := 0x020#11, a := 0x1201#16 } [0x09, 0x80]).map
      (fun t => (t.a, t.ps)) =
    some (0x1281#16, 0x0A0#11) := by
  decide

/-- V131. -/
theorem test_eor :
    (run1 { start with a := 0x1234#16 } [0x49, 0x34, 0x12]).map
      (fun t => (t.a, t.ps)) =
    some (0x0000#16, 0x002#11) := by
  decide

/-- V133. -/
theorem test_cmp_less :
    (run1 { start with a := 0x7FFF#16, ps := 0x040#11 } [0xC9, 0x00, 0x80]).map
      (fun t => (t.ps)) =
    some (0x0C0#11) := by
  decide

/-- V134. -/
theorem test_cpx_8bit :
    (run1 { start with ps := 0x010#11, x := 0xFF20#16 } [0xE0, 0x10]).map
      (fun t => (t.ps)) =
    some (0x011#11) := by
  decide

/-- V135. -/
theorem test_cpy_dir :
    (run1 (hold { start with y := 0x0000#16 } 0x000010#24 [0x01, 0x00]) [0xC4, 0x10]).map
      (fun t => (t.ps)) =
    some (0x080#11) := by
  decide

/-- V137. -/
theorem test_asl_memory :
    (run1 (hold start 0x000010#24 [0x80, 0x40]) [0x06, 0x10]).map
      (fun t => (t.ps, t.byteAt 0x000010#24, t.byteAt 0x000011#24)) =
    some (0x080#11, 0x00#8, 0x81#8) := by
  decide

/-- V138. -/
theorem test_asr_acc :
    (run1 { start with a := 0x8001#16 } [0x89, 0x08]).map
      (fun t => (t.a, t.ps)) =
    some (0xC000#16, 0x081#11) := by
  decide

/-- V140. -/
theorem test_lsr :
    (run1 { start with a := 0x0001#16, ps := 0x080#11 } [0x4A]).map
      (fun t => (t.a, t.ps)) =
    some (0x0000#16, 0x003#11) := by
  decide

/-- V141. -/
theorem test_rol :
    (run1 { start with a := 0x8000#16, ps := 0x001#11 } [0x2A]).map
      (fun t => (t.a, t.ps)) =
    some (0x0001#16, 0x001#11) := by
  decide

/-- V142. -/
theorem test_ror_8bit :
    (run1 { start with ps := 0x021#11, a := 0x1202#16 } [0x6A]).map
      (fun t => (t.a, t.ps)) =
    some (0x1281#16, 0x0A0#11) := by
  decide

/-- V146. -/
theorem test_rla_8bit :
    (run1 { start with ps := 0x020#11, a := 0x1281#16 } [0x89, 0x49, 0x09]).map
      (fun t => (t.a, t.ps)) =
    some (0x1203#16, 0x020#11) := by
  decide

/-- V144. -/
theorem test_rla_16bit :
    (run1 { start with a := 0x1234#16, ps := 0x0C3#11 } [0x89, 0x49, 0x04, 0x00]).map
      (fun t => (t.a, t.ps)) =
    some (0x2341#16, 0x0C3#11) := by
  decide

/-- V147. -/
theorem test_exts_8bit :
    (run1 { start with ps := 0x020#11, a := 0x1280#16 } [0x89, 0x8B]).map
      (fun t => (t.a, t.ps)) =
    some (0xFF80#16, 0x0A0#11) := by
  decide

/-- V148. -/
theorem test_extz_b :
    (run1 { start with b := 0xFF80#16, ps := 0x080#11 } [0x42, 0xAB]).map
      (fun t => (t.b, t.ps)) =
    some (0x0080#16, 0x000#11) := by
  decide

/-- V160. -/
theorem test_seb_abs :
    (run1 (hold start 0x003000#24 [0x10, 0x00]) [0x0C, 0x00, 0x30, 0x01, 0x80]).map
      (fun t => (t.ps, t.byteAt 0x003000#24, t.byteAt 0x003001#24)) =
    some (0x000#11, 0x11#8, 0x80#8) := by
  decide

/-- V162. -/
theorem test_clb_abs :
    (run1 (hold { start with dt := 0x02#8, ps := 0x0C3#11 } 0x023000#24 [0xFF, 0xFF])
      [0x1C, 0x00, 0x30, 0xFF, 0x00]).map
      (fun t => (t.ps, t.byteAt 0x023000#24, t.byteAt 0x023001#24)) =
    some (0x0C3#11, 0x00#8, 0xFF#8) := by
  decide

/-- V163. -/
theorem test_clp :
    (run1 { start with ps := 0x7FF#11 } [0xC2, 0xFF]).map
      (fun t => (t.ps)) =
    some (0x700#11) := by
  decide

/-- V182. -/
theorem test_bra_backward :
    (run1 { start with pc := 0x0000#16, pg := 0x02#8 } [0x80, 0xFC]).map
      (fun t => (t.pcAddr, t.ps)) =
    some (0x01FFFE#24, 0x000#11) := by
  decide

/-- V183. -/
theorem test_bra_long :
    (run1 { start with pc := 0xF800#16, pg := 0x01#8 } [0x82, 0x00, 0x10]).map
      (fun t => (t.pcAddr, t.ps)) =
    some (0x020803#24, 0x000#11) := by
  decide

/-- V184. -/
theorem test_beq_not_taken :
    (run1 { start with ps := 0x000#11 } [0xF0, 0x10]).map
      (fun t => (t.pcAddr, t.ps)) =
    some (0x008002#24, 0x000#11) := by
  decide

/-- V185. -/
theorem test_beq_taken :
    (run1 { start with ps := 0x002#11 } [0xF0, 0x10]).map
      (fun t => (t.pcAddr, t.ps)) =
    some (0x008012#24, 0x002#11) := by
  decide

/-- V186. -/
theorem test_bne_backward :
    (run1 { start with ps := 0x000#11 } [0xD0, 0xF0]).map
      (fun t => (t.pcAddr, t.ps)) =
    some (0x007FF2#24, 0x000#11) := by
  decide

/-- V189. -/
theorem test_bvs :
    (run1 { start with ps := 0x040#11 } [0x70, 0x7F]).map
      (fun t => (t.pcAddr, t.ps)) =
    some (0x008081#24, 0x040#11) := by
  decide

/-- V190. -/
theorem test_bvc :
    (run1 { start with ps := 0x040#11 } [0x50, 0x7F]).map
      (fun t => (t.pcAddr, t.ps)) =
    some (0x008002#24, 0x040#11) := by
  decide

/-- V191. -/
theorem test_bbs_taken :
    (run1 (hold { start with ps := 0x020#11 } 0x000010#24 [0xC1]) [0x24, 0x10, 0x81, 0x05]).map
      (fun t => (t.pcAddr, t.ps)) =
    some (0x008009#24, 0x020#11) := by
  decide

/-- V192. -/
theorem test_bbs_not_taken :
    (run1 (hold { start with ps := 0x020#11 } 0x000010#24 [0x80]) [0x24, 0x10, 0x81, 0x05]).map
      (fun t => (t.pcAddr, t.ps)) =
    some (0x008004#24, 0x020#11) := by
  decide

/-- V193. -/
theorem test_bbc_abs :
    (run1 (hold start 0x003000#24 [0xFF, 0x00]) [0x3C, 0x00, 0x30, 0x00, 0xFF, 0xF9]).map
      (fun t => (t.pcAddr, t.ps)) =
    some (0x007FFF#24, 0x000#11) := by
  decide

/-- V194. -/
theorem test_bbc_no_mask :
    (run1 (hold start 0x000010#24 [0xFF, 0xFF]) [0x34, 0x10, 0x00, 0x00, 0x04]).map
      (fun t => (t.pcAddr, t.ps)) =
    some (0x008009#24, 0x000#11) := by
  decide

/-- V197. -/
theorem test_jmp_end_of_bank :
    (run1 { start with pc := 0xFFFD#16, pg := 0x02#8 } [0x4C, 0x00, 0x20]).map
      (fun t => (t.pcAddr, t.ps)) =
    some (0x032000#24, 0x000#11) := by
  decide

/-- V200. -/
theorem test_jmp_indirect_long :
    (run1 (hold start 0x001234#24 [0x56, 0x34, 0x12]) [0xDC, 0x34, 0x12]).map
      (fun t => (t.pcAddr, t.ps)) =
    some (0x123456#24, 0x000#11) := by
  decide

/-- V203. -/
theorem test_jsr_long :
    (run1 { start with pc := 0x8000#16, pg := 0x03#8 } [0x22, 0x00, 0x90, 0x05]).map
      (fun t => (t.sp, t.pcAddr, t.ps, t.byteAt 0x0001FF#24, t.byteAt 0x0001FE#24, t.byteAt 0x0001FD#24)) =
    some (0x01FC#16, 0x059000#24, 0x000#11, 0x03#8, 0x80#8, 0x04#8) := by
  decide

/-- V204. -/
theorem test_jsr_indirect_x :
    (run1 (hold { start with x := 0x0004#16 } 0x009004#24 [0x00, 0xA0]) [0xFC, 0x00, 0x90]).map
      (fun t => (t.sp, t.pcAddr, t.ps, t.byteAt 0x0001FF#24, t.byteAt 0x0001FE#24)) =
    some (0x01FD#16, 0x00A000#24, 0x000#11, 0x80#8, 0x03#8) := by
  decide

/-- V205. -/
theorem test_rts :
    (run1 (hold { start with sp := 0x01FD#16, pc := 0x9000#16, pg := 0x03#8 } 0x0001FE#24 [0x03, 0x80]) [0x60]).map
      (fun t => (t.sp, t.pcAddr, t.ps)) =
    some (0x01FF#16, 0x038003#24, 0x000#11) := by
  decide

/-- V206. -/
theorem test_rtl :
    (run1 (hold { start with sp := 0x01FC#16, pc := 0x9000#16, pg := 0x05#8 } 0x0001FD#24 [0x04, 0x80, 0x03])
      [0x6B]).map
      (fun t => (t.sp, t.pcAddr, t.ps)) =
    some (0x01FF#16, 0x038004#24, 0x000#11) := by
  decide

/-- V207. -/
theorem test_rti :
    (run1 (hold { start with sp := 0x01FA#16, ps := 0x704#11, pc := 0x9000#16 } 0x0001FB#24 [0x21, 0x03, 0x01, 0x80,
      0x01]) [0x40]).map
      (fun t => (t.sp, t.pcAddr, t.ps)) =
    some (0x01FF#16, 0x018001#24, 0x321#11) := by
  decide

/-- V220. -/
theorem test_brk :
    (run1 (hold { start with ps := 0x2A3#11 } 0x00FFFA#24 [0x00, 0x90]) [0x00, 0xEA]).map
      (fun t => (t.sp, t.pcAddr, t.ps, t.byteAt 0x0001FF#24, t.byteAt 0x0001FE#24, t.byteAt 0x0001FD#24,
      t.byteAt 0x0001FC#24, t.byteAt 0x0001FB#24)) =
    some (0x01FA#16, 0x009000#24, 0x2A7#11, 0x00#8, 0x80#8, 0x02#8, 0x02#8, 0xA3#8) := by
  decide

/-- V223. -/
theorem test_nop :
    (run1 { start with ps := 0x7FF#11 } [0xEA]).map
      (fun t => (t.pcAddr, t.ps)) =
    some (0x008001#24, 0x7FF#11) := by
  decide

/-! ### One step: the instructions without a vector of their own -/

/-- R169 with R83: the direct page. -/
theorem test_sty :
    (run1 { start with y := 0x1234#16, dpr := 0x0200#16 } [0x84, 0x10]).map (fun t => (t.byteAt 0x000210#24, t.byteAt 0x000211#24, t.ps)) =
      some (0x34#8, 0x12#8, 0x000#11) := by
  decide

/-- R182: x = 1, YL alone. -/
theorem test_tay :
    (run1 { start with a := 0x1280#16, y := 0x5500#16, ps := 0x010#11 } [0xA8]).map (fun t => (t.y, t.ps)) =
      some (0x5580#16, 0x090#11) := by
  decide

/-- R183: m = 1, AL alone. -/
theorem test_tya :
    (run1 { start with a := 0x1280#16, y := 0x5500#16, ps := 0x020#11 } [0x98]).map (fun t => (t.a, t.ps)) =
      some (0x1200#16, 0x022#11) := by
  decide

/-- R186: 16 bits with m = 1, no flag. -/
theorem test_tad :
    (run1 { start with a := 0x8000#16, ps := 0x020#11 } [0x5B]).map (fun t => (t.dpr, t.ps)) =
      some (0x8000#16, 0x020#11) := by
  decide

/-- R189. -/
theorem test_tsa :
    (run1 { start with a := 0x0001#16 } [0x3B]).map (fun t => (t.a, t.ps)) =
      some (0x01FF#16, 0x000#11) := by
  decide

/-- R191: m = 1, BL alone. -/
theorem test_tdb :
    (run1 { start with b := 0x1234#16, dpr := 0x5680#16, ps := 0x020#11 } [0x42, 0x7B]).map (fun t => (t.b, t.ps)) =
      some (0x1280#16, 0x0A0#11) := by
  decide

/-- R192: 16 bits with m = 1. -/
theorem test_tbs :
    (run1 { start with b := 0x0280#16, ps := 0x020#11 } [0x42, 0x1B]).map (fun t => (t.sp, t.ps)) =
      some (0x0280#16, 0x020#11) := by
  decide

/-- R193. -/
theorem test_tsb :
    (run1 { start with sp := 0x8000#16 } [0x42, 0x3B]).map (fun t => (t.b, t.ps)) =
      some (0x8000#16, 0x080#11) := by
  decide

/-- R194: all of B with m = 1. -/
theorem test_tbx :
    (run1 { start with b := 0x8001#16, ps := 0x020#11 } [0x42, 0xAA]).map (fun t => (t.x, t.ps)) =
      some (0x8001#16, 0x0A0#11) := by
  decide

/-- R195: m = 0, x = 1: 00:XL. -/
theorem test_txb :
    (run1 { start with x := 0x12FF#16, ps := 0x010#11 } [0x42, 0x8A]).map (fun t => (t.b, t.ps)) =
      some (0x00FF#16, 0x010#11) := by
  decide

/-- R196. -/
theorem test_tby :
    (run1 { start with b := 0x1234#16 } [0x42, 0xA8]).map (fun t => (t.y, t.ps)) =
      some (0x1234#16, 0x000#11) := by
  decide

/-- R198: x = 1, YL alone. -/
theorem test_txy :
    (run1 { start with x := 0xAA80#16, y := 0x1234#16, ps := 0x010#11 } [0x9B]).map (fun t => (t.y, t.x, t.ps)) =
      some (0x1280#16, 0xAA80#16, 0x090#11) := by
  decide

/-- R199. -/
theorem test_tyx :
    (run1 { start with x := 0x0001#16, y := 0x0000#16 } [0xBB]).map (fun t => (t.x, t.ps)) =
      some (0x0000#16, 0x002#11) := by
  decide

/-- V72, first step. -/
theorem test_phd :
    (run1 { start with dpr := 0x8000#16 } [0x0B]).map (fun t => (t.sp, t.byteAt 0x0001FF#24)) =
      some (0x01FD#16, 0x80#8) := by
  decide

/-- R222: one byte. -/
theorem test_pht :
    (run1 { start with dt := 0x5A#8 } [0x8B]).map (fun t => (t.sp, t.byteAt 0x0001FF#24)) =
      some (0x01FE#16, 0x5A#8) := by
  decide

/-- R224: x = 1, one byte. -/
theorem test_phx :
    (run1 { start with x := 0x1234#16, ps := 0x010#11 } [0xDA]).map (fun t => (t.sp, t.byteAt 0x0001FF#24)) =
      some (0x01FE#16, 0x34#8) := by
  decide

/-- R226: x = 0, whatever m is. -/
theorem test_phy :
    (run1 { start with y := 0x1234#16, ps := 0x020#11 } [0x5A]).map (fun t => (t.sp, t.byteAt 0x0001FF#24, t.byteAt 0x0001FE#24)) =
      some (0x01FD#16, 0x12#8, 0x34#8) := by
  decide

/-- R219: m = 1, BL alone. -/
theorem test_plb :
    (run1 (hold { start with b := 0x1234#16, ps := 0x020#11 } 0x000200#24 [0x80]) [0x42, 0x68]).map (fun t => (t.b, t.sp, t.ps)) =
      some (0x1280#16, 0x0200#16, 0x0A0#11) := by
  decide

/-- R221: no flag. -/
theorem test_pld :
    (run1 (hold start 0x000200#24 [0x00, 0x80]) [0x2B]).map (fun t => (t.dpr, t.sp, t.ps)) =
      some (0x8000#16, 0x0201#16, 0x000#11) := by
  decide

/-- R225: x = 1, XL alone; the stack wraps in bank 0. -/
theorem test_plx :
    (run1 (hold { start with sp := 0xFFFF#16, x := 0x1234#16, ps := 0x010#11 } 0x000000#24 [0x00]) [0xFA]).map (fun t => (t.x, t.sp, t.ps)) =
      some (0x1200#16, 0x0000#16, 0x012#11) := by
  decide

/-- R227. -/
theorem test_ply :
    (run1 (hold start 0x000200#24 [0x34, 0x12]) [0x7A]).map (fun t => (t.y, t.sp, t.ps)) =
      some (0x1234#16, 0x0201#16, 0x000#11) := by
  decide

/-- V240, the instruction. -/
theorem test_inx :
    (run1 { start with x := 0x0041#16, ps := 0x020#11 } [0xE8]).map (fun t => (t.x, t.ps)) =
      some (0x0042#16, 0x020#11) := by
  decide

/-- R251. -/
theorem test_dey :
    (run1 { start with y := 0x0000#16 } [0x88]).map (fun t => (t.y, t.ps)) =
      some (0xFFFF#16, 0x080#11) := by
  decide

/-- V164, first step. -/
theorem test_sep :
    (run1 start [0xE2, 0x30]).map (fun t => t.ps) =
      some (0x030#11) := by
  decide

/-- V165. -/
theorem test_sec :
    (run1 start [0x38]).map (fun t => t.ps) =
      some (0x001#11) := by
  decide

/-- V165. -/
theorem test_sei :
    (run1 start [0x78]).map (fun t => t.ps) =
      some (0x004#11) := by
  decide

/-- V165. -/
theorem test_sem :
    (run1 start [0xF8]).map (fun t => t.ps) =
      some (0x020#11) := by
  decide

/-- V166. -/
theorem test_clc :
    (run1 { start with ps := 0x7FF#11 } [0x18]).map (fun t => t.ps) =
      some (0x7FE#11) := by
  decide

/-- V166. -/
theorem test_cli :
    (run1 { start with ps := 0x7FF#11 } [0x58]).map (fun t => t.ps) =
      some (0x7FB#11) := by
  decide

/-- V166. -/
theorem test_clm :
    (run1 { start with ps := 0x7FF#11 } [0xD8]).map (fun t => t.ps) =
      some (0x7DF#11) := by
  decide

/-- V166. -/
theorem test_clv :
    (run1 { start with ps := 0x7FF#11 } [0xB8]).map (fun t => t.ps) =
      some (0x7BF#11) := by
  decide

/-- V187. -/
theorem test_bcc :
    (run1 start [0x90, 0x02]).map (fun t => t.pcAddr) =
      some (0x008004#24) := by
  decide

/-- V187: not taken with C = 0. -/
theorem test_bcs :
    (run1 start [0xB0, 0x02]).map (fun t => t.pcAddr) =
      some (0x008002#24) := by
  decide

/-- V188. -/
theorem test_bmi :
    (run1 { start with ps := 0x080#11 } [0x30, 0x01]).map (fun t => t.pcAddr) =
      some (0x008003#24) := by
  decide

/-- V188: not taken with N = 1. -/
theorem test_bpl :
    (run1 { start with ps := 0x080#11 } [0x10, 0x7F]).map (fun t => t.pcAddr) =
      some (0x008002#24) := by
  decide

/-- V224. -/
theorem test_wit :
    (run1 start [0xCB]).map (fun t => (t.pcAddr, t.run)) =
      some (0x008001#24, .wait) := by
  decide

/-- V225. -/
theorem test_stp :
    (run1 start [0xDB]).map (fun t => (t.pcAddr, t.run)) =
      some (0x008001#24, .stop) := by
  decide

/-! ### Events, faults and refusals -/

/-- Whether the step faults. -/
def faults (s : State) : Bool :=
  match step s with
  | .fault .undefinedOpcode => true
  | _ => false

/-- Whether the step is refused. -/
def refuses (s : State) : Bool :=
  match step s with
  | .refused .singleChip => true
  | _ => false

/-- V7, V10: an undefined code faults, and so does a code of the 7750 Series elsewhere. -/
theorem test_undefined_code :
    faults (hold start start.pcAddr [0x42, 0xE8]) = true ∧
    faults (hold { start with chip := { Chip.standard with series := .s7700 } } 0x008000#24 [0x89, 0x8B]) = true := by
  decide

/-- V261. -/
theorem test_single_chip :
    refuses (hold { start with chip := { Chip.standard with singleChip := true } } 0x008000#24 [0x89, 0xC2, 0x01]) =
      true := by
  decide

/-- On a chip in single-chip mode. -/
def single : State := { start with chip := { Chip.standard with singleChip := true } }

/-- Assumption log 39, the model's choice: an undefined code at 01:0000, or with its second byte there, in single-chip
mode. -/
theorem test_fault_before_refusal :
    faults (hold { single with pg := 0x01#8, pc := 0x0000#16 } 0x010000#24 [0x02]) = true ∧
    faults (hold { single with pc := 0xFFFF#16 } 0x00FFFF#24 [0x42, 0xE8]) = true := by
  decide

/-- V240, V245: at the boundary with two requests, (U, 5) goes before (T, 3). -/
def requested : State :=
  { hold start 0x00FFEA#24 [0x00, 0xA0, 0x00, 0x90] with
    ps := 0x020#11, pg := 0x01#8, pc := 0x8001#16
    chip := { Chip.standard with sources := [⟨0, 0xFFEC#16⟩, ⟨1, 0xFFEA#16⟩] }
    irq := ⟨[⟨0, 3#3⟩], false, false, [[.raise ⟨1, 5#3⟩]]⟩ }

theorem test_request :
    (match step requested with
      | .next t => some (t.pcAddr, t.ps, t.byteAt 0x0001FF#24, t.byteAt 0x0001FB#24, t.irq.pending.map Request.src)
      | _ => none) =
    some (0x00A000#24, 0x524#11, 0x01#8, 0x20#8, [0]) := by
  decide

/-- V247. -/
def watched : State :=
  { hold start 0x00FFF6#24 [0x00, 0xB0] with ps := 0x704#11, pc := 0x8001#16, irq := ⟨[], true, false, []⟩ }

theorem test_watchdog :
    (match step watched with
      | .next t => some (t.pcAddr, t.ps, t.byteAt 0x0001FC#24, t.irq.wdtPending)
      | _ => none) =
    some (0x00B000#24, 0x704#11, 0x07#8, false) := by
  decide

/-- V250. -/
def stopped : State :=
  { hold start 0x00FFFE#24 [0x00, 0xC0] with
    dt := 0x05#8, dpr := 0x0200#16, pg := 0x03#8, ps := 0x7FF#11, run := .stop, irq := ⟨[], false, true, []⟩ }

theorem test_reset_event :
    (match step stopped with
      | .next t => some (t.pcAddr, t.dt, t.dpr, t.byteAt 0x00FFFF#24, t.run)
      | _ => none) =
    some (0x00C000#24, 0x00#8, 0x0000#16, 0xC0#8, .running) := by
  decide

/-! ### Witnesses: for each statement with hypotheses, what meets them all -/

/-- With a memory map that is RAM throughout, outside single-chip mode, every read gives what memory holds. -/
theorem gives_anywhere (s : State) (h1 : s.chip.regions = []) (h2 : s.chip.singleChip = false) (p : Addr) : gives s p :=
  ⟨.inl (by rw [State.kindAt, h1]; rfl), fun h => absurd h (by rw [h2]; decide)⟩

/-- A chip with device registers, RAM, an unmapped hole and ROM. -/
def mapped : State :=
  { start with chip := { Chip.standard with
      regions := [⟨0x0000, 0x007F, .device⟩, ⟨0x0080, 0x027F, .ram⟩, ⟨0x0280, 0xBFFF, .unmapped⟩,
        ⟨0xC000, 0xFFFF, .rom⟩] } }

theorem witness_DecodeInvertsEncode :
    (Instr.lda .b (.imm (.i8 0x5A))).wellFormed .s7700 true false = true := by
  decide

theorem witness_EncodeInvertsDecode :
    decode .s7700 true false [0x42, 0xA9, 0x5A, 0xEA] = .ok (.lda .b (.imm (.i8 0x5A)), [0xEA]) := by
  decide

theorem witness_UndefinedCodesCounted : opensPage 0x02#8 = false ∧ opensPage 0x42#8 = true := by decide

/-- NOP at PG:PC; the first clause with a request that is not acceptable, raised at this boundary. -/
def atNop : State := hold start 0x008000#24 [0xEA]

/-- The instruction in ROM up to the last address of bank 0, on a chip with device registers; and in single-chip mode. -/
def atRomEnd : State := hold { mapped with pc := 0xFFFF#16 } 0x00FFFF#24 [0xEA]

theorem witness_StepRunsDecodedInstruction :
    (let s : State := { atNop with ps := 0x004#11, irq := ⟨[], false, false, [[.raise ⟨0, 7#3⟩]]⟩ };
      (boundary s).run = .running ∧ nextEvent (boundary s) = none ∧ readInstr (boundary s) = ([0xEA], boundary s) ∧
        decode s.chip.series (s.flag .m) (s.flag .x) [0xEA] = .ok (.nop, [])) ∧
    (∀ s ∈ [atNop, atRomEnd, hold single 0x008000#24 [0xEA]],
      readyToRun s ∧ givesFrom 1 s s.pcAddr ∧
      decode s.chip.series (s.flag .m) (s.flag .x) [0xEA] = .ok (.nop, []) ∧
      (∀ k v, ([0xEA] : List Byte)[k]? = some v → s.byteAt (s.pcAddr + BitVec.ofNat 24 k) = v)) ∧
    (boundary atRomEnd).pcAddr = 0x00FFFF#24 := by
  have nth : ∀ (s : State) (b : Byte), s.byteAt s.pcAddr = b → ∀ k v, [b][k]? = some v →
      s.byteAt (s.pcAddr + BitVec.ofNat 24 k) = v := by
    intro s b h k v hk
    cases k with
    | zero =>
      cases hk
      rw [BitVec.add_zero]
      exact h
    | succ k => cases hk
  refine ⟨by decide, fun s hs => ?_, by decide⟩
  simp only [List.mem_cons, List.not_mem_nil, or_false] at hs
  rcases hs with rfl | rfl | rfl
  · exact ⟨⟨rfl, rfl⟩, fun _ _ => gives_anywhere _ rfl rfl _, by decide, nth _ _ (by decide)⟩
  · exact ⟨⟨rfl, rfl⟩, by unfold givesFrom gives; decide, by decide, nth _ _ (by decide)⟩
  · exact ⟨⟨rfl, rfl⟩, by unfold givesFrom gives; decide, by decide, nth _ _ (by decide)⟩

theorem witness_UndefinedCodeFaults :
    (let s : State := hold { mapped with pc := 0xC000#16 } 0x00C000#24 [0x02];
      readyToRun s ∧ gives s s.pcAddr ∧ lookup .s7750 [s.byteAt s.pcAddr] = none ∧
        opensPage (s.byteAt s.pcAddr) = false) ∧
    (let s : State := hold start 0x008000#24 [0x42, 0xE8];
      readyToRun s ∧ gives s s.pcAddr ∧ gives s (s.pcAddr + 1) ∧ opensPage (s.byteAt s.pcAddr) = true ∧
        lookup .s7750 [s.byteAt s.pcAddr, s.byteAt (s.pcAddr + 1)] = none) :=
  ⟨⟨⟨rfl, rfl⟩, by unfold gives; decide, by decide, by decide⟩, ⟨rfl, rfl⟩, gives_anywhere _ rfl rfl _,
    gives_anywhere _ rfl rfl _, by decide, by decide⟩

/-- PHA at PG:PC: a step that stores; and an entry, with a request of a listed source. -/
theorem witness_StepKeepsLegal :
    (legal (hold { start with a := 0x1234#16 } 0x008000#24 [0x48]) ∧
      (run1 { start with a := 0x1234#16 } [0x48]).isSome = true) ∧
    (legal requested ∧ ∃ t, step requested = .next t) :=
  ⟨⟨⟨by decide, by decide, by decide⟩, by decide⟩, ⟨by decide, by decide, by decide⟩, _, rfl⟩

/-- Every clause: ADC writes no special register, RTI may write PG, D and IPL, WIT and STP the run state. -/
theorem witness_OnlyListedInstructionsWrite :
    (Instr.adc .a (.imm (.i16 1))).wellFormed start.chip.series (start.flag .m) (start.flag .x) = true ∧
    writesPg (.adc .a (.imm (.i16 1))) = false ∧ writesDt (.adc .a (.imm (.i16 1))) = false ∧
    writesDpr (.adc .a (.imm (.i16 1))) = false ∧ writesD (.adc .a (.imm (.i16 1))) = false ∧
    writesIpl (.adc .a (.imm (.i16 1))) = false ∧ writesV .inx = false ∧
    (∃ t, exec (.adc .a (.imm (.i16 1))) start = .next t) ∧ (∃ t, exec .inx start = .next t) ∧
    (∃ t, exec .wit start = .next t ∧ t.run = .wait) ∧ (∃ t, exec .stp start = .next t ∧ t.run = .stop) :=
  ⟨by decide, by decide, by decide, by decide, by decide, by decide, by decide, ⟨_, rfl⟩, ⟨_, rfl⟩, ⟨_, rfl, rfl⟩,
    ⟨_, rfl, rfl⟩⟩

/-- With RAM throughout; with device registers and the vector in ROM; in single-chip mode, from beyond its contract. -/
theorem witness_ResetEvent :
    (∀ s ∈ [stopped, { stopped with chip := mapped.chip }, { stopped with chip := single.chip }],
      (s.chip.singleChip = true → s.bus.outside = false) ∧ (boundary s).irq.resetPending = true ∧
        givesFrom 2 s 0x00FFFE#24) := by
  intro s hs
  simp only [List.mem_cons, List.not_mem_nil, or_false] at hs
  rcases hs with rfl | rfl | rfl
  · exact ⟨by decide, by decide, fun _ _ => gives_anywhere _ rfl rfl _⟩
  · exact ⟨by decide, by decide, by unfold givesFrom gives; decide⟩
  · exact ⟨by decide, by decide, by unfold givesFrom gives; decide⟩

/-- Legal states, in which the vectors are those of the chip; in single-chip mode, and with the vector FFFF there. -/
theorem witness_RequestsAreTaken :
    (legal watched ∧ nextEvent (boundary watched) = some .watchdog) ∧
    (legal requested ∧ nextEvent (boundary requested) = some (.irq ⟨1, 5#3⟩)) ∧
    (let s : State := { watched with chip := single.chip };
      withinContract s = true ∧ s.chip.vecWdt ≠ 0xFFFF#16 ∧ nextEvent (boundary s) = some .watchdog ∧
        ∃ t, step s = .next t) ∧
    (let s : State := { watched with chip := { single.chip with vecWdt := 0xFFFF#16 } };
      nextEvent (boundary s) = some .watchdog ∧ step s = .refused .singleChip) ∧
    (let s : State := { requested with pg := 0#8, chip := { requested.chip with singleChip := true } };
      withinContract s = true ∧ vectorIn s.chip.sources 1 ≠ 0xFFFF#16 ∧
        nextEvent (boundary s) = some (.irq ⟨1, 5#3⟩)) :=
  ⟨⟨⟨by decide, by decide, by decide⟩, by decide⟩, ⟨⟨by decide, by decide, by decide⟩, by decide⟩,
    ⟨by decide, by decide, by decide, _, rfl⟩, ⟨by decide, rfl⟩, by decide, by decide, by decide⟩

/-- The entry of BRK, the stack inside the page, at its top and at the wrap of S; and on a chip with device registers. -/
theorem witness_RtiUndoesEntry :
    (∀ s ∈ [start, { start with sp := 0xFFFF#16 }, { start with sp := 0x0002#16 }, mapped],
      (∀ k : Nat, k < 5 → s.kindAt (mkAddr 0#8 (s.sp - BitVec.ofNat 16 k)) = .ram) ∧
        EntryResult 0xFFFA#16 none s (takeInterrupt 0xFFFA#16 none s) ∧
        ∃ t, exec .rti (takeInterrupt 0xFFFA#16 none s) = .next t) := by
  intro s hs
  refine ⟨?_, (takeInterrupt_result _ _ _).1, _, rfl⟩
  simp only [List.mem_cons, List.not_mem_nil, or_false] at hs
  rcases hs with rfl | rfl | rfl | rfl
  · exact fun _ _ => rfl
  · exact fun _ _ => rfl
  · exact fun _ _ => rfl
  · decide

/-- Levels 3 and 4 against IPL 3 (V240 to V243, V246): only the higher one is acceptable, and none with I = 1.  At the
boundary: an empty stream and an empty list; a request raised, withdrawn, and raised after it was withdrawn; the watchdog
request and the reset input set and taken back. -/
theorem witness_EventPriority :
    (nextEvent stopped = some .reset ∧ nextEvent watched = some .watchdog ∧
      nextEvent { start with ps := 0x300#11, irq := ⟨[⟨0, 3#3⟩, ⟨1, 4#3⟩], false, false, []⟩ } =
        some (.irq ⟨1, 4#3⟩) ∧
      nextEvent { start with ps := 0x300#11, irq := ⟨[⟨0, 3#3⟩], false, false, []⟩ } = none ∧
      nextEvent { start with ps := 0x004#11, irq := ⟨[⟨0, 7#3⟩], false, false, []⟩ } = none ∧
      nextEvent { start with irq := ⟨[⟨0, 0#3⟩], false, false, []⟩ } = none) ∧
    (start.irq.inputs = [] ∧ (start.setIrq ⟨[], false, false, [[], [.reset true]]⟩).irq.inputs = [[], [.reset true]]) ∧
    (boundary (start.setIrq ⟨[], false, false, [[.raise ⟨0, 3#3⟩], []]⟩)).irq = ⟨[⟨0, 3#3⟩], false, false, [[]]⟩ ∧
    (boundary (start.setIrq ⟨[⟨0, 3#3⟩, ⟨1, 4#3⟩], false, false, [[.withdraw ⟨0, 3#3⟩]]⟩)).irq =
      ⟨[⟨1, 4#3⟩], false, false, []⟩ ∧
    (boundary (start.setIrq ⟨[⟨0, 3#3⟩], false, false, [[.withdraw ⟨0, 3#3⟩, .raise ⟨0, 3#3⟩]]⟩)).irq =
      ⟨[⟨0, 3#3⟩], false, false, []⟩ ∧
    (boundary (start.setIrq ⟨[], true, true, [[.watchdog false, .reset false, .watchdog true]]⟩)).irq =
      ⟨[], true, false, []⟩ := by
  decide

/-- V249; and in single-chip mode. -/
theorem witness_StoppedStatesPersist :
    (let s : State := { start with ps := 0x004#11, run := .wait, irq := ⟨[⟨0, 7#3⟩], false, false, []⟩ };
      withinContract s = true ∧ s.run ≠ .running ∧ nextEvent (boundary s) = none) ∧
    (let s : State := { start with run := .stop };
      withinContract s = true ∧ s.run ≠ .running ∧ nextEvent (boundary s) = none) ∧
    (let s : State := { single with run := .wait };
      withinContract s = true ∧ s.run ≠ .running ∧ nextEvent (boundary s) = none) := by
  decide

/-- The highest legal DPR and the lowest illegal one; DT, PG and an access outside bank 0. -/
theorem witness_SingleChipContract :
    (match step (hold { single with a := 0xFF00#16 } 0x008000#24 [0x5B]) with
      | .next t => t.chip.singleChip && t.dpr == 0xFF00#16
      | _ => false) = true ∧
    (match turn (hold { single with a := 0xFF01#16 } 0x008000#24 [0x5B]) with
      | .next u => u.chip.singleChip && decide (0xFF00 < u.dpr.toNat)
      | _ => false) = true ∧
    (match turn (hold single 0x008000#24 [0x89, 0xC2, 0x01]) with
      | .next u => u.chip.singleChip && u.dt != 0#8
      | _ => false) = true ∧
    (match turn (hold single 0x008000#24 [0x5C, 0x00, 0x00, 0x01]) with
      | .next u => u.chip.singleChip && u.pg != 0#8
      | _ => false) = true ∧
    (match turn (hold single 0x008000#24 [0x8F, 0x00, 0x00, 0x01]) with
      | .next u => u.chip.singleChip && u.bus.outside
      | _ => false) = true := by
  decide

theorem witness_StoredDataReadBack :
    start.kindAt 0xFFFFFF#24 = .ram ∧ start.kindAt (0xFFFFFF#24 + 1) = .ram := by
  decide

/-- At the edges of the regions; and in single-chip mode in bank 0. -/
theorem witness_AccessesOutsideRam :
    mapped.kindAt 0x000280#24 = .unmapped ∧ mapped.kindAt 0x00BFFF#24 = .unmapped ∧
    mapped.kindAt 0x00C000#24 = .rom ∧ mapped.kindAt 0x00007F#24 = .device ∧ mapped.kindAt 0x000080#24 = .ram ∧
    mapped.chip.wf = true ∧ mapped.chip.singleChip = false ∧
    (let s : State := { mapped with chip := { mapped.chip with singleChip := true } };
      addrBank 0x00007F#24 = 0#8 ∧ s.kindAt 0x00007F#24 = .device ∧ s.kindAt 0x00FFFF#24 = .rom) := by
  decide

/-- For PointerAddresses, OperandValues and the indirect jumps: RAM and ROM at the edges, on a chip with device
registers, and across a bank with RAM throughout. -/
theorem witness_givesFrom :
    givesFrom 3 mapped 0x000080#24 ∧ givesFrom 2 mapped 0x00027E#24 ∧ givesFrom 2 mapped 0x00FFFE#24 ∧
    givesFrom 3 start 0xFFFFFF#24 ∧ givesFrom 3 single 0x00FFFD#24 ∧
    (effAddr (.dir 0x80#8) mapped).1 = 0x000080#24 ∧ (effAddr (.dirX 0x80#8) mapped).1 = 0x000080#24 ∧
    (effAddr (.sr 0x01#8) mapped).1 = 0x000200#24 ∧ givesFrom 2 mapped 0x000200#24 ∧
    mkAddr mapped.chip.absIndBank 0xFFFE#16 = 0x00FFFE#24 := by
  unfold givesFrom gives
  decide

/-- For the pulls and the returns: the stack on a chip with device registers, at the wrap of S, in single-chip mode. -/
theorem witness_givesStack :
    givesStack 13 { mapped with sp := 0x007F#16 } ∧ givesStack 13 mapped ∧ givesStack 13 { start with sp := 0xFFFE#16 } ∧
    givesStack 13 { single with sp := 0xFFFF#16 } ∧ (∀ mask : Byte, pulBytes mask start ≤ 13) := by
  unfold givesStack gives
  decide

/-- All registers but PG, with m and x changed in between; and a mask without PS. -/
theorem witness_PulUndoesPsh :
    (∃ u v t : State, (0xBF#8).getLsbD 6 = false ∧
      (∀ k : Nat, k < 14 → start.kindAt (mkAddr 0#8 (start.sp - BitVec.ofNat 16 k)) = .ram) ∧
      exec (.psh 0xBF#8) start = .next u ∧ v = { u with a := 0x1234#16, ps := 0x030#11 } ∧ v.sp = u.sp ∧
      v.chip = u.chip ∧ (∀ p, stackSpan 14 start.sp p → v.byteAt p = u.byteAt p) ∧
      ((0xBF#8).getLsbD 7 = false → v.mWidth = start.mWidth ∧ v.xWidth = start.xWidth) ∧
      exec (.pul 0xBF#8) v = .next t) ∧
    (∃ u v t : State, (0x0F#8).getLsbD 6 = false ∧ exec (.psh 0x0F#8) start = .next u ∧
      v = { u with a := 0x1234#16 } ∧ v.sp = u.sp ∧ v.chip = u.chip ∧
      (∀ p, stackSpan 14 start.sp p → v.byteAt p = u.byteAt p) ∧
      ((0x0F#8).getLsbD 7 = false → v.mWidth = start.mWidth ∧ v.xWidth = start.xWidth) ∧
      exec (.pul 0x0F#8) v = .next t) :=
  ⟨⟨_, _, _, rfl, fun _ _ => rfl, rfl, rfl, rfl, rfl, fun _ _ => rfl, fun h => absurd h (by decide), rfl⟩,
    ⟨_, _, _, rfl, rfl, rfl, rfl, rfl, fun _ _ => rfl, fun _ => ⟨by decide, by decide⟩, rfl⟩⟩

/-- Up to the last offset of a bank; within one bank downward in memory, and to another bank with overlap of offsets. -/
theorem witness_MvnMovesUpward :
    (let s : State := { start with a := 0x0003#16, x := 0xFFFD#16, y := 0x1000#16 };
      (∀ k : Nat, k < 3 → gives s (mkAddr 1#8 (BitVec.ofNat 16 (0xFFFD + k)))) ∧
      valueOf s.xWidth s.x + valueOf s.mWidth s.a ≤ 2 ^ bitsOf s.xWidth ∧
      valueOf s.xWidth s.y + valueOf s.mWidth s.a ≤ 2 ^ bitsOf s.xWidth ∧
      valueOf s.xWidth s.y ≤ valueOf s.xWidth s.x ∧
      (∀ k : Nat, k < 3 → s.kindAt (mkAddr 1#8 (BitVec.ofNat 16 (0x1000 + k))) = .ram)) ∧
    (let s : State := { mapped with ps := 0x030#11, a := 0x0002#16, x := 0x0080#16, y := 0x0011#16 };
      (∀ k : Nat, k < 2 → gives s (mkAddr 0#8 (BitVec.ofNat 16 (0x80 + k)))) ∧
      valueOf s.xWidth s.x + valueOf s.mWidth s.a ≤ 2 ^ bitsOf s.xWidth ∧
      valueOf s.xWidth s.y + valueOf s.mWidth s.a ≤ 2 ^ bitsOf s.xWidth ∧ (2#8 : Byte) ≠ 0#8 ∧
      (∀ k : Nat, k < 2 → s.kindAt (mkAddr 2#8 (BitVec.ofNat 16 (0x11 + k))) = .ram)) :=
  ⟨⟨fun _ _ => gives_anywhere _ rfl rfl _, by decide, by decide, by decide, fun _ _ => rfl⟩,
    by unfold gives; decide, by decide, by decide, by decide, by decide⟩

/-- Down to offset 0; upward in memory with overlap. -/
theorem witness_MvpMovesDownward :
    (let s : State := { start with a := 0x0003#16, x := 0x0002#16, y := 0x0003#16 };
      (∀ k : Nat, k < 3 → gives s (mkAddr 1#8 (BitVec.ofNat 16 (2 - k)))) ∧
      valueOf s.mWidth s.a ≤ valueOf s.xWidth s.x + 1 ∧
      valueOf s.mWidth s.a ≤ valueOf s.xWidth s.y + 1 ∧ valueOf s.xWidth s.x ≤ valueOf s.xWidth s.y ∧
      (∀ k : Nat, k < 3 → s.kindAt (mkAddr 1#8 (BitVec.ofNat 16 (3 - k))) = .ram)) :=
  ⟨fun _ _ => gives_anywhere _ rfl rfl _, by decide, by decide, by decide, fun _ _ => rfl⟩

/-- For AdcAddsInBinary and SbcSubtractsInBinary. -/
theorem witness_binary : start.flag .d = false := by decide

theorem witness_DecimalArithmetic :
    (let s : State := { start with ps := 0x008#11, a := 0x1999#16 };
      s.flag .d = true ∧ isBcd s.mWidth (s.acc .a) = true ∧
        isBcd s.mWidth (operand s.mWidth (.imm (.i16 0x9999)) s).1 = true) ∧
    (let s : State := { start with ps := 0x028#11, a := 0xFF99#16 };
      s.flag .d = true ∧ isBcd s.mWidth (s.acc .a) = true ∧
        isBcd s.mWidth (operand s.mWidth (.imm (.i8 0x00)) s).1 = true) := by
  decide

theorem witness_DigitsAboveNine :
    (let s : State := { start with ps := 0x008#11, a := 0x199A#16 };
      s.flag .d = true ∧ isBcd s.mWidth (s.acc .a) = false) ∧
    (let s : State := { start with ps := 0x028#11, a := 0x0099#16 };
      s.flag .d = true ∧ isBcd s.mWidth (operand s.mWidth (.imm (.i8 0xA0)) s).1 = false) := by
  decide

/-- For MpysMultipliesSigned, DivsDividesSigned, ExtendInstructions, ShiftInstructions, and the other series. -/
theorem witness_series :
    start.chip.series = .s7750 ∧ ({ Chip.standard with series := .s7700 } : Chip).series ≠ .s7750 := by
  decide

/-- The largest quotient that fits and the smallest that does not, at 16 bits (V123) and at 8 bits. -/
theorem witness_DivDivides :
    (let s : State := { start with b := 0x0000#16, a := 0xFFFF#16 };
      (operand s.mWidth (.imm (.i16 1)) s).1.toNat = 1 ∧
        (valueOf s.mWidth s.b * 2 ^ bitsOf s.mWidth + valueOf s.mWidth s.a) / 1 < 2 ^ bitsOf s.mWidth) ∧
    (let s : State := { start with b := 0x0001#16, a := 0x0000#16 };
      2 ^ bitsOf s.mWidth ≤ (valueOf s.mWidth s.b * 2 ^ bitsOf s.mWidth + valueOf s.mWidth s.a) / 1) ∧
    (let s : State := { start with ps := 0x020#11, b := 0xEE01#16, a := 0xEE00#16 };
      (operand s.mWidth (.imm (.i8 1)) s).1.toNat = 1 ∧
        2 ^ bitsOf s.mWidth ≤ (valueOf s.mWidth s.b * 2 ^ bitsOf s.mWidth + valueOf s.mWidth s.a) / 1) := by
  decide

/-- Quotients 7FFF, -8000 and the first beyond each. -/
theorem witness_DivsDividesSigned :
    (let s : State := { start with b := 0x0000#16, a := 0x7FFF#16 };
      signedOf .w16 (operand s.mWidth (.imm (.i16 1)) s).1.toNat = 1 ∧
        (signedOf .w16 (valueOf .w16 s.b) * 2 ^ 16 + valueOf .w16 s.a).tdiv 1 = 2 ^ 15 - 1) ∧
    (let s : State := { start with b := 0xFFFF#16, a := 0x8000#16 };
      (signedOf .w16 (valueOf .w16 s.b) * 2 ^ 16 + valueOf .w16 s.a).tdiv 1 = -(2 ^ 15)) ∧
    (let s : State := { start with b := 0x0000#16, a := 0x8000#16 };
      (signedOf .w16 (valueOf .w16 s.b) * 2 ^ 16 + valueOf .w16 s.a).tdiv 1 = 2 ^ 15) ∧
    (let s : State := { start with b := 0xFFFF#16, a := 0x7FFF#16 };
      (signedOf .w16 (valueOf .w16 s.b) * 2 ^ 16 + valueOf .w16 s.a).tdiv 1 < -(2 ^ 15)) := by
  decide

theorem witness_ZeroDivisionTraps :
    (operand start.mWidth (.imm (.i16 0)) start).1 = 0#16 ∧ start.chip.series = .s7750 := by
  decide

/-- For RlaRotates and ShiftInstructions: the counts and values of V144 and V137. -/
theorem witness_equations :
    start.mWidth = .w16 ∧ valueOf .w16 (immValue (.i16 0x0014)) % bitsOf .w16 = 4 ∧
      targetValue .w16 (.mem (.dir 0x10)) (hold start 0x000010#24 [0x80, 0x40]) = 0x4080 := by
  decide

end Sys2Proof.Tests
end

/-! Settles O5: the step runs the decoded instruction.  Two parts: no instruction changes the chip, so that outside
single-chip mode the contract refuses nothing; and what the fetch reads is what memory holds, as many bytes as the
decoder uses. -/

namespace Sys2Proof.Proofs

open Sys2Proof.Machine Sys2Proof.Safety

/-! ### No operation changes the chip's parameters -/

theorem chip_eq_of_setBus {s t : State} (h : ∃ b, t = s.setBus b) : t.chip = s.chip := by
  obtain ⟨b, rfl⟩ := h
  rfl

section
variable (w : Width) (a : Addr) (s : State) (v : Word)

@[simp] theorem drawn_chip : s.drawn.chip = s.chip := rfl
@[simp] theorem setFlagFree_chip (f : Flag) : (s.setFlagFree f).chip = s.chip := rfl
@[simp] theorem advance_chip (n : Nat) : (s.advance n).chip = s.chip := rfl
@[simp] theorem branch_chip : (s.branch a).chip = s.chip := rfl

@[simp] theorem setAcc_chip (r : Acc) : (s.setAcc r v).chip = s.chip := by cases r <;> rfl
@[simp] theorem writeAcc_chip (r : Acc) : (s.writeAcc w r v).chip = s.chip := setAcc_chip s _ r
@[simp] theorem writeX_chip : (s.writeX w v).chip = s.chip := rfl
@[simp] theorem writeY_chip : (s.writeY w v).chip = s.chip := rfl
@[simp] theorem loadAcc_chip (r : Acc) : (loadAcc r v s).chip = s.chip := writeAcc_chip _ s v r
@[simp] theorem loadX_chip : (loadX v s).chip = s.chip := rfl
@[simp] theorem loadY_chip : (loadY v s).chip = s.chip := rfl

@[simp] theorem readByte_chip : (readByte a s).2.chip = s.chip := chip_eq_of_setBus (readByte_spec a s)
@[simp] theorem read16_chip : (read16 a s).2.chip = s.chip := chip_eq_of_setBus (read16_spec a s)
@[simp] theorem read24_chip : (read24 a s).2.chip = s.chip := chip_eq_of_setBus (read24_spec a s)

@[simp] theorem effAddr_chip (mode : Mode) : (effAddr mode s).2.chip = s.chip :=
  chip_eq_of_setBus (effAddr_spec mode s)

@[simp] theorem loadMode_chip (mode : Mode) : (loadMode w mode s).2.chip = s.chip :=
  chip_eq_of_setBus (loadMode_spec w mode s)

@[simp] theorem operand_chip (o : Operand) : (operand w o s).2.chip = s.chip :=
  chip_eq_of_setBus (operand_spec w o s)

@[simp] theorem writeMem_chip : (writeMem w a v s).chip = s.chip := by
  obtain ⟨m, b, h, -⟩ := writeMem_spec w a v s
  rw [h]
  rfl

@[simp] theorem storeMode_chip (mode : Mode) : (storeMode w mode v s).chip = s.chip := by
  rw [storeMode_eq, writeMem_chip, effAddr_chip]

@[simp] theorem modify_chip (tg : Target) (f : Word → Word) : (modify w tg f s).2.chip = s.chip := by
  cases tg with
  | acc r => exact writeAcc_chip w s _ r
  | mem mode => rw [modify_mem, writeMem_chip, loadMode_chip]

@[simp] theorem push8_chip (v : Byte) : (push8 v s).chip = s.chip := by
  obtain ⟨m, b, h, -⟩ := push8_spec v s
  rw [h]
  rfl

@[simp] theorem push16_chip : (push16 v s).chip = s.chip := by rw [push16, push8_chip, push8_chip]

@[simp] theorem pushW_chip : (pushW w v s).chip = s.chip := by
  cases w with
  | w8 => exact push8_chip s _
  | w16 => exact push16_chip s v

@[simp] theorem pushPs_chip : (pushPs s).chip = s.chip := by rw [pushPs, push8_chip, push8_chip]

@[simp] theorem pull8_chip : (pull8 s).2.chip = s.chip := readByte_chip _ _

@[simp] theorem pull16_chip : (pull16 s).2.chip = s.chip := by rw [pull16_snd, pull8_chip, pull8_chip]

@[simp] theorem pullW_chip : (pullW w s).2.chip = s.chip := by
  cases w with
  | w8 => exact pull8_chip s
  | w16 => exact pull16_chip s

@[simp] theorem pullPs_chip : (pullPs s).chip = s.chip := by
  rw [pullPs_eq, setPsh_chip, setPsl_chip, pull8_chip, pull8_chip]

@[simp] theorem returnFromInterrupt_chip : (returnFromInterrupt s).chip = s.chip := by
  obtain ⟨ps, pc, pg, b, h⟩ := returnFromInterrupt_spec s
  rw [h]
  rfl

@[simp] theorem takeInterrupt_chip (level : Option (BitVec 3)) : (takeInterrupt v level s).chip = s.chip := by
  obtain ⟨⟨-, -, -, -, -, -, -, -, -, h⟩, -⟩ := takeInterrupt_result v level s
  exact h

@[simp] theorem takeZeroDivision_chip : (takeZeroDivision s).chip = s.chip := takeInterrupt_chip s _ none

@[simp] theorem takeBreak_chip : (takeBreak s).chip = s.chip := takeInterrupt_chip s _ none

@[simp] theorem jumpThrough_chip : (jumpThrough a s).chip = s.chip := read16_chip a s

@[simp] theorem jumpTo_chip (j : Jump) : (jumpTo j s).chip = s.chip := by
  cases j with
  | abs mmll => rfl
  | abl hhmmll => rfl
  | ind mmll => exact jumpThrough_chip _ s
  | indL mmll => exact read24_chip _ s
  | indX mmll => exact jumpThrough_chip _ s

@[simp] theorem callTo_chip (j : Jump) : (callTo j s).chip = s.chip := by
  cases j <;> simp [callTo]

@[simp] theorem branchIf_chip (taken : Bool) (rr : Byte) : (branchIf taken rr s).chip = s.chip := by
  cases taken <;> rfl

@[simp] theorem putUndigits_chip (r : Acc) : (putUndigits r w s).chip = s.chip := by
  simp [putUndigits, drawWord]

@[simp] theorem putSum_chip (r : Acc) (e : Sum) : (putSum r w e s).chip = s.chip := writeAcc_chip w s _ r

@[simp] theorem adcDecimal_chip (r : Acc) : (adcDecimal r w v s).chip = s.chip := by
  unfold adcDecimal
  dsimp only
  split
  · simp
  · exact putUndigits_chip w s r

@[simp] theorem sbcDecimal_chip (r : Acc) : (sbcDecimal r w v s).chip = s.chip := by
  unfold sbcDecimal
  dsimp only
  split
  · simp
  · exact putUndigits_chip w s r

@[simp] theorem putProduct_chip (p : Product) : (putProduct w p s).chip = s.chip := rfl

@[simp] theorem putQuotient_chip (q : Quotient) : (putQuotient w q s).chip = s.chip := by cases q <;> rfl

@[simp] theorem putCompare_chip (e : Sum) : (putCompare w e s).chip = s.chip := rfl

@[simp] theorem combine_chip (f : Word → Word → Word) (r : Acc) (o : Operand) :
    (combine f r o s).chip = s.chip := by
  rw [combine_eq, loadAcc_chip, operand_chip]

@[simp] theorem shiftBy_chip (f : Width → Word → Shifted) (tg : Target) : (shiftBy f tg s).chip = s.chip := by
  rw [shiftBy_eq, setFlag_chip, setNZ_chip, modify_chip]

theorem whenBit_chip (mask : Byte) (i : Nat) (f : State → State) (hf : ∀ u, (f u).chip = u.chip) :
    (whenBit mask i f s).chip = s.chip := by
  unfold whenBit
  split
  · exact hf s
  · rfl

@[simp] theorem pushMany_chip (mask : Byte) : (pushMany mask s).chip = s.chip := by
  simp [pushMany, whenBit_chip]

@[simp] theorem pullMany_chip (mask : Byte) : (pullMany mask s).chip = s.chip := by
  simp [pullMany, whenBit_chip, pullDt_eq, pullDpr_eq, pullY_eq, pullX_eq, pullAcc_eq]

@[simp] theorem countDone_chip : (countDone s).chip = s.chip := by
  obtain ⟨a, b, h, -⟩ := countDone_spec s
  rw [h]
  rfl

/-- A block transfer keeps the chip if the transfer of its bytes does. -/
theorem blockTransfer_chip (dst : Byte) (move : Width → Nat → Transfer → Transfer)
    (hm : ∀ w cnt t, (move w cnt t).s.chip = t.s.chip) : (blockTransfer dst move s).chip = s.chip := by
  rw [blockTransfer_eq, countDone_chip, writeY_chip, writeX_chip, hm]
  rfl

end

@[simp] theorem moveUp_chip (dst src : Byte) (w : Width) (cnt : Nat) (t : Transfer) :
    (moveUp dst src w cnt t).s.chip = t.s.chip := by
  obtain ⟨m, b, h, -⟩ := moveUp_spec dst src w cnt t
  rw [h]
  rfl

@[simp] theorem moveDown_chip (dst src : Byte) (w : Width) (cnt : Nat) (t : Transfer) :
    (moveDown dst src w cnt t).s.chip = t.s.chip := by
  obtain ⟨m, b, h, -⟩ := moveDown_spec dst src w cnt t
  rw [h]
  rfl

/-! ### No instruction changes them -/

/-- An answer that is a state has the chip of `s`. -/
def KeepsChip (s : State) (r : Result) : Prop := ∀ t, r = .next t → t.chip = s.chip

theorem keepsChip_of_next {s t : State} {r : Result} (hr : r = .next t) (h : t.chip = s.chip) : KeepsChip s r := by
  subst hr
  intro u hu
  cases hu
  exact h

theorem keepsChip_of_on7750 {s t : State} {r : Result} (hr : r = on7750 s t) (h : t.chip = s.chip) :
    KeepsChip s r := by
  subst hr
  unfold on7750
  split
  · exact keepsChip_of_next rfl h
  · intro u hu
    cases hu

/-- Each instruction answers one state, made by operations that keep the chip; four choose between two such states,
and five answer on a 7750 alone. -/
theorem exec_keepsChip (i : Instr) (s : State) : KeepsChip s (exec i s) := by
  cases i with
  | adc r o =>
    rw [exec_adc]
    split
    · exact keepsChip_of_next rfl (by simp)
    · exact keepsChip_of_next rfl (by simp)
  | sbc r o =>
    rw [exec_sbc]
    split
    · exact keepsChip_of_next rfl (by simp)
    · exact keepsChip_of_next rfl (by simp)
  | div o =>
    rw [exec_div]
    split
    · exact keepsChip_of_next rfl (by simp)
    · exact keepsChip_of_next rfl (by simp)
  | divs o =>
    rw [exec_divs]
    split
    · exact keepsChip_of_on7750 rfl (by simp)
    · exact keepsChip_of_on7750 rfl (by simp)
  | mpys o => exact keepsChip_of_on7750 (exec_mpys s o) (by simp)
  | asr tg => exact keepsChip_of_on7750 rfl (by simp)
  | exts r => exact keepsChip_of_on7750 rfl (by simp)
  | extz r => exact keepsChip_of_on7750 rfl (by simp)
  | lda r o => exact keepsChip_of_next (exec_lda s r o) (by simp)
  | ldx o => exact keepsChip_of_next (exec_ldx s o) (by simp)
  | ldy o => exact keepsChip_of_next (exec_ldy s o) (by simp)
  | inc tg => exact keepsChip_of_next (exec_inc s tg) (by simp)
  | dec tg => exact keepsChip_of_next (exec_dec s tg) (by simp)
  | mpy o => exact keepsChip_of_next (exec_mpy s o) (by simp)
  | cmp r o => exact keepsChip_of_next (exec_cmp s r o) (by simp)
  | cpx o => exact keepsChip_of_next (exec_cpx s o) (by simp)
  | cpy o => exact keepsChip_of_next (exec_cpy s o) (by simp)
  | bbc mask mode rr => exact keepsChip_of_next (exec_bbc s mask mode rr) (by simp)
  | bbs mask mode rr => exact keepsChip_of_next (exec_bbs s mask mode rr) (by simp)
  | pla => exact keepsChip_of_next (exec_pla s) (by simp)
  | plb => exact keepsChip_of_next (exec_plb s) (by simp)
  | plx => exact keepsChip_of_next (exec_plx s) (by simp)
  | ply => exact keepsChip_of_next (exec_ply s) (by simp)
  | plt => exact keepsChip_of_next (exec_plt s) (by simp)
  | pei dd => exact keepsChip_of_next (exec_pei s dd) (by simp)
  | rts => exact keepsChip_of_next (exec_rts s) (by simp)
  | rtl => exact keepsChip_of_next (exec_rtl s) (by simp)
  | pld => exact keepsChip_of_next rfl (by simp [pullDpr_eq])
  | mvn dst src => exact keepsChip_of_next rfl (blockTransfer_chip s dst _ (moveUp_chip dst src))
  | mvp dst src => exact keepsChip_of_next rfl (blockTransfer_chip s dst _ (moveDown_chip dst src))
  | _ => exact keepsChip_of_next rfl (by simp)

/-- Outside single-chip mode the contract refuses no answer that keeps the chip. -/
theorem keepContract_eq_self {s : State} {r : Result} (h : KeepsChip s r) (hc : s.chip.singleChip = false) :
    keepContract r = r := by
  cases r with
  | next t => exact keepContract_next _ t rfl (by rw [h t rfl, hc])
  | fault e => rfl
  | refused e => rfl

/-! ### How many bytes the decoder uses -/

theorem takeWord_map_length {bs rest : List Byte} {f : Word → Instr} {i : Instr}
    (h : (takeWord bs).map (fun p => (f p.1, p.2)) = some (i, rest)) : bs.length = 2 + rest.length := by
  match bs with
  | lo :: hi :: tail =>
    cases h
    simp only [List.length_cons]
    omega

theorem takeImm_length {flag : Bool} {bs rest : List Byte} {v : Imm} (h : takeImm flag bs = some (v, rest)) :
    bs.length = immLen flag + rest.length := by
  match flag, bs with
  | true, [lo] =>
    cases h
    rfl
  | true, lo :: hi :: tail =>
    cases h
    simp only [List.length_cons, immLen, if_true]
    omega
  | false, lo :: hi :: tail =>
    cases h
    simp only [List.length_cons, immLen, Bool.false_eq_true, if_false]
    omega

theorem takeImm_map_length {flag : Bool} {bs rest : List Byte} {f : Imm → Instr} {i : Instr}
    (h : (takeImm flag bs).map (fun p => (f p.1, p.2)) = some (i, rest)) :
    bs.length = immLen flag + rest.length := by
  obtain ⟨⟨v, tail⟩, hv, htail⟩ := Option.map_eq_some_iff.mp h
  cases htail
  exact takeImm_length hv

/-- A format reads its operand bytes and leaves the others (R131). -/
theorem read_length {m x : Bool} {sh : Shape} {bs rest : List Byte} {i : Instr}
    (h : sh.read m x bs = some (i, rest)) : bs.length = sh.operandLen m x + rest.length := by
  match sh, bs with
  | .nothing _, bs =>
    cases h
    exact (Nat.zero_add _).symm
  | .immM _, bs => exact takeImm_map_length h
  | .immX _, bs => exact takeImm_map_length h
  | .byte _, b :: tail =>
    cases h
    exact Nat.add_comm _ _
  | .word _, bs => exact takeWord_map_length h
  | .long _, ll :: mm :: hh :: tail =>
    cases h
    exact Nat.add_comm _ 3
  | .two _, b :: c :: tail =>
    cases h
    exact Nat.add_comm _ 2
  | .byteImm _, d :: bs =>
    have := takeImm_map_length h
    simp only [List.length_cons, Shape.operandLen]
    omega
  | .wordImm _, ll :: mm :: bs =>
    have := takeImm_map_length h
    simp only [List.length_cons, Shape.operandLen]
    omega
  | .byteImmRel _, d :: bs =>
    simp only [Shape.read] at h
    split at h
    next v rr tail hv =>
      cases h
      have := takeImm_length hv
      simp only [List.length_cons, Shape.operandLen] at this ⊢
      omega
    next => cases h
  | .wordImmRel _, ll :: mm :: bs =>
    simp only [Shape.read] at h
    split at h
    next v rr tail hv =>
      cases h
      have := takeImm_length hv
      simp only [List.length_cons, Shape.operandLen] at this ⊢
      omega
    next => cases h

theorem readOperands_ok {m x : Bool} {o : Option Entry} {bs rest : List Byte} {i : Instr}
    (h : readOperands m x o bs = .ok (i, rest)) :
    ∃ e, o = some e ∧ bs.length = e.shape.operandLen m x + rest.length := by
  cases o with
  | none => cases h
  | some e =>
    refine ⟨e, rfl, ?_⟩
    cases hr : e.shape.read m x bs with
    | none => simp [readOperands, hr] at h
    | some p =>
      simp only [readOperands, hr, Except.ok.injEq] at h
      exact read_length (h ▸ hr)

/-! ### The fetch where memory gives what it holds -/

/-- The bytes stand in memory from an address on, each at the next address modulo 2^24 (R28). -/
def Stand (s : State) (a : Addr) (bytes : List Byte) : Prop :=
  ∀ k v, bytes[k]? = some v → s.byteAt (a + BitVec.ofNat 24 k) = v

theorem addr_add_ofNat_add (a : Addr) (j k : Nat) :
    a + BitVec.ofNat 24 j + BitVec.ofNat 24 k = a + BitVec.ofNat 24 (j + k) := by
  rw [BitVec.add_assoc, ← BitVec.ofNat_add]

theorem stand_append_right {s : State} {a : Addr} {xs ys : List Byte} (h : Stand s a (xs ++ ys)) :
    Stand s (a + BitVec.ofNat 24 xs.length) ys := by
  intro k v hk
  rw [addr_add_ofNat_add]
  exact h _ v (by rw [List.getElem?_append_right (Nat.le_add_right _ _), Nat.add_sub_cancel_left, hk])

theorem stand_tail {s : State} {a : Addr} {b : Byte} {bs : List Byte} (h : Stand s a (b :: bs)) :
    Stand s (a + 1) bs :=
  stand_append_right (xs := [b]) h

theorem givesFrom_add {s : State} {a : Addr} {j n : Nat} (h : givesFrom (j + n) s a) :
    givesFrom n s (a + BitVec.ofNat 24 j) := by
  intro k hk
  rw [addr_add_ofNat_add]
  exact h (j + k) (by omega)

/-- A byte that stands at an address that gives it is read there, and nothing changes. -/
theorem readByte_stand {s : State} {a : Addr} {b : Byte} {bs : List Byte} (hs : Stand s a (b :: bs)) (hg : gives s a) :
    readByte a s = (b, s) := by
  rw [readByte_gives a s hg]
  have := hs 0 b rfl
  rw [BitVec.add_zero] at this
  rw [this]

theorem readBytes_stand {s : State} {a : Addr} {bytes : List Byte} (hs : Stand s a bytes)
    (hg : givesFrom bytes.length s a) : readBytes bytes.length a s = (bytes, s) := by
  induction bytes generalizing a with
  | nil => rfl
  | cons b bs ih =>
    have hb := readByte_stand hs (gives_of_givesFrom hg (by simp))
    have hrest := ih (stand_tail hs) (givesFrom_add (j := 1) (by rwa [Nat.add_comm]))
    simp only [List.length_cons, readBytes, hb, hrest]

theorem readOpcode_one {s : State} {b : Byte} {bs : List Byte} (hs : Stand s s.pcAddr (b :: bs))
    (hg : givesFrom (bs.length + 1) s s.pcAddr) (hp : opensPage b = false) : readOpcode s = ([b], s) := by
  simp [readOpcode, readByte_stand hs (gives_of_givesFrom hg (by simp)), hp]

theorem readOpcode_two {s : State} {b c : Byte} {bs : List Byte} (hs : Stand s s.pcAddr (b :: c :: bs))
    (hg : givesFrom (bs.length + 2) s s.pcAddr) (hp : opensPage b = true) : readOpcode s = ([b, c], s) := by
  have hb := readByte_stand hs (gives_of_givesFrom hg (by simp))
  have hc := readByte_stand (stand_tail hs) (hg 1 (by omega))
  simp only [readOpcode, hb, hp, hc, if_true]

/-- After the opcode bytes of a defined code the fetch reads as many bytes as its format has. -/
theorem readInstr_of_opcode {s : State} {head rest : List Byte} {e : Entry} (hop : readOpcode s = (head, s))
    (he : lookup s.chip.series head = some e) (hlen : rest.length = e.shape.operandLen (s.flag .m) (s.flag .x))
    (hs : Stand s s.pcAddr (head ++ rest)) (hg : givesFrom (head ++ rest).length s s.pcAddr) :
    readInstr s = (head ++ rest, s) := by
  have hr := readBytes_stand (stand_append_right hs) (givesFrom_add (by simpa using hg))
  simp only [readInstr, hop, he, ← hlen, hr]

/-- The fetch reads the bytes that stand at `PG:PC` if they decode with none left (R121). -/
theorem readInstr_of_decode {s : State} {bytes : List Byte} {i : Instr} (hs : Stand s s.pcAddr bytes)
    (hg : givesFrom bytes.length s s.pcAddr)
    (hd : decode s.chip.series (s.flag .m) (s.flag .x) bytes = .ok (i, [])) : readInstr s = (bytes, s) := by
  rcases bytes with _ | ⟨b, bs⟩
  · cases hd
  cases hp : opensPage b with
  | false =>
    have hr : readOperands (s.flag .m) (s.flag .x) (lookup s.chip.series [b]) bs = .ok (i, []) := by
      rcases bs with _ | ⟨c, bs⟩ <;> simpa [decode, hp] using hd
    obtain ⟨e, he, hlen⟩ := readOperands_ok hr
    exact readInstr_of_opcode (readOpcode_one hs hg hp) he hlen hs hg
  | true =>
    rcases bs with _ | ⟨c, bs⟩
    · simp [decode, hp] at hd
    · have hr : readOperands (s.flag .m) (s.flag .x) (lookup s.chip.series [b, c]) bs = .ok (i, []) := by
        simpa [decode, hp] using hd
      obtain ⟨e, he, hlen⟩ := readOperands_ok hr
      exact readInstr_of_opcode (readOpcode_two hs hg hp) he hlen hs hg

/-! ### The step -/

theorem step_of_readyToRun {s : State} (h : readyToRun s) : step s = keepContract (runInstruction (boundary s)) := by
  obtain ⟨hrun, hev⟩ := h
  simp only [step, turn, hev, hrun]

theorem runInstruction_of_decode {s t : State} {bytes : List Byte} {i : Instr} (hf : readInstr s = (bytes, t))
    (hd : decode s.chip.series (s.flag .m) (s.flag .x) bytes = .ok (i, [])) :
    runInstruction s = exec i (t.advance bytes.length) := by
  simp only [runInstruction, hf, hd, List.length_nil, Nat.sub_zero]

/-- What the fetch and the decoder look at is the same before and after the boundary. -/
theorem boundary_keeps (s : State) :
    (boundary s).chip = s.chip ∧ (boundary s).pcAddr = s.pcAddr ∧ (∀ f, (boundary s).flag f = s.flag f) ∧
      ∀ a, (boundary s).byteAt a = s.byteAt a := by
  obtain ⟨q, hq⟩ := boundary_spec s
  rw [hq]
  exact ⟨rfl, rfl, fun _ => rfl, fun _ => rfl⟩

theorem step_of_fetch {s t : State} {bytes : List Byte} {i : Instr} (hready : readyToRun s)
    (hf : readInstr (boundary s) = (bytes, t))
    (hd : decode s.chip.series (s.flag .m) (s.flag .x) bytes = .ok (i, [])) :
    step s = keepContract (exec i (t.advance bytes.length)) := by
  obtain ⟨hchip, -, hflag, -⟩ := boundary_keeps s
  rw [step_of_readyToRun hready, runInstruction_of_decode hf (by rw [hchip, hflag, hflag, hd])]

theorem readInstr_boundary {s : State} {bytes : List Byte} {i : Instr} (hg : givesFrom bytes.length s s.pcAddr)
    (hd : decode s.chip.series (s.flag .m) (s.flag .x) bytes = .ok (i, [])) (hs : Stand s s.pcAddr bytes) :
    readInstr (boundary s) = (bytes, boundary s) := by
  obtain ⟨hchip, hpc, hflag, hbyte⟩ := boundary_keeps s
  apply readInstr_of_decode
  · intro k v hk
    rw [hpc, hbyte, hs k v hk]
  · rw [hpc]
    exact (givesFrom_congr hchip _ _).mpr hg
  · rw [hchip, hflag, hflag, hd]

/-- Settles O5: the step is the fetch, then the instruction; the fetch reads what stands in memory; and outside
single-chip mode the contract lets every answer of an instruction pass, since none changes the chip. -/
theorem stepRunsDecodedInstruction : Obligations.StepRunsDecodedInstruction := by
  refine ⟨fun s t i bytes hready hf hd => step_of_fetch hready hf hd, fun s i bytes hready hg hd hs => ?_⟩
  have hstep := step_of_fetch hready (readInstr_boundary hg hd hs) hd
  refine ⟨hstep, fun hsingle => ?_⟩
  rw [hstep]
  refine keepContract_eq_self (exec_keepsChip i _) ?_
  rw [advance_chip, (boundary_keeps s).1, hsingle]

end Sys2Proof.Proofs

/-! Settles O9 and O10: who writes PG, DT, DPR, V, D, IPL and the run state, and the values at reset.  The state's part
that O9 speaks of is named (`Special`), each operation has one equation for it, and each instruction is one of a few
kinds: it leaves that part alone, or changes one or two fields that it is listed for. -/

namespace Sys2Proof.Proofs

open Sys2Proof.Machine Sys2Proof.Safety

/-! ### The part of the state that few instructions write -/

/-- PG, DT, DPR (R30 to R32), V and D (R43, R40), IPL (R45), the run state (R48) and the request state (R407). -/
structure Special where
  pg : Byte
  dt : Byte
  dpr : Word
  v : Bool
  d : Bool
  ipl : BitVec 3
  run : RunState
  irq : Requests

def special (s : State) : Special := ⟨s.pg, s.dt, s.dpr, s.flag .v, s.flag .d, s.ipl, s.run, s.irq⟩

/-- What reads memory changes the bus record alone. -/
theorem special_eq_of_setBus {s t : State} (h : ∃ b, t = s.setBus b) : special t = special s := by
  obtain ⟨b, rfl⟩ := h
  rfl

/-- A frame without PG, DT, DPR, V and D holds all of it. -/
theorem special_eq_of_frame {regs : List Reg} {flags : List Flag} {stored : Addr → Prop} {s t : State}
    (h : Frame regs flags stored s t) (hr : ∀ r ∈ [Reg.pg, .dt, .dpr], r ∉ regs)
    (hf : ∀ f ∈ [Flag.v, .d], f ∉ flags) : special t = special s := by
  obtain ⟨⟨hreg, -, hrun, -, hirq⟩, hflag, hipl⟩ := h
  have hpg : t.pg = s.pg := BitVec.eq_of_toNat_eq (hreg .pg (hr .pg (by simp)))
  have hdt : t.dt = s.dt := BitVec.eq_of_toNat_eq (hreg .dt (hr .dt (by simp)))
  have hdpr : t.dpr = s.dpr := BitVec.eq_of_toNat_eq (hreg .dpr (hr .dpr (by simp)))
  have hv := hflag .v (hf .v (by simp))
  have hd := hflag .d (hf .d (by simp))
  simp only [special, hpg, hdt, hdpr, hv, hd, hipl, hrun, hirq]

/-! ### Operations that leave it alone -/

section
variable (w : Width) (a : Addr) (s : State) (v : Word)

@[simp] theorem setSp_special : special (s.setSp v) = special s := rfl
@[simp] theorem setPc_special : special (s.setPc v) = special s := rfl
@[simp] theorem drawn_special : special s.drawn = special s := rfl
@[simp] theorem writeX_special : special (s.writeX w v) = special s := rfl
@[simp] theorem writeY_special : special (s.writeY w v) = special s := rfl

@[simp] theorem setAcc_special (r : Acc) : special (s.setAcc r v) = special s := by cases r <;> rfl
@[simp] theorem writeAcc_special (r : Acc) : special (s.writeAcc w r v) = special s := setAcc_special s _ r

@[simp] theorem setFlag_special (f : Flag) (b : Bool) (hv : Flag.v ≠ f) (hd : Flag.d ≠ f) :
    special (s.setFlag f b) = special s := by
  simp [special, hv, hd]

@[simp] theorem setFlagFree_special (f : Flag) (hv : Flag.v ≠ f) (hd : Flag.d ≠ f) :
    special (s.setFlagFree f) = special s :=
  setFlag_special s.drawn f _ hv hd

@[simp] theorem setNZ_special : special (s.setNZ w v) = special s := by simp [State.setNZ]

@[simp] theorem loadAcc_special (r : Acc) : special (loadAcc r v s) = special s := by simp [loadAcc]
@[simp] theorem loadX_special : special (loadX v s) = special s := by simp [loadX]
@[simp] theorem loadY_special : special (loadY v s) = special s := by simp [loadY]

@[simp] theorem readByte_special : special (readByte a s).2 = special s := special_eq_of_setBus (readByte_spec a s)
@[simp] theorem read16_special : special (read16 a s).2 = special s := special_eq_of_setBus (read16_spec a s)
@[simp] theorem read24_special : special (read24 a s).2 = special s := special_eq_of_setBus (read24_spec a s)

@[simp] theorem loadMode_special (mode : Mode) : special (loadMode w mode s).2 = special s :=
  special_eq_of_setBus (loadMode_spec w mode s)

@[simp] theorem operand_special (o : Operand) : special (operand w o s).2 = special s :=
  special_eq_of_setBus (operand_spec w o s)

@[simp] theorem storeMode_special (mode : Mode) : special (storeMode w mode v s) = special s :=
  special_eq_of_frame (storeMode_result w mode v s).2 (by decide) (by decide)

@[simp] theorem modify_special (tg : Target) (f : Word → Word) : special (modify w tg f s).2 = special s := by
  cases tg with
  | acc r => exact writeAcc_special w s _ r
  | mem mode => exact special_eq_of_frame (modify_result w mode f s).2 (by decide) (by decide)

@[simp] theorem push8_special (b : Byte) : special (push8 b s) = special s :=
  special_eq_of_frame (push8_result b s).2 (by decide) (by decide)

@[simp] theorem push16_special : special (push16 v s) = special s :=
  special_eq_of_frame (push16_result v s).2 (by decide) (by decide)

@[simp] theorem pushW_special : special (pushW w v s) = special s :=
  special_eq_of_frame (pushW_result w v s).2 (by decide) (by decide)

@[simp] theorem pushPs_special : special (pushPs s) = special s := by rw [pushPs, push8_special, push8_special]

@[simp] theorem pull8_special : special (pull8 s).2 = special s := readByte_special _ _
@[simp] theorem pull16_special : special (pull16 s).2 = special s := by rw [pull16_snd, pull8_special, pull8_special]

@[simp] theorem pullW_special : special (pullW w s).2 = special s := by
  cases w with
  | w8 => exact pull8_special s
  | w16 => exact pull16_special s

@[simp] theorem pullY_special : special (pullY s) = special s := by simp [pullY_eq]
@[simp] theorem pullX_special : special (pullX s) = special s := by simp [pullX_eq]
@[simp] theorem pullAcc_special (r : Acc) : special (pullAcc r s) = special s := by simp [pullAcc_eq]

theorem whenBit_special (mask : Byte) (k : Nat) (f : State → State) (hf : ∀ u, special (f u) = special u) :
    special (whenBit mask k f s) = special s := by
  unfold whenBit
  split
  · exact hf s
  · rfl

@[simp] theorem pushMany_special (mask : Byte) : special (pushMany mask s) = special s := by
  simp [pushMany, whenBit_special]

@[simp] theorem putProduct_special (p : Product) : special (putProduct w p s) = special s := by simp [putProduct]
@[simp] theorem putCompare_special (e : Sum) : special (putCompare w e s) = special s := by simp [putCompare]

@[simp] theorem combine_special (f : Word → Word → Word) (r : Acc) (o : Operand) :
    special (combine f r o s) = special s := by
  rw [combine_eq, loadAcc_special, operand_special]

@[simp] theorem shiftBy_special (f : Width → Word → Shifted) (tg : Target) :
    special (shiftBy f tg s) = special s := by
  simp [shiftBy_eq]

@[simp] theorem jumpThrough_special : special (jumpThrough a s) = special s :=
  special_eq_of_frame (regs := [.pc]) (flags := []) (stored := nowhere) (jumpThrough_frame a s (by simp)) (by decide)
    (by decide)

end

/-! ### Operations that change some of it

Where the new value of a field does not matter, the equation takes it from the new state: all but that field is as
before. -/

section
variable (w : Width) (s : State)

@[simp] theorem setFlag_v_special (b : Bool) : special (s.setFlag .v b) = { special s with v := b } := by
  simp [special]

@[simp] theorem setFlagFree_v_special :
    special (s.setFlagFree .v) = { special s with v := (drawBit s).1 } :=
  setFlag_v_special s.drawn _

@[simp] theorem setPg_special (b : Byte) : special (s.setPg b) = { special s with pg := b } := rfl
@[simp] theorem goto_special (a : Addr) : special (s.goto a) = { special s with pg := addrBank a } := rfl
@[simp] theorem setDt_special (b : Byte) : special (s.setDt b) = { special s with dt := b } := rfl
@[simp] theorem setDpr_special (v : Word) : special (s.setDpr v) = { special s with dpr := v } := rfl

@[simp] theorem setPsl_special (b : Byte) :
    special (s.setPsl b) = { special s with v := b.getLsbD 6, d := b.getLsbD 3 } := by
  simp [special, flagBit]

theorem branchIf_special (taken : Bool) (rr : Byte) :
    special (branchIf taken rr s) = { special s with pg := (special (branchIf taken rr s)).pg } := by
  cases taken <;> rfl

theorem putSum_special (r : Acc) (e : Sum) :
    special (putSum r w e s) = { special s with v := (special (putSum r w e s)).v } := by
  simp [putSum]

theorem putUndigits_special (r : Acc) :
    special (putUndigits r w s) = { special s with v := (special (putUndigits r w s)).v } := by
  simp [putUndigits, drawWord]

theorem adcDecimal_special (r : Acc) (b : Word) :
    special (adcDecimal r w b s) = { special s with v := (special (adcDecimal r w b s)).v } := by
  unfold adcDecimal
  dsimp only
  split
  · simp
  · exact putUndigits_special w s r

theorem sbcDecimal_special (r : Acc) (b : Word) :
    special (sbcDecimal r w b s) = { special s with v := (special (sbcDecimal r w b s)).v } := by
  unfold sbcDecimal
  dsimp only
  split
  · simp
  · exact putUndigits_special w s r

theorem putQuotient_special (q : Quotient) :
    special (putQuotient w q s) = { special s with v := (special (putQuotient w q s)).v } := by
  cases q <;> simp [putQuotient, drawWord]

/-- The entry of BRK and of a zero division: PG is 00, the CPU runs, and IPL stays (R410, R420, R421). -/
theorem takeInterrupt_special (vector : Word) :
    special (takeInterrupt vector none s) = { special s with pg := 0#8, run := .running } := by
  obtain ⟨⟨-, -, hipl, hpg, hrun, -, hreg, hflag, -, -⟩, hirq⟩ := takeInterrupt_result vector none s
  have hdt : (takeInterrupt vector none s).dt = s.dt := BitVec.eq_of_toNat_eq (hreg .dt (by decide))
  have hdpr : (takeInterrupt vector none s).dpr = s.dpr := BitVec.eq_of_toNat_eq (hreg .dpr (by decide))
  have hv := hflag .v (by decide)
  have hd := hflag .d (by decide)
  simp only [special, hpg, hdt, hdpr, hv, hd, hipl, hrun, hirq, Option.getD_none]

theorem pullPs_special :
    special (pullPs s) =
      { special s with v := (pullPs s).flag .v, d := (pullPs s).flag .d, ipl := (pullPs s).ipl } := by
  obtain ⟨b, h⟩ := pullPs_spec s
  generalize (pullPs s).ps = ps at h
  rw [h]
  rfl

theorem returnFromInterrupt_special :
    special (returnFromInterrupt s) =
      { special s with
        pg := (returnFromInterrupt s).pg
        v := (returnFromInterrupt s).flag .v
        d := (returnFromInterrupt s).flag .d
        ipl := (returnFromInterrupt s).ipl } := by
  obtain ⟨ps, pc, pg, b, h⟩ := returnFromInterrupt_spec s
  rw [h]
  rfl

theorem countDone_special : special (countDone s) = special s := by
  obtain ⟨a, b, h, -⟩ := countDone_spec s
  rw [h]
  rfl

/-- A block transfer sets DT to the destination bank; the bytes that it moves matter to memory alone. -/
theorem blockTransfer_special (dst : Byte) (move : Width → Nat → Transfer → Transfer)
    (hm : ∀ w cnt t, special (move w cnt t).s = special t.s) :
    special (blockTransfer dst move s) = { special s with dt := dst } := by
  rw [blockTransfer_eq, countDone_special, writeY_special, writeX_special, hm]
  rfl

end

theorem moveUp_special (dst src : Byte) (w : Width) (cnt : Nat) (t : Transfer) :
    special (moveUp dst src w cnt t).s = special t.s := by
  obtain ⟨m, b, h, -⟩ := moveUp_spec dst src w cnt t
  rw [h]
  rfl

theorem moveDown_special (dst src : Byte) (w : Width) (cnt : Nat) (t : Transfer) :
    special (moveDown dst src w cnt t).s = special t.s := by
  obtain ⟨m, b, h, -⟩ := moveDown_spec dst src w cnt t
  rw [h]
  rfl

/-! ### What the lists of writers allow -/

/-- From `p` to `q` changes only what the instruction is listed for. -/
structure WritesListed (i : Instr) (p q : Special) : Prop where
  pg : writesPg i = false → q.pg = p.pg
  dt : writesDt i = false → q.dt = p.dt
  dpr : writesDpr i = false → q.dpr = p.dpr
  v : writesV i = false → q.v = p.v
  d : writesD i = false → q.d = p.d
  ipl : writesIpl i = false → q.ipl = p.ipl
  run : q.run = p.run ∨ (q.run = .wait ∧ i = .wit) ∨ (q.run = .stop ∧ i = .stp) ∨
    (q.run = .running ∧ ((∃ n, i = .brk n) ∨ ∃ o, i = .div o ∨ i = .divs o))
  irq : q.irq = p.irq

section
variable {i : Instr} {p q r : Special}

theorem writesListed_of_eq (h : q = p) : WritesListed i p q := by
  subst h
  exact ⟨fun _ => rfl, fun _ => rfl, fun _ => rfl, fun _ => rfl, fun _ => rfl, fun _ => rfl, .inl rfl, rfl⟩

theorem WritesListed.trans (h : WritesListed i p q) (k : WritesListed i q r) : WritesListed i p r where
  pg hi := (k.pg hi).trans (h.pg hi)
  dt hi := (k.dt hi).trans (h.dt hi)
  dpr hi := (k.dpr hi).trans (h.dpr hi)
  v hi := (k.v hi).trans (h.v hi)
  d hi := (k.d hi).trans (h.d hi)
  ipl hi := (k.ipl hi).trans (h.ipl hi)
  run := k.run.elim (fun e => e ▸ h.run) .inr
  irq := k.irq.trans h.irq

theorem writesListed_of_pg (hi : writesPg i = true) (h : q = { p with pg := q.pg }) : WritesListed i p q := by
  rw [h]
  exact { writesListed_of_eq rfl with pg := by simp [hi] }

theorem writesListed_of_dt (hi : writesDt i = true) (h : q = { p with dt := q.dt }) : WritesListed i p q := by
  rw [h]
  exact { writesListed_of_eq rfl with dt := by simp [hi] }

theorem writesListed_of_dpr (hi : writesDpr i = true) (h : q = { p with dpr := q.dpr }) : WritesListed i p q := by
  rw [h]
  exact { writesListed_of_eq rfl with dpr := by simp [hi] }

theorem writesListed_of_v (hi : writesV i = true) (h : q = { p with v := q.v }) : WritesListed i p q := by
  rw [h]
  exact { writesListed_of_eq rfl with v := by simp [hi] }

/-- CLP, SEP: the flags of PSL (R303, R304). -/
theorem writesListed_of_psl (hv : writesV i = true) (hd : writesD i = true)
    (h : q = { p with v := q.v, d := q.d }) : WritesListed i p q := by
  rw [h]
  exact { writesListed_of_eq rfl with v := by simp [hv], d := by simp [hd] }

/-- PLP, PUL with bit 7: all of PS (R217, R213). -/
theorem writesListed_of_ps (hv : writesV i = true) (hd : writesD i = true) (hl : writesIpl i = true)
    (h : q = { p with v := q.v, d := q.d, ipl := q.ipl }) : WritesListed i p q := by
  rw [h]
  exact { writesListed_of_eq rfl with v := by simp [hv], d := by simp [hd], ipl := by simp [hl] }

end

/-- BRK, DIV and DIVS may enter an interrupt. -/
theorem writesListed_takeInterrupt {i : Instr} (s : State) (vector : Word) (hi : writesPg i = true)
    (hr : (∃ n, i = .brk n) ∨ ∃ o, i = .div o ∨ i = .divs o) :
    WritesListed i (special s) (special (takeInterrupt vector none s)) := by
  rw [takeInterrupt_special]
  exact { writesListed_of_eq rfl with pg := by simp [hi], run := .inr (.inr (.inr ⟨rfl, hr⟩)) }

theorem writesListed_returnFromInterrupt (s : State) :
    WritesListed .rti (special s) (special (returnFromInterrupt s)) := by
  rw [returnFromInterrupt_special]
  exact { writesListed_of_eq rfl with pg := nofun, v := nofun, d := nofun, ipl := nofun }

theorem writesListed_branchIf {i : Instr} (s : State) (taken : Bool) (rr : Byte) (hi : writesPg i = true) :
    WritesListed i (special s) (special (branchIf taken rr s)) :=
  writesListed_of_pg hi (branchIf_special s taken rr)

/-- A masked pull writes what it is listed for, if it does so where its bit is 1. -/
theorem writesListed_whenBit {i : Instr} (mask : Byte) (k : Nat) (f : State → State) (s : State)
    (hf : mask.getLsbD k = true → WritesListed i (special s) (special (f s))) :
    WritesListed i (special s) (special (whenBit mask k f s)) := by
  unfold whenBit
  split
  next hk => exact hf hk
  next => exact writesListed_of_eq rfl

/-- PUL: bit 7 stands for PS, bit 5 for DT, bit 4 for DPR (R213); the other pulls are of Y, X, B and A. -/
theorem writesListed_pullMany (mask : Byte) (s : State) :
    WritesListed (.pul mask) (special s) (special (pullMany mask s)) := by
  have hps := writesListed_whenBit (i := .pul mask) mask 7 pullPs s fun h7 =>
    writesListed_of_ps rfl rfl h7 (pullPs_special s)
  have hdt := writesListed_whenBit (i := .pul mask) mask 5 pullDt (whenBit mask 7 pullPs s) fun h5 =>
    writesListed_of_dt h5 (by simp [pullDt_eq])
  have hdpr := writesListed_whenBit (i := .pul mask) mask 4 pullDpr (whenBit mask 5 pullDt (whenBit mask 7 pullPs s))
    fun h4 => writesListed_of_dpr h4 (by simp [pullDpr_eq])
  exact ((hps.trans hdt).trans hdpr).trans (writesListed_of_eq (by simp [pullMany, whenBit_special]))

theorem writesListed_putQuotient {i : Instr} (s : State) (w : Width) (q : Quotient) (hi : writesV i = true) :
    WritesListed i (special s) (special (putQuotient w q s)) :=
  writesListed_of_v hi (putQuotient_special w s q)

/-- The call pushes, which changes nothing special, and then jumps; the table has no call through a 24-bit pointer
(R334). -/
theorem writesListed_callTo (j : Jump) (s : State) (hj : j.isCall = true) :
    WritesListed (.jsr j) (special s) (special (callTo j s)) := by
  cases j with
  | abs mmll => exact writesListed_of_eq (by simp [callTo, jumpTo])
  | abl hhmmll => exact writesListed_of_pg rfl (by simp [callTo, jumpTo])
  | indX mmll => exact writesListed_of_eq (by simp [callTo, jumpTo])
  | ind mmll => cases hj
  | indL mmll => cases hj

theorem writesListed_jumpTo (j : Jump) (s : State) :
    WritesListed (.jmp j) (special s) (special (jumpTo j s)) := by
  cases j with
  | abl hhmmll => exact writesListed_of_pg rfl rfl
  | indL mmll => exact writesListed_of_pg rfl (by simp [jumpTo_indL])
  | abs mmll => exact writesListed_of_eq rfl
  | ind mmll => exact writesListed_of_eq (jumpThrough_special _ s)
  | indX mmll => exact writesListed_of_eq (jumpThrough_special _ s)

/-! ### No instruction writes more than it is listed for -/

/-- An answer that is a state differs from `s` only in what `i` is listed for. -/
def AnswersListed (i : Instr) (s : State) (r : Result) : Prop :=
  ∀ t, r = .next t → WritesListed i (special s) (special t)

section
variable {i : Instr} {s u t : State} {r : Result}

theorem answersListed_of_next (hr : r = .next t) (h : WritesListed i (special s) (special t)) :
    AnswersListed i s r := by
  subst hr
  intro u hu
  cases hu
  exact h

theorem answersListed_of_on7750 (hr : r = on7750 u t) (h : WritesListed i (special s) (special t)) :
    AnswersListed i s r := by
  subst hr
  unfold on7750
  split
  · exact answersListed_of_next rfl h
  · intro v hv
    cases hv

/-- The special part may be taken before or after the operand is read. -/
theorem WritesListed.of_read (hu : special u = special s) (h : WritesListed i (special u) (special t)) :
    WritesListed i (special s) (special t) := hu ▸ h

theorem answersListed_same (hr : r = .next t) (h : special t = special s) : AnswersListed i s r :=
  answersListed_of_next hr (writesListed_of_eq h)

end

/-- Each kind of instruction in turn.  That the term is well formed matters for JSR alone, which has no call through a
24-bit pointer. -/
theorem exec_answersListed (i : Instr) (s : State)
    (hwf : i.wellFormed s.chip.series (s.flag .m) (s.flag .x) = true) : AnswersListed i s (exec i s) := by
  cases i with
  -- PG
  | jmp j => exact answersListed_of_next rfl (writesListed_jumpTo j s)
  | jsr j =>
    have hcall : j.isCall = true := by simpa [Instr.wellFormed, Instr.operandsFit, Instr.only7750] using hwf
    exact answersListed_of_next rfl (writesListed_callTo j s hcall)
  | bra d => exact answersListed_of_next rfl (writesListed_of_pg rfl rfl)
  | bbc mask mode rr =>
    exact answersListed_of_next (exec_bbc s mask mode rr)
      ((writesListed_branchIf _ _ rr rfl).of_read (loadMode_special _ s mode))
  | bbs mask mode rr =>
    exact answersListed_of_next (exec_bbs s mask mode rr)
      ((writesListed_branchIf _ _ rr rfl).of_read (loadMode_special _ s mode))
  | bcc rr | bcs rr | bne rr | beq rr | bpl rr | bmi rr | bvc rr | bvs rr =>
    exact answersListed_of_next rfl (writesListed_branchIf s _ rr rfl)
  | rtl => exact answersListed_of_next (exec_rtl s) (writesListed_of_pg rfl (by simp))
  -- DT
  | ldt v => exact answersListed_of_next rfl (writesListed_of_dt rfl rfl)
  | plt => exact answersListed_of_next (exec_plt s) (writesListed_of_dt rfl (by simp))
  | mvn dst src =>
    exact answersListed_of_next rfl (writesListed_of_dt rfl (by simp [blockTransfer_special, moveUp_special]))
  | mvp dst src =>
    exact answersListed_of_next rfl (writesListed_of_dt rfl (by simp [blockTransfer_special, moveDown_special]))
  -- DPR
  | tad | tbd => exact answersListed_of_next rfl (writesListed_of_dpr rfl rfl)
  | pld => exact answersListed_of_next rfl (writesListed_of_dpr rfl (by simp [pullDpr_eq]))
  -- V
  | clv => exact answersListed_of_next rfl (writesListed_of_v rfl (by simp))
  | adc r o =>
    rw [exec_adc]
    split
    · exact answersListed_of_next rfl
        ((writesListed_of_v rfl (adcDecimal_special _ _ r _)).of_read (operand_special _ s o))
    · exact answersListed_of_next rfl
        ((writesListed_of_v rfl (putSum_special _ _ r _)).of_read (operand_special _ s o))
  | sbc r o =>
    rw [exec_sbc]
    split
    · exact answersListed_of_next rfl
        ((writesListed_of_v rfl (sbcDecimal_special _ _ r _)).of_read (operand_special _ s o))
    · exact answersListed_of_next rfl
        ((writesListed_of_v rfl (putSum_special _ _ r _)).of_read (operand_special _ s o))
  -- V, or the entry of a zero division
  | div o =>
    rw [exec_div]
    split
    · exact answersListed_of_next rfl
        ((writesListed_takeInterrupt _ _ rfl (.inr ⟨o, .inl rfl⟩)).of_read (operand_special _ s o))
    · exact answersListed_of_next rfl ((writesListed_putQuotient _ _ _ rfl).of_read (operand_special _ s o))
  | divs o =>
    rw [exec_divs]
    split
    · exact answersListed_of_on7750 rfl
        ((writesListed_takeInterrupt _ _ rfl (.inr ⟨o, .inr rfl⟩)).of_read (operand_special _ s o))
    · exact answersListed_of_on7750 rfl ((writesListed_putQuotient _ _ _ rfl).of_read (operand_special _ s o))
  -- PS
  | clp mask | sep mask => exact answersListed_of_next rfl (writesListed_of_psl rfl rfl (by simp))
  | plp => exact answersListed_of_next rfl (writesListed_of_ps rfl rfl rfl (pullPs_special s))
  | pul mask => exact answersListed_of_next rfl (writesListed_pullMany mask s)
  | rti => exact answersListed_of_next rfl (writesListed_returnFromInterrupt s)
  -- the run state
  | brk nn => exact answersListed_of_next rfl (writesListed_takeInterrupt s _ rfl (.inl ⟨nn, rfl⟩))
  | wit => exact answersListed_of_next rfl { writesListed_of_eq rfl with run := .inr (.inl ⟨rfl, rfl⟩) }
  | stp => exact answersListed_of_next rfl { writesListed_of_eq rfl with run := .inr (.inr (.inl ⟨rfl, rfl⟩)) }
  -- nothing of it
  | mpys o => exact answersListed_of_on7750 (exec_mpys s o) (writesListed_of_eq (by simp))
  | asr _ | exts _ | extz _ => exact answersListed_of_on7750 rfl (writesListed_of_eq (by simp))
  | lda r o => exact answersListed_same (exec_lda s r o) (by simp)
  | ldx o => exact answersListed_same (exec_ldx s o) (by simp)
  | ldy o => exact answersListed_same (exec_ldy s o) (by simp)
  | inc tg => exact answersListed_same (exec_inc s tg) (by simp)
  | dec tg => exact answersListed_same (exec_dec s tg) (by simp)
  | mpy o => exact answersListed_same (exec_mpy s o) (by simp)
  | cmp r o => exact answersListed_same (exec_cmp s r o) (by simp)
  | cpx o => exact answersListed_same (exec_cpx s o) (by simp)
  | cpy o => exact answersListed_same (exec_cpy s o) (by simp)
  | pla => exact answersListed_same (exec_pla s) (by simp)
  | plb => exact answersListed_same (exec_plb s) (by simp)
  | plx => exact answersListed_same (exec_plx s) (by simp)
  | ply => exact answersListed_same (exec_ply s) (by simp)
  | pei dd => exact answersListed_same (exec_pei s dd) (by simp)
  | rts => exact answersListed_same (exec_rts s) (by simp)
  | _ => exact answersListed_same rfl (by simp)

/-- Settles O9: every instruction writes of the special part only what it is listed for. -/
theorem onlyListedInstructionsWrite : Obligations.OnlyListedInstructionsWrite := by
  intro i s t hwf ht
  obtain ⟨hpg, hdt, hdpr, hv, hd, hipl, hrun, hirq⟩ := exec_answersListed i s hwf t ht
  exact ⟨hpg, hdt, hdpr, hv, hd, hipl, hrun, hirq⟩

/-! ### Reset -/

/-- The memory of the reset state lists no cell, so every byte reads 00. -/
theorem reset_byteAt (p : Addr) : State.reset.byteAt p = 0#8 := rfl

/-- Settles O10: the values of R49; PC is the word at the reset vector, both of whose bytes read 00. -/
theorem resetStateValues : Obligations.ResetStateValues := by
  refine ⟨rfl, rfl, rfl, by decide, by decide, by decide, by decide, by decide, rfl, ?_⟩
  rw [wordAt, reset_byteAt, reset_byteAt]
  rfl

end Sys2Proof.Proofs

/-! Settles O7 and O8: the invariant `legal`.  An update of a register, a flag or the bus record does not touch what it
speaks of; a write of memory keeps the canonical form; and the requests change at a boundary and where an event is taken
alone, which name no new source. -/

namespace Sys2Proof.Proofs

open Sys2Proof.Machine Sys2Proof.Safety

/-! ### Operations that leave memory, chip and requests alone -/

theorem legal_congr {s t : State} (hmem : t.mem = s.mem) (hchip : t.chip = s.chip) (hirq : t.irq = s.irq) :
    legal t ↔ legal s := by
  rw [legal, legal, hmem, hchip, hirq]

theorem legal_iff_of_setBus {s t : State} (h : ∃ b, t = s.setBus b) : legal t ↔ legal s := by
  obtain ⟨b, rfl⟩ := h
  exact legal_congr rfl rfl rfl

section
variable (w : Width) (a : Addr) (s : State) (v : Word)

@[simp] theorem legal_setSp : legal (s.setSp v) ↔ legal s := legal_congr rfl rfl rfl
@[simp] theorem legal_setPc : legal (s.setPc v) ↔ legal s := legal_congr rfl rfl rfl
@[simp] theorem legal_setPg (b : Byte) : legal (s.setPg b) ↔ legal s := legal_congr rfl rfl rfl
@[simp] theorem legal_setDt (b : Byte) : legal (s.setDt b) ↔ legal s := legal_congr rfl rfl rfl
@[simp] theorem legal_setDpr : legal (s.setDpr v) ↔ legal s := legal_congr rfl rfl rfl
@[simp] theorem legal_setPs (p : BitVec 11) : legal (s.setPs p) ↔ legal s := legal_congr rfl rfl rfl
@[simp] theorem legal_setRun (r : RunState) : legal (s.setRun r) ↔ legal s := legal_congr rfl rfl rfl
@[simp] theorem legal_setBus (b : Bus) : legal (s.setBus b) ↔ legal s := legal_congr rfl rfl rfl
@[simp] theorem legal_setFlag (f : Flag) (b : Bool) : legal (s.setFlag f b) ↔ legal s := legal_congr rfl rfl rfl
@[simp] theorem legal_setFlagFree (f : Flag) : legal (s.setFlagFree f) ↔ legal s := legal_congr rfl rfl rfl
@[simp] theorem legal_setNZ : legal (s.setNZ w v) ↔ legal s := legal_congr rfl rfl rfl
@[simp] theorem legal_setPsl (b : Byte) : legal (s.setPsl b) ↔ legal s := legal_congr rfl rfl rfl
@[simp] theorem legal_setPsh (b : Byte) : legal (s.setPsh b) ↔ legal s := legal_congr rfl rfl rfl
@[simp] theorem legal_drawn : legal s.drawn ↔ legal s := legal_congr rfl rfl rfl
@[simp] theorem legal_goto : legal (s.goto a) ↔ legal s := legal_congr rfl rfl rfl
@[simp] theorem legal_advance (n : Nat) : legal (s.advance n) ↔ legal s := legal_congr rfl rfl rfl

@[simp] theorem legal_setAcc (r : Acc) : legal (s.setAcc r v) ↔ legal s := by
  cases r <;> exact legal_congr rfl rfl rfl
@[simp] theorem legal_writeAcc (r : Acc) : legal (s.writeAcc w r v) ↔ legal s := legal_setAcc s _ r
@[simp] theorem legal_writeX : legal (s.writeX w v) ↔ legal s := legal_congr rfl rfl rfl
@[simp] theorem legal_writeY : legal (s.writeY w v) ↔ legal s := legal_congr rfl rfl rfl
@[simp] theorem legal_loadAcc (r : Acc) : legal (loadAcc r v s) ↔ legal s := legal_writeAcc _ s v r
@[simp] theorem legal_loadX : legal (loadX v s) ↔ legal s := legal_congr rfl rfl rfl
@[simp] theorem legal_loadY : legal (loadY v s) ↔ legal s := legal_congr rfl rfl rfl

@[simp] theorem legal_readByte : legal (readByte a s).2 ↔ legal s := legal_iff_of_setBus (readByte_spec a s)
@[simp] theorem legal_read16 : legal (read16 a s).2 ↔ legal s := legal_iff_of_setBus (read16_spec a s)
@[simp] theorem legal_read24 : legal (read24 a s).2 ↔ legal s := legal_iff_of_setBus (read24_spec a s)

@[simp] theorem legal_effAddr (mode : Mode) : legal (effAddr mode s).2 ↔ legal s :=
  legal_iff_of_setBus (effAddr_spec mode s)

@[simp] theorem legal_loadMode (mode : Mode) : legal (loadMode w mode s).2 ↔ legal s :=
  legal_iff_of_setBus (loadMode_spec w mode s)

@[simp] theorem legal_operand (o : Operand) : legal (operand w o s).2 ↔ legal s :=
  legal_iff_of_setBus (operand_spec w o s)

@[simp] theorem legal_pull8 : legal (pull8 s).2 ↔ legal s := legal_readByte _ _
@[simp] theorem legal_pull16 : legal (pull16 s).2 ↔ legal s := by rw [pull16_snd, legal_pull8, legal_pull8]

@[simp] theorem legal_pullW : legal (pullW w s).2 ↔ legal s := by
  cases w with
  | w8 => exact legal_pull8 s
  | w16 => exact legal_pull16 s

@[simp] theorem legal_pullPs : legal (pullPs s) ↔ legal s := by simp [pullPs_eq]

@[simp] theorem legal_pullDt : legal (pullDt s) ↔ legal s := by simp [pullDt_eq]
@[simp] theorem legal_pullDpr : legal (pullDpr s) ↔ legal s := by simp [pullDpr_eq]
@[simp] theorem legal_pullY : legal (pullY s) ↔ legal s := by simp [pullY_eq]
@[simp] theorem legal_pullX : legal (pullX s) ↔ legal s := by simp [pullX_eq]
@[simp] theorem legal_pullAcc (r : Acc) : legal (pullAcc r s) ↔ legal s := by simp [pullAcc_eq]

@[simp] theorem legal_returnFromInterrupt : legal (returnFromInterrupt s) ↔ legal s := by
  obtain ⟨ps, pc, pg, b, h⟩ := returnFromInterrupt_spec s
  rw [h, legal_setBus, legal_setPg, legal_setPc, legal_setPs, legal_setSp]

@[simp] theorem legal_jumpThrough : legal (jumpThrough a s) ↔ legal s := legal_read16 a s

@[simp] theorem legal_jumpTo (j : Jump) : legal (jumpTo j s) ↔ legal s := by
  cases j with
  | abs mmll => rw [jumpTo, legal_setPc]
  | abl hhmmll => rw [jumpTo, legal_goto]
  | ind mmll => rw [jumpTo, legal_jumpThrough]
  | indL mmll => rw [jumpTo_indL, legal_goto, legal_read24]
  | indX mmll => rw [jumpTo, legal_jumpThrough]

@[simp] theorem legal_branchIf (taken : Bool) (rr : Byte) : legal (branchIf taken rr s) ↔ legal s := by
  cases taken <;> exact legal_congr rfl rfl rfl

@[simp] theorem legal_putSum (r : Acc) (e : Sum) : legal (putSum r w e s) ↔ legal s := by simp [putSum]

@[simp] theorem legal_putUndigits (r : Acc) : legal (putUndigits r w s) ↔ legal s := by
  simp [putUndigits, drawWord]

@[simp] theorem legal_adcDecimal (r : Acc) : legal (adcDecimal r w v s) ↔ legal s := by
  unfold adcDecimal
  dsimp only
  split
  · simp
  · exact legal_putUndigits w s r

@[simp] theorem legal_sbcDecimal (r : Acc) : legal (sbcDecimal r w v s) ↔ legal s := by
  unfold sbcDecimal
  dsimp only
  split
  · simp
  · exact legal_putUndigits w s r

@[simp] theorem legal_putProduct (p : Product) : legal (putProduct w p s) ↔ legal s := legal_congr rfl rfl rfl
@[simp] theorem legal_putQuotient (q : Quotient) : legal (putQuotient w q s) ↔ legal s := by
  cases q <;> simp [putQuotient, drawWord]
@[simp] theorem legal_putCompare (e : Sum) : legal (putCompare w e s) ↔ legal s := legal_congr rfl rfl rfl

@[simp] theorem legal_combine (f : Word → Word → Word) (r : Acc) (o : Operand) :
    legal (combine f r o s) ↔ legal s := by
  rw [combine_eq, legal_loadAcc, legal_operand]

@[simp] theorem legal_countDone : legal (countDone s) ↔ legal s := by
  obtain ⟨a, b, h, -⟩ := countDone_spec s
  rw [h]
  exact legal_congr rfl rfl rfl

/-! ### Operations that write memory -/

theorem legal_of_store {s t : State} {m : Memory} {b : Bus} (ht : t = (s.setMem m).setBus b)
    (hm : s.mem.wf = true → m.wf = true) (h : legal s) : legal t := by
  obtain ⟨hmem, hchip, hirq⟩ := h
  subst ht
  exact ⟨hm hmem, hchip, hirq⟩

theorem legal_writeMem (h : legal s) : legal (writeMem w a v s) := by
  obtain ⟨m, b, he, hm, -⟩ := writeMem_spec w a v s
  exact legal_of_store he hm h

theorem legal_storeMode (mode : Mode) (h : legal s) : legal (storeMode w mode v s) :=
  legal_writeMem _ _ _ _ ((legal_effAddr s mode).mpr h)

theorem legal_modify (tg : Target) (f : Word → Word) (h : legal s) : legal (modify w tg f s).2 := by
  cases tg with
  | acc r =>
    rw [modify_acc, legal_writeAcc]
    exact h
  | mem mode =>
    rw [modify_mem]
    exact legal_writeMem _ _ _ _ ((legal_loadMode w s mode).mpr h)

theorem legal_shiftBy (f : Width → Word → Shifted) (tg : Target) (h : legal s) : legal (shiftBy f tg s) := by
  rw [shiftBy_eq, legal_setFlag, legal_setNZ]
  exact legal_modify _ s tg _ h

theorem legal_push8 (b : Byte) (h : legal s) : legal (push8 b s) := by
  obtain ⟨m, c, he, hm, -⟩ := push8_spec b s
  rw [he, legal_setSp]
  exact legal_of_store rfl hm h

theorem legal_pushAll (bs : List Byte) (h : legal s) : legal (pushAll bs s) := by
  induction bs generalizing s with
  | nil => exact h
  | cons b bs ih => exact ih (push8 b s) (legal_push8 s b h)

theorem legal_push16 (h : legal s) : legal (push16 v s) := legal_pushAll s [hiByte v, loByte v] h
theorem legal_pushPs (h : legal s) : legal (pushPs s) := legal_pushAll s [s.psh, s.psl] h

theorem legal_pushW (h : legal s) : legal (pushW w v s) := by
  rw [pushW_eq]
  exact legal_pushAll s _ h

theorem legal_callTo (j : Jump) (h : legal s) : legal (callTo j s) := by
  cases j with
  | abl hhmmll =>
    rw [callTo, legal_jumpTo]
    exact legal_push16 _ _ (legal_push8 s s.pg h)
  | _ =>
    simp only [callTo, legal_jumpTo]
    exact legal_push16 s s.pc h

/-- Interrupt entry writes the frame to the stack; the rest of it is of registers (R410). -/
theorem legal_takeInterrupt (level : Option (BitVec 3)) (h : legal s) : legal (takeInterrupt v level s) := by
  obtain ⟨t, u, b, ht, hu, -, he⟩ := takeInterrupt_spec v level s
  rw [he, legal_setRun, legal_setPg, legal_setPc, legal_setBus, hu, legal_setPs, ht]
  exact legal_pushAll s _ h

/-- A masked register is pushed or pulled, or nothing is done. -/
theorem legal_whenBit (mask : Byte) (k : Nat) (f : State → State) (hf : ∀ u, legal u → legal (f u))
    (h : legal s) : legal (whenBit mask k f s) := by
  unfold whenBit
  split
  · exact hf s h
  · exact h

theorem legal_pushMany (mask : Byte) (h : legal s) : legal (pushMany mask s) := by
  apply legal_whenBit _ _ _ _ fun u hu => legal_pushPs u hu
  apply legal_whenBit _ _ _ _ fun u hu => legal_push8 u u.pg hu
  apply legal_whenBit _ _ _ _ fun u hu => legal_push8 u u.dt hu
  apply legal_whenBit _ _ _ _ fun u hu => legal_push16 u u.dpr hu
  apply legal_whenBit _ _ _ _ fun u hu => legal_pushW u.xWidth u u.y hu
  apply legal_whenBit _ _ _ _ fun u hu => legal_pushW u.xWidth u u.x hu
  apply legal_whenBit _ _ _ _ fun u hu => legal_pushW u.mWidth u u.b hu
  exact legal_whenBit _ _ _ _ (fun u hu => legal_pushW u.mWidth u u.a hu) h

theorem legal_pullMany (mask : Byte) (h : legal s) : legal (pullMany mask s) := by
  apply legal_whenBit _ _ _ _ fun u hu => (legal_pullAcc u .a).mpr hu
  apply legal_whenBit _ _ _ _ fun u hu => (legal_pullAcc u .b).mpr hu
  apply legal_whenBit _ _ _ _ fun u hu => (legal_pullX u).mpr hu
  apply legal_whenBit _ _ _ _ fun u hu => (legal_pullY u).mpr hu
  apply legal_whenBit _ _ _ _ fun u hu => (legal_pullDpr u).mpr hu
  apply legal_whenBit _ _ _ _ fun u hu => (legal_pullDt u).mpr hu
  exact legal_whenBit _ _ _ _ (fun u hu => (legal_pullPs u).mpr hu) h

/-- A block transfer keeps the invariant if the transfer of its bytes does. -/
theorem legal_blockTransfer (dst : Byte) (move : Width → Nat → Transfer → Transfer)
    (hm : ∀ w cnt t, legal t.s → legal (move w cnt t).s) (h : legal s) : legal (blockTransfer dst move s) := by
  rw [blockTransfer_eq, legal_countDone, legal_writeY, legal_writeX]
  exact hm _ _ _ h

end

theorem legal_moveUp (dst src : Byte) (w : Width) (cnt : Nat) (t : Transfer) (h : legal t.s) :
    legal (moveUp dst src w cnt t).s := by
  obtain ⟨m, b, he, hm⟩ := moveUp_spec dst src w cnt t
  exact legal_of_store he hm h

theorem legal_moveDown (dst src : Byte) (w : Width) (cnt : Nat) (t : Transfer) (h : legal t.s) :
    legal (moveDown dst src w cnt t).s := by
  obtain ⟨m, b, he, hm⟩ := moveDown_spec dst src w cnt t
  exact legal_of_store he hm h

/-! ### No instruction leaves the legal states -/

/-- An answer that is a state is legal. -/
def AnswersLegal (r : Result) : Prop := ∀ t, r = .next t → legal t

theorem answersLegal_of_next {t : State} {r : Result} (hr : r = .next t) (h : legal t) : AnswersLegal r := by
  subst hr
  intro u hu
  cases hu
  exact h

theorem answersLegal_of_on7750 {s t : State} {r : Result} (hr : r = on7750 s t) (h : legal t) : AnswersLegal r := by
  subst hr
  unfold on7750
  split
  · exact answersLegal_of_next rfl ((legal_congr rfl rfl rfl).mpr h)
  · intro u hu
    cases hu

/-- By what the instruction does to memory: nothing, a store, a push, a block transfer, or the frame of an entry. -/
theorem exec_answersLegal (i : Instr) (s : State) (h : legal s) : AnswersLegal (exec i s) := by
  cases i with
  -- stores, and what reads, computes and writes back
  | ldm v mode => exact answersLegal_of_next rfl (legal_storeMode _ s _ mode h)
  | sta r mode => exact answersLegal_of_next rfl (legal_storeMode _ s _ mode h)
  | stx mode => exact answersLegal_of_next rfl (legal_storeMode _ s _ mode h)
  | sty mode => exact answersLegal_of_next rfl (legal_storeMode _ s _ mode h)
  | clb mask mode => exact answersLegal_of_next rfl (legal_modify _ s (.mem mode) _ h)
  | seb mask mode => exact answersLegal_of_next rfl (legal_modify _ s (.mem mode) _ h)
  | inc tg => exact answersLegal_of_next (exec_inc s tg) (by simp [legal_modify, h])
  | dec tg => exact answersLegal_of_next (exec_dec s tg) (by simp [legal_modify, h])
  | asl tg | lsr tg | rol tg | ror tg => exact answersLegal_of_next rfl (legal_shiftBy s _ tg h)
  | asr tg => exact answersLegal_of_on7750 rfl (legal_shiftBy s _ tg h)
  -- pushes and calls
  | psh mask => exact answersLegal_of_next rfl (legal_pushMany s mask h)
  | pha | phb | phx | phy => exact answersLegal_of_next rfl (legal_pushW _ s _ h)
  | phd | pea v | per v => exact answersLegal_of_next rfl (legal_push16 s _ h)
  | pht | phg => exact answersLegal_of_next rfl (legal_push8 s _ h)
  | php => exact answersLegal_of_next rfl (legal_pushPs s h)
  | pei dd => exact answersLegal_of_next (exec_pei s dd) (legal_push16 _ _ ((legal_read16 _ s).mpr h))
  | jsr j => exact answersLegal_of_next rfl (legal_callTo s j h)
  -- block transfers
  | mvn dst src => exact answersLegal_of_next rfl (legal_blockTransfer s dst _ (legal_moveUp dst src) h)
  | mvp dst src => exact answersLegal_of_next rfl (legal_blockTransfer s dst _ (legal_moveDown dst src) h)
  -- entries
  | brk nn => exact answersLegal_of_next rfl (legal_takeInterrupt s _ _ h)
  | div o =>
    have ho := (legal_operand s.mWidth s o).mpr h
    rw [exec_div]
    split
    · exact answersLegal_of_next rfl (legal_takeInterrupt _ _ _ ho)
    · exact answersLegal_of_next rfl ((legal_putQuotient _ _ _).mpr ho)
  | divs o =>
    have ho := (legal_operand s.mWidth s o).mpr h
    rw [exec_divs]
    split
    · exact answersLegal_of_on7750 rfl (legal_takeInterrupt _ _ _ ho)
    · exact answersLegal_of_on7750 rfl ((legal_putQuotient _ _ _).mpr ho)
  -- memory read alone
  | adc r o =>
    rw [exec_adc]
    split
    · exact answersLegal_of_next rfl (by simpa using h)
    · exact answersLegal_of_next rfl (by simpa using h)
  | sbc r o =>
    rw [exec_sbc]
    split
    · exact answersLegal_of_next rfl (by simpa using h)
    · exact answersLegal_of_next rfl (by simpa using h)
  | lda r o => exact answersLegal_of_next (exec_lda s r o) (by simpa using h)
  | ldx o => exact answersLegal_of_next (exec_ldx s o) (by simpa using h)
  | ldy o => exact answersLegal_of_next (exec_ldy s o) (by simpa using h)
  | mpy o => exact answersLegal_of_next (exec_mpy s o) (by simpa using h)
  | mpys o => exact answersLegal_of_on7750 (exec_mpys s o) (by simpa using h)
  | and r o | ora r o | eor r o => exact answersLegal_of_next rfl ((legal_combine s _ r o).mpr h)
  | cmp r o => exact answersLegal_of_next (exec_cmp s r o) (by simpa using h)
  | cpx o => exact answersLegal_of_next (exec_cpx s o) (by simpa using h)
  | cpy o => exact answersLegal_of_next (exec_cpy s o) (by simpa using h)
  | bbc mask mode rr => exact answersLegal_of_next (exec_bbc s mask mode rr) (by simpa using h)
  | bbs mask mode rr => exact answersLegal_of_next (exec_bbs s mask mode rr) (by simpa using h)
  | jmp j => exact answersLegal_of_next rfl ((legal_jumpTo s j).mpr h)
  -- pulls and returns
  | pul mask => exact answersLegal_of_next rfl (legal_pullMany s mask h)
  | pla => exact answersLegal_of_next (exec_pla s) (by simpa using h)
  | plb => exact answersLegal_of_next (exec_plb s) (by simpa using h)
  | plx => exact answersLegal_of_next (exec_plx s) (by simpa using h)
  | ply => exact answersLegal_of_next (exec_ply s) (by simpa using h)
  | plt => exact answersLegal_of_next (exec_plt s) (by simpa using h)
  | plp => exact answersLegal_of_next rfl ((legal_pullPs s).mpr h)
  | pld => exact answersLegal_of_next rfl ((legal_pullDpr s).mpr h)
  | rts => exact answersLegal_of_next (exec_rts s) (by simpa using h)
  | rtl => exact answersLegal_of_next (exec_rtl s) (by simpa using h)
  | rti => exact answersLegal_of_next rfl ((legal_returnFromInterrupt s).mpr h)
  -- registers, flags and the run state alone
  | exts r | extz r => exact answersLegal_of_on7750 rfl ((legal_setAcc s _ r).mpr h)
  | bcc rr | bcs rr | bne rr | beq rr | bpl rr | bmi rr | bvc rr | bvs rr =>
    exact answersLegal_of_next rfl ((legal_branchIf s _ rr).mpr h)
  | _ => exact answersLegal_of_next rfl ((legal_congr rfl rfl rfl).mpr h)

/-! ### The fetch -/

/-- What reads memory leaves the chip and the invariant as they are. -/
theorem readBytes_spec (n : Nat) (a : Addr) (s : State) : ∃ b, (readBytes n a s).2 = s.setBus b := by
  induction n generalizing a s with
  | zero => exact ⟨s.bus, rfl⟩
  | succ n ih =>
    obtain ⟨b, hb⟩ := readByte_spec a s
    obtain ⟨c, hc⟩ := ih (a + 1) (readByte a s).2
    refine ⟨c, ?_⟩
    rw [hb, setBus_setBus] at hc
    rw [← hc, ← hb]
    rfl

theorem readOpcode_spec (s : State) : ∃ b, (readOpcode s).2 = s.setBus b := by
  obtain ⟨b, hb⟩ := readByte_spec s.pcAddr s
  obtain ⟨c, hc⟩ := readByte_spec (s.pcAddr + 1) (readByte s.pcAddr s).2
  unfold readOpcode
  dsimp only
  split
  · exact ⟨c, by rw [hc, hb, setBus_setBus]⟩
  · exact ⟨b, hb⟩

theorem readInstr_spec (s : State) : ∃ b, (readInstr s).2 = s.setBus b := by
  obtain ⟨b, hb⟩ := readOpcode_spec s
  unfold readInstr
  dsimp only
  split
  next => exact ⟨b, hb⟩
  next e he =>
    obtain ⟨c, hc⟩ := readBytes_spec (e.shape.operandLen (s.flag .m) (s.flag .x))
      (s.pcAddr + BitVec.ofNat 24 (readOpcode s).1.length) (readOpcode s).2
    exact ⟨c, by rw [hc, hb, setBus_setBus]⟩

/-- What the fetch and the instruction can answer: the meaning of some instruction in the state after the fetch, or a
fault. -/
theorem runInstruction_cases (s : State) :
    (∃ i b n, runInstruction s = exec i ((s.setBus b).advance n)) ∨ runInstruction s = .fault .undefinedOpcode := by
  obtain ⟨b, hb⟩ := readInstr_spec s
  unfold runInstruction
  dsimp only
  split
  next p hp => exact .inl ⟨p.1, b, _, by rw [hb]⟩
  next => exact .inr rfl

/-! ### Events -/

/-- The requests after an event: fewer are pending, and the stream is as before. -/
theorem legal_setIrq {s : State} {q : Requests} (h : legal s) (hp : ∀ r ∈ q.pending, r ∈ s.irq.pending)
    (hi : q.inputs = s.irq.inputs) : legal (s.setIrq q) := by
  obtain ⟨hmem, hchip, hirq⟩ := h
  refine ⟨hmem, hchip, ?_⟩
  simp only [requestsListed, Bool.and_eq_true, List.all_eq_true] at hirq ⊢
  rw [setIrq_irq, hi]
  exact ⟨fun r hr => hirq.1 r (hp r hr), hirq.2⟩

theorem legal_boundary (s : State) (h : legal s) : legal (boundary s) := by
  obtain ⟨hmem, hchip, hirq⟩ := h
  have hlisted := boundary_listed s hirq
  obtain ⟨q, hq⟩ := boundary_spec s
  rw [hq] at hlisted ⊢
  exact ⟨hmem, hchip, hlisted⟩

/-- The reset event draws registers, loads PC and takes its request back: the rest is as before (R450). -/
theorem takeReset_rest (s : State) :
    (takeReset s).chip = s.chip ∧
      (legal (takeReset s) ↔ legal (s.setIrq { s.irq with resetPending := false })) := by
  obtain ⟨a, b, x, y, sp, n, v, z, c, bus, u, hu, he⟩ := takeReset_spec s
  obtain ⟨d, hd⟩ := read16_spec (mkAddr 0#8 vecReset) u
  rw [he, hd, hu]
  exact ⟨rfl, legal_congr rfl rfl rfl⟩

@[simp] theorem takeEvent_chip (e : Event) (s : State) : (takeEvent e s).chip = s.chip := by
  cases e with
  | reset => exact (takeReset_rest s).1
  | watchdog => exact takeInterrupt_chip _ _ _
  | irq r => exact takeInterrupt_chip _ _ _

theorem legal_takeEvent (e : Event) (s : State) (h : legal s) : legal (takeEvent e s) := by
  cases e with
  | reset => exact (takeReset_rest s).2.mpr (legal_setIrq h (fun _ => id) rfl)
  | watchdog => exact legal_takeInterrupt _ _ _ (legal_setIrq h (fun _ => id) rfl)
  | irq r => exact legal_takeInterrupt _ _ _ (legal_setIrq h (fun _ hr => (List.mem_filter.mp hr).1) rfl)

/-! ### The step -/

/-- What a turn can answer, after the boundary: an event taken, nothing done, or the run of an instruction (R14). -/
theorem turn_cases (s : State) :
    (∃ e, turn s = .next (takeEvent e (boundary s))) ∨ turn s = .next (boundary s) ∨
      turn s = runInstruction (boundary s) := by
  unfold turn
  dsimp only
  split
  next e he => exact .inl ⟨e, rfl⟩
  next =>
    split
    · exact .inr (.inr rfl)
    · exact .inr (.inl rfl)
    · exact .inr (.inl rfl)

/-- A step that goes on is a turn within the contract of single-chip mode (D11). -/
theorem step_eq_next_iff (s t : State) : step s = .next t ↔ turn s = .next t ∧ withinContract t = true := by
  unfold step
  cases turn s with
  | next u =>
    rw [keepContract_eq]
    split
    next hu => exact ⟨fun h => ⟨h, by cases h; exact hu⟩, fun h => h.1⟩
    next hu => exact ⟨nofun, fun ⟨h, ht⟩ => by cases h; exact absurd ht hu⟩
  | fault e => exact ⟨nofun, fun h => nomatch h.1⟩
  | refused e => exact ⟨nofun, fun h => nomatch h.1⟩

/-- Settles O7: whatever the turn does, it keeps the chip and the legal states. -/
theorem stepKeepsLegal : Obligations.StepKeepsLegal := by
  intro s t hstep
  obtain ⟨hturn, -⟩ := (step_eq_next_iff s t).mp hstep
  have hchip := (boundary_keeps s).1
  rcases turn_cases s with ⟨e, he⟩ | hb | hrun
  · cases hturn.symm.trans he
    exact ⟨(takeEvent_chip e _).trans hchip, fun h => legal_takeEvent e _ (legal_boundary s h)⟩
  · cases hturn.symm.trans hb
    exact ⟨hchip, legal_boundary s⟩
  · rcases runInstruction_cases (boundary s) with ⟨i, b, n, he⟩ | hf
    · have hexec := (hturn.symm.trans (hrun.trans he)).symm
      exact ⟨(exec_keepsChip i _ t hexec).trans hchip,
        fun h => exec_answersLegal i _ (by simpa using legal_boundary s h) t hexec⟩
    · cases hturn.symm.trans (hrun.trans hf)

/-- Settles O8: no memory cell is listed, and `Chip.standard` and the empty requests are as R404 asks. -/
theorem resetIsLegal : Obligations.ResetIsLegal := ⟨Memory.wf_nil, by decide, by decide⟩

end Sys2Proof.Proofs

/-! Settles O3, O16 to O21: the printed examples, the contract of single-chip mode, stores and loads, accesses outside
RAM, and the addressing modes with and without a pointer. -/

namespace Sys2Proof.Proofs

open Sys2Proof.Machine Sys2Proof.Safety

/-! ### One byte, by the kind of its address (R61) -/

section
variable {a : Addr} {s : State}

/-- RAM is read in single-chip mode outside bank 0 too; the step is refused after it (R62). -/
theorem readByte_ram_fst (hk : s.kindAt a = .ram) : (readByte a s).1 = s.byteAt a := by
  obtain ⟨b, hb⟩ := touch_spec a s
  simp only [readByte, hb, setBus_kindAt, hk, setBus_byteAt]

theorem writeByte_rom (hin : s.chip.singleChip = true → addrBank a = 0#8) (hk : s.kindAt a = .rom) (v : Byte) :
    writeByte a v s = s := by
  simp only [writeByte, touch_inside a s hin, hk]

theorem readByte_unmapped (hin : s.chip.singleChip = true → addrBank a = 0#8) (hk : s.kindAt a = .unmapped) :
    readByte a s = drawByte s := by
  simp only [readByte, touch_inside a s hin, hk]

theorem writeByte_unmapped (hin : s.chip.singleChip = true → addrBank a = 0#8) (hk : s.kindAt a = .unmapped)
    (v : Byte) : writeByte a v s = s := by
  simp only [writeByte, touch_inside a s hin, hk]

theorem readByte_device (hin : s.chip.singleChip = true → addrBank a = 0#8) (hk : s.kindAt a = .device) :
    readByte a s = ((drawByte s).1, s.drawn.record (.read a (drawByte s).1)) := by
  simp only [readByte, touch_inside a s hin, hk, drawByte_snd]

theorem writeByte_device (hin : s.chip.singleChip = true → addrBank a = 0#8) (hk : s.kindAt a = .device) (v : Byte) :
    writeByte a v s = s.record (.write a v) := by
  simp only [writeByte, touch_inside a s hin, hk]

end

/-- Settles O18, by the kind of the address. -/
theorem accessesOutsideRam : Obligations.AccessesOutsideRam := by
  intro a v s hin
  refine ⟨fun hk => ?_, fun hk => ?_, fun hk => ?_⟩
  · rw [readByte_unmapped hin hk, writeByte_unmapped hin hk]
    exact ⟨rfl, rfl, rfl⟩
  · exact ⟨readByte_gives a s ⟨.inr hk, hin⟩, writeByte_rom hin hk v⟩
  · rw [readByte_device hin hk, writeByte_device hin hk]
    exact ⟨rfl, rfl, rfl, rfl⟩

/-! ### A datum stored and loaded -/

/-- A load from RAM gives the bytes that stand there. -/
theorem readMem_ram_fst {w : Width} {ea : Addr} {s : State} (hlo : s.kindAt ea = .ram)
    (hhi : w = .w16 → s.kindAt (ea + 1) = .ram) : (readMem w ea s).1.toNat = dataAt w s ea := by
  cases w with
  | w8 =>
    have := (s.byteAt ea).isLt
    rw [readMem_w8_fst, readByte_ram_fst hlo, BitVec.toNat_setWidth, dataAt]
    omega
  | w16 =>
    obtain ⟨b, hb⟩ := readByte_spec ea s
    rw [readMem_w16, read16_fst, hb, readByte_ram_fst (s := s.setBus b) (hhi rfl), readByte_ram_fst hlo,
      mkWord_toNat, setBus_byteAt, dataAt]
    omega

/-- The bytes of a stored datum, where they are RAM, are the W bits of the value (R64). -/
theorem dataAt_of_stores {w : Width} {ea : Addr} {v : Word} {s t : State} (h : Stores w ea v s t)
    (hlo : s.kindAt ea = .ram) (hhi : w = .w16 → s.kindAt (ea + 1) = .ram) : dataAt w t ea = valueOf w v := by
  obtain ⟨h1, h2⟩ := h
  have hv := v.isLt
  have elo : (t.byteAt ea).toNat = v.toNat % 256 := by
    rw [h1, if_pos hlo]
    simp [loByte]
  cases w with
  | w8 => exact elo
  | w16 =>
    have ehi : (t.byteAt (ea + 1)).toNat = v.toNat / 256 := by
      rw [h2 rfl, if_pos (hhi rfl), hiByte, BitVec.extractLsb'_toNat, Nat.shiftRight_eq_div_pow]
      omega
    simp only [dataAt, elo, ehi, valueOf, bitsOf]
    omega

/-- Settles O17: what a store writes, its frame, and the load that gives it back. -/
theorem storedDataReadBack : Obligations.StoredDataReadBack := by
  intro w ea v s
  obtain ⟨hstores, ⟨-, hframe, -, hchip, -⟩, -⟩ := writeMem_stores w ea v s s.bus
  rw [setBus_self] at hstores hframe hchip
  refine ⟨hstores, hframe, fun hlo hhi => ?_⟩
  have hkind : ∀ p, (writeMem w ea v s).kindAt p = s.kindAt p := fun p => by rw [State.kindAt, hchip]; rfl
  rw [readMem_ram_fst ((hkind ea).trans hlo) fun hw => (hkind _).trans (hhi hw), dataAt_of_stores hstores hlo hhi]

/-! ### The parts of an effective address, as numbers -/

section
variable (s : State)

@[simp] theorem zext24_toNat (v : Word) : (zext24 v).toNat = v.toNat := by
  have := v.isLt
  rw [zext24, BitVec.toNat_setWidth]
  omega

@[simp] theorem zext24b_toNat (v : Byte) : (zext24b v).toNat = v.toNat := by
  have := v.isLt
  rw [zext24b, BitVec.toNat_setWidth]
  omega

/-- The index is the register's 16 bits, or its low byte when x = 1 (R76). -/
@[simp] theorem indexX_toNat : s.indexX.toNat = valueOf s.xWidth s.x := narrow_toNat_valueOf _ _
@[simp] theorem indexY_toNat : s.indexY.toNat = valueOf s.xWidth s.y := narrow_toNat_valueOf _ _

/-- R77. -/
theorem directPage_toNat (d : Addr) : (s.directPage d).toNat = (s.dpr.toNat + d.toNat) % 2 ^ 24 := by
  rw [State.directPage, BitVec.toNat_add, zext24_toNat]

/-- The direct page location with an index, summed modulo 2^24 once. -/
theorem directPage_index_toNat (d : Byte) (i : Word) :
    (s.directPage (zext24b d + zext24 i)).toNat = (s.dpr.toNat + d.toNat + i.toNat) % 2 ^ 24 := by
  rw [directPage_toNat, BitVec.toNat_add, zext24b_toNat, zext24_toNat, Nat.add_mod_mod, Nat.add_assoc]

/-- An index is added with carry into the bank (R76). -/
theorem add_index_toNat (p : Addr) (i : Word) : (p + zext24 i).toNat = (p.toNat + i.toNat) % 2 ^ 24 := by
  rw [BitVec.toNat_add, zext24_toNat]

theorem stackRel_toNat (d : Byte) : (s.stackRel d).toNat = (s.sp.toNat + d.toNat) % 2 ^ 24 := by
  rw [State.stackRel, BitVec.toNat_add, zext24_toNat, zext24b_toNat]

end

/-- Settles O19, mode by mode. -/
theorem effectiveAddresses : Obligations.EffectiveAddresses := by
  intro s d a l
  refine ⟨?_, ?_, ?_, ?_, ?_, ?_, rfl, ?_, ?_, rfl, rfl, rfl, rfl, rfl, rfl, rfl, rfl, rfl⟩
  · simp only [effAddr, directPage_toNat, zext24b_toNat]
  · simp only [effAddr, directPage_index_toNat, indexX_toNat]
  · simp only [effAddr, directPage_index_toNat, indexY_toNat]
  · simp only [effAddr, mkAddr_toNat, Nat.reducePow]
  · simp only [effAddr, add_index_toNat, mkAddr_toNat, indexX_toNat, Nat.reducePow]
  · simp only [effAddr, add_index_toNat, mkAddr_toNat, indexY_toNat, Nat.reducePow]
  · simp only [effAddr, add_index_toNat, indexX_toNat]
  · simp only [effAddr, stackRel_toNat]

/-! ### The modes with a pointer, where memory gives its bytes -/

section
variable {s : State} {d : Byte}

theorem effAddr_dInd (h : givesFrom 2 s (effAddr (.dir d) s).1) :
    effAddr (.dInd d) s = (mkAddr s.dt (wordAt s (effAddr (.dir d) s).1), s) := by
  have hp : read16 (s.directPage (zext24b d)) s = _ := read16_gives _ s h
  simp only [effAddr, hp]

theorem effAddr_dIndY (h : givesFrom 2 s (effAddr (.dir d) s).1) :
    effAddr (.dIndY d) s = (mkAddr s.dt (wordAt s (effAddr (.dir d) s).1) + zext24 s.indexY, s) := by
  have hp : read16 (s.directPage (zext24b d)) s = _ := read16_gives _ s h
  simp only [effAddr, hp]

theorem effAddr_dXInd (h : givesFrom 2 s (effAddr (.dirX d) s).1) :
    effAddr (.dXInd d) s = (mkAddr s.dt (wordAt s (effAddr (.dirX d) s).1), s) := by
  have hp : read16 (s.directPage (zext24b d + zext24 s.indexX)) s = _ := read16_gives _ s h
  simp only [effAddr, hp]

theorem effAddr_dIndL (h : givesFrom 3 s (effAddr (.dir d) s).1) :
    effAddr (.dIndL d) s = (longAt s (effAddr (.dir d) s).1, s) :=
  read24_gives _ s h

theorem effAddr_dIndLY (h : givesFrom 3 s (effAddr (.dir d) s).1) :
    effAddr (.dIndLY d) s = (longAt s (effAddr (.dir d) s).1 + zext24 s.indexY, s) := by
  have hp : read24 (s.directPage (zext24b d)) s = _ := read24_gives _ s h
  simp only [effAddr, hp]

theorem effAddr_srIndY (h : givesFrom 2 s (effAddr (.sr d) s).1) :
    effAddr (.srIndY d) s = (mkAddr s.dt (wordAt s (effAddr (.sr d) s).1) + zext24 s.indexY, s) := by
  have hp : read16 (s.stackRel d) s = _ := read16_gives _ s h
  simp only [effAddr, hp]

end

/-- Settles O20, pointer by pointer. -/
theorem pointerAddresses : Obligations.PointerAddresses := by
  intro s d
  refine ⟨fun h => ?_, fun h => ?_, fun h => ?_, fun h => ?_⟩
  · rw [effAddr_dInd h, effAddr_dIndY h, add_index_toNat, mkAddr_toNat, indexY_toNat]
    exact ⟨rfl, rfl, rfl, rfl⟩
  · rw [effAddr_dXInd h, mkAddr_toNat]
    exact ⟨rfl, rfl⟩
  · rw [effAddr_dIndL h, effAddr_dIndLY h, add_index_toNat, indexY_toNat]
    exact ⟨rfl, rfl, rfl, rfl⟩
  · rw [effAddr_srIndY h, add_index_toNat, mkAddr_toNat, indexY_toNat]
    exact ⟨rfl, rfl⟩

/-! ### Operands -/

/-- Settles O21: the datum is read after the pointer, which has changed the bus record alone. -/
theorem operandValues : Obligations.OperandValues := by
  intro w s
  refine ⟨fun v => ⟨narrow_toNat_valueOf w _, rfl⟩, fun mode h => ?_⟩
  obtain ⟨b, hb⟩ := effAddr_spec mode s
  have hgives : givesFrom (bytesIn w) (effAddr mode s).2 (effAddr mode s).1 :=
    (givesFrom_congr (effAddr_chip s mode) _ _).mpr h
  have hdata : dataAt w (effAddr mode s).2 (effAddr mode s).1 = dataAt w s (effAddr mode s).1 := by rw [hb]; rfl
  rw [← hdata]
  exact readMem_gives w _ _ hgives

/-! ### The contract of single-chip mode (R62, R462) -/

theorem withinContract_iff {t : State} (hs : t.chip.singleChip = true) :
    withinContract t = true ↔ t.pg = 0#8 ∧ t.dt = 0#8 ∧ t.dpr.toNat ≤ 0xFF00 ∧ t.bus.outside = false := by
  simp [withinContract, hs, BitVec.le_def, and_assoc]

/-- Settles O16: a step goes on within the contract alone, and a turn that leaves it is refused. -/
theorem singleChipContract : Obligations.SingleChipContract := by
  refine ⟨fun s t hstep hs => ?_, fun s u hturn hs hleaves => ?_⟩
  · exact (withinContract_iff hs).mp ((step_eq_next_iff s t).mp hstep).2
  · have hnot : ¬ withinContract u = true := by
      rw [withinContract_iff hs]
      rintro ⟨hpg, hdt, hdpr, hout⟩
      rcases hleaves with h | h | h | h
      · exact h hpg
      · exact h hdt
      · omega
      · exact absurd (h.symm.trans hout) (by decide)
    rw [step, hturn, keepContract_eq, if_neg hnot]

/-! ### The printed examples -/

/-- Settles O3: no cell looked up has a star, so the series does not matter, and no immediate goes by x. -/
theorem printedExamplesDecode : Obligations.PrintedExamplesDecode :=
  fun _ _ => ⟨rfl, rfl, rfl, rfl, rfl⟩

end Sys2Proof.Proofs

/-! Settles O1, O2, O4, O6 and O52: the decoder and the encoder, and the codes that are no instruction.  The values of
the operands are kept apart from the format that reads them (`Fields`), so that a cell of an opcode map is one equation
with the encoder, an opcode map is one table of such equations, and reading the operands is the inverse of writing
them.  With these, O2 is that every cell agrees with the encoder, and O1 that every instruction has a cell. -/

namespace Sys2Proof.Proofs

open Sys2Proof.Machine Sys2Proof.Safety

/-! ### Functions of a byte, compared code by code -/

/-- The values of a function of a byte, laid out like an opcode map: row by the high digit, column by the low digit. -/
def digitTable {α : Type} (f : Byte → α) : List (List α) :=
  (List.range 16).map fun hi => (List.range 16).map fun lo => f (BitVec.ofNat 8 (16 * hi + lo))

theorem ofNat_digits (b : Byte) : BitVec.ofNat 8 (16 * (b.toNat / 16) + b.toNat % 16) = b := by
  rw [Nat.div_add_mod, BitVec.ofNat_toNat, BitVec.setWidth_eq]

theorem eq_of_digitTable_eq {α : Type} {f g : Byte → α} (h : digitTable f = digitTable g) (b : Byte) : f b = g b := by
  have hrow := List.map_inj_left.mp h (b.toNat / 16) (List.mem_range.mpr (by omega))
  have hcell := List.map_inj_left.mp hrow (b.toNat % 16) (List.mem_range.mpr (by omega))
  rwa [ofNat_digits] at hcell

/-! ### The operands of a format -/

/-- A value for every operand that an encoding can have (R131): the immediates whose lengths go by m and by x, the first
and the last single byte, the two-byte and the three-byte operand.  A format uses some of them. -/
structure Fields where
  immM : Imm
  immX : Imm
  byte : Byte
  last : Byte
  word : Word
  long : Addr

/-- The immediates have the lengths that m and x select (R124). -/
def Fields.Fit (m x : Bool) (v : Fields) : Prop := v.immM.fits m = true ∧ v.immX.fits x = true

/-- An immediate of the length that the flag selects. -/
def zeroImm (flag : Bool) : Imm := if flag then .i8 0#8 else .i16 0#16

/-- Values to start from where a format uses few of them. -/
def Fields.zero (m x : Bool) : Fields := ⟨zeroImm m, zeroImm x, 0#8, 0#8, 0#16, 0#24⟩

theorem zeroImm_fits (flag : Bool) : (zeroImm flag).fits flag = true := by cases flag <;> rfl

/-- The instruction that a format makes of the values. -/
def instrOf : Shape → Fields → Instr
  | .nothing i, _ => i
  | .immM f, v => f v.immM
  | .immX f, v => f v.immX
  | .byte f, v => f v.byte
  | .word f, v => f v.word
  | .long f, v => f v.long
  | .two f, v => f v.byte v.last
  | .byteImm f, v => f v.byte v.immM
  | .wordImm f, v => f v.word v.immM
  | .byteImmRel f, v => f v.byte v.immM v.last
  | .wordImmRel f, v => f v.word v.immM v.last

/-- The operand bytes of a format, in memory order (R131). -/
def operandBytes : Shape → Fields → List Byte
  | .nothing _, _ => []
  | .immM _, v => v.immM.bytes
  | .immX _, v => v.immX.bytes
  | .byte _, v => [v.byte]
  | .word _, v => putWord v.word
  | .long _, v => putAddr v.long
  | .two _, v => [v.byte, v.last]
  | .byteImm _, v => v.byte :: v.immM.bytes
  | .wordImm _, v => putWord v.word ++ v.immM.bytes
  | .byteImmRel _, v => (v.byte :: v.immM.bytes) ++ [v.last]
  | .wordImmRel _, v => (putWord v.word ++ v.immM.bytes) ++ [v.last]

/-! ### Reading the operands is the inverse of writing them -/

@[simp] theorem addrOffs_mkAddr (bank : Byte) (offs : Word) : addrOffs (mkAddr bank offs) = offs := by
  unfold addrOffs mkAddr
  exact BitVec.extractLsb'_append_eq_right

@[simp] theorem addrBank_mkAddr (bank : Byte) (offs : Word) : addrBank (mkAddr bank offs) = bank := by
  unfold addrBank mkAddr
  exact BitVec.extractLsb'_append_eq_left

theorem putAddr_eq (a : Addr) : putAddr a = [loByte (addrOffs a), hiByte (addrOffs a), addrBank a] := rfl

theorem takeWord_eq_some_iff {bs rest : List Byte} {w : Word} :
    takeWord bs = some (w, rest) ↔ bs = putWord w ++ rest := by
  constructor
  · intro h
    match bs with
    | lo :: hi :: tail =>
      cases h
      simp [putWord]
  · rintro rfl
    simp [putWord, takeWord]

theorem takeImm_eq_some_iff {flag : Bool} {bs rest : List Byte} {v : Imm} :
    takeImm flag bs = some (v, rest) ↔ v.fits flag = true ∧ bs = v.bytes ++ rest := by
  constructor
  · intro h
    match flag, bs with
    | true, [lo] | true, lo :: hi :: tail =>
      cases h
      exact ⟨rfl, rfl⟩
    | false, lo :: hi :: tail =>
      cases h
      simp [Imm.fits, Imm.bytes, putWord]
  · rintro ⟨hv, rfl⟩
    match flag, v with
    | true, .i8 b => cases rest <;> rfl
    | false, .i16 w => simp [Imm.bytes, putWord, takeImm]

theorem takeImm_map_eq_some {flag : Bool} {bs rest : List Byte} {f : Imm → Instr} {i : Instr}
    (h : (takeImm flag bs).map (fun p => (f p.1, p.2)) = some (i, rest)) :
    ∃ v : Imm, v.fits flag = true ∧ f v = i ∧ bs = v.bytes ++ rest := by
  obtain ⟨⟨v, tail⟩, hv, heq⟩ := Option.map_eq_some_iff.mp h
  cases heq
  obtain ⟨hfit, hbs⟩ := takeImm_eq_some_iff.mp hv
  exact ⟨v, hfit, rfl, hbs⟩

/-- Written operands are read back. -/
theorem read_operandBytes {m x : Bool} {v : Fields} (hv : v.Fit m x) (sh : Shape) (rest : List Byte) :
    sh.read m x (operandBytes sh v ++ rest) = some (instrOf sh v, rest) := by
  have hword : ∀ tail, takeWord (putWord v.word ++ tail) = some (v.word, tail) :=
    fun _ => takeWord_eq_some_iff.mpr rfl
  have himm : ∀ tail, takeImm m (v.immM.bytes ++ tail) = some (v.immM, tail) :=
    fun _ => takeImm_eq_some_iff.mpr ⟨hv.1, rfl⟩
  have himmX : ∀ tail, takeImm x (v.immX.bytes ++ tail) = some (v.immX, tail) :=
    fun _ => takeImm_eq_some_iff.mpr ⟨hv.2, rfl⟩
  cases sh with
  | nothing i | byte f | two f => rfl
  | immM f => simp [Shape.read, operandBytes, instrOf, himm]
  | immX f => simp [Shape.read, operandBytes, instrOf, himmX]
  | word f => simp [Shape.read, operandBytes, instrOf, hword]
  | long f => simp [Shape.read, operandBytes, instrOf, putAddr_eq, mkAddr_bank_offs]
  | byteImm f | byteImmRel f => simp [Shape.read, operandBytes, instrOf, himm]
  | wordImm f | wordImmRel f => simp [Shape.read, operandBytes, instrOf, putWord, himm]

/-- What a format reads are the operand bytes of some values. -/
theorem fields_of_read {m x : Bool} {sh : Shape} {bs rest : List Byte} {i : Instr}
    (h : sh.read m x bs = some (i, rest)) :
    ∃ v : Fields, v.Fit m x ∧ instrOf sh v = i ∧ bs = operandBytes sh v ++ rest := by
  have hm := zeroImm_fits m
  have hx := zeroImm_fits x
  match sh, bs with
  | .nothing _, bs =>
    cases h
    exact ⟨Fields.zero m x, ⟨hm, hx⟩, rfl, rfl⟩
  | .immM _, bs =>
    obtain ⟨w, hfit, rfl, rfl⟩ := takeImm_map_eq_some h
    exact ⟨{ Fields.zero m x with immM := w }, ⟨hfit, hx⟩, rfl, rfl⟩
  | .immX _, bs =>
    obtain ⟨w, hfit, rfl, rfl⟩ := takeImm_map_eq_some h
    exact ⟨{ Fields.zero m x with immX := w }, ⟨hm, hfit⟩, rfl, rfl⟩
  | .byte _, b :: tail =>
    cases h
    exact ⟨{ Fields.zero m x with byte := b }, ⟨hm, hx⟩, rfl, rfl⟩
  | .word _, bs =>
    obtain ⟨⟨w, tail⟩, hw, heq⟩ := Option.map_eq_some_iff.mp h
    cases heq
    exact ⟨{ Fields.zero m x with word := w }, ⟨hm, hx⟩, rfl, takeWord_eq_some_iff.mp hw⟩
  | .long _, ll :: mm :: hh :: tail =>
    cases h
    exact ⟨{ Fields.zero m x with long := mkAddr hh (mkWord mm ll) }, ⟨hm, hx⟩, rfl, by simp [operandBytes, putAddr_eq]⟩
  | .two _, b :: c :: tail =>
    cases h
    exact ⟨{ Fields.zero m x with byte := b, last := c }, ⟨hm, hx⟩, rfl, rfl⟩
  | .byteImm _, d :: bs =>
    obtain ⟨w, hfit, rfl, rfl⟩ := takeImm_map_eq_some h
    exact ⟨{ Fields.zero m x with byte := d, immM := w }, ⟨hfit, hx⟩, rfl, rfl⟩
  | .wordImm _, ll :: mm :: bs =>
    obtain ⟨w, hfit, rfl, rfl⟩ := takeImm_map_eq_some h
    exact ⟨{ Fields.zero m x with word := mkWord mm ll, immM := w }, ⟨hfit, hx⟩, rfl, by simp [operandBytes, putWord]⟩
  | .byteImmRel _, d :: bs =>
    simp only [Shape.read] at h
    split at h
    next w rr tail hw =>
      cases h
      obtain ⟨hfit, rfl⟩ := takeImm_eq_some_iff.mp hw
      exact ⟨{ Fields.zero m x with byte := d, immM := w, last := rr }, ⟨hfit, hx⟩, rfl, by simp [operandBytes]⟩
    next => cases h
  | .wordImmRel _, ll :: mm :: bs =>
    simp only [Shape.read] at h
    split at h
    next w rr tail hw =>
      cases h
      obtain ⟨hfit, rfl⟩ := takeImm_eq_some_iff.mp hw
      exact ⟨{ Fields.zero m x with word := mkWord mm ll, immM := w, last := rr }, ⟨hfit, hx⟩, rfl,
        by simp [operandBytes, putWord]⟩
    next => cases h

/-! ### The decoder reads opcode bytes, then operands -/

theorem readOperands_eq_ok_iff {m x : Bool} {o : Option Entry} {bs : List Byte} {p : Instr × List Byte} :
    readOperands m x o bs = .ok p ↔ ∃ e, o = some e ∧ e.shape.read m x bs = some p := by
  cases o with
  | none => simp [readOperands]
  | some e => cases hr : e.shape.read m x bs <;> simp [readOperands, hr]

/-- A code that has an entry is one byte that opens no second map, or two bytes of which the first does (R122). -/
theorem lookup_eq_some {series : Series} {head : List Byte} {e : Entry} (h : lookup series head = some e) :
    (∃ b, head = [b] ∧ opensPage b = false ∧ entryAt series OpMap.page1 b = some e) ∨
      ∃ p b, head = [p, b] ∧ opensPage p = true ∧ entryAt series (secondPage p) b = some e := by
  match head with
  | [b] =>
    simp only [lookup, Option.ite_none_left_eq_some, Bool.not_eq_true] at h
    exact .inl ⟨b, rfl, h⟩
  | [p, b] =>
    simp only [lookup, Option.ite_none_right_eq_some] at h
    exact .inr ⟨p, b, rfl, h⟩

/-- After a code that has an entry the decoder reads that entry's operands. -/
theorem decode_append {series : Series} {head : List Byte} {e : Entry} (h : lookup series head = some e) (m x : Bool)
    (bs : List Byte) : decode series m x (head ++ bs) = readOperands m x (some e) bs := by
  rcases lookup_eq_some h with ⟨b, rfl, hb, -⟩ | ⟨p, b, rfl, hp, -⟩
  · cases bs <;> simp [decode, hb, h]
  · simp [decode, hp, h]

/-- What decodes begins with a code. -/
theorem exists_code_of_decode {series : Series} {m x : Bool} {bs : List Byte} {p : Instr × List Byte}
    (h : decode series m x bs = .ok p) :
    ∃ head tail, bs = head ++ tail ∧ readOperands m x (lookup series head) tail = .ok p := by
  match bs with
  | [b] =>
    simp only [decode] at h
    split at h
    · cases h
    · exact ⟨[b], [], rfl, h⟩
  | b :: c :: tail =>
    simp only [decode] at h
    split at h
    · exact ⟨[b, c], tail, rfl, h⟩
    · exact ⟨[b], c :: tail, rfl, h⟩

/-- Decoding is a code that has an entry, and values for the operands of the entry's format. -/
theorem decode_eq_ok_iff {series : Series} {m x : Bool} {bs rest : List Byte} {i : Instr} :
    decode series m x bs = .ok (i, rest) ↔
      ∃ head e, lookup series head = some e ∧ ∃ v : Fields, v.Fit m x ∧ instrOf e.shape v = i ∧
        bs = head ++ operandBytes e.shape v ++ rest := by
  constructor
  · intro h
    obtain ⟨head, tail, rfl, hr⟩ := exists_code_of_decode h
    obtain ⟨e, he, hread⟩ := readOperands_eq_ok_iff.mp hr
    obtain ⟨v, hv, hi, rfl⟩ := fields_of_read hread
    exact ⟨head, e, he, v, hv, hi, (List.append_assoc _ _ _).symm⟩
  · rintro ⟨head, e, he, v, hv, rfl, rfl⟩
    rw [List.append_assoc, decode_append he]
    exact readOperands_eq_ok_iff.mpr ⟨e, rfl, read_operandBytes hv _ rest⟩

/-! ### The opcode maps agree with the encoder and with well-formedness -/

/-- What the encoder writes for a cell's instruction. -/
def cellEncoding (v : Fields) (c : Cell) : Option (Option (List Byte)) := c.map fun e => encode (instrOf e.shape v)

/-- The cell's code and the operand bytes of its format. -/
def cellBytes (v : Fields) (head : List Byte) (c : Cell) : Option (Option (List Byte)) :=
  c.map fun e => some (head ++ operandBytes e.shape v)

/-- Table 1 against the encoding tables of the instructions' pages (R131, R132). -/
theorem page1_encoding (v : Fields) :
    digitTable (fun b => cellEncoding v (cellAt OpMap.page1 b)) =
      digitTable fun b => cellBytes v [b] (cellAt OpMap.page1 b) := by rfl

/-- Table 2 against them (R131, R133). -/
theorem page2_encoding (v : Fields) :
    digitTable (fun b => cellEncoding v (cellAt OpMap.page2 b)) =
      digitTable fun b => cellBytes v [0x42#8, b] (cellAt OpMap.page2 b) := by rfl

/-- Table 3 against them (R131, R134). -/
theorem page3_encoding (v : Fields) :
    digitTable (fun b => cellEncoding v (cellAt OpMap.page3 b)) =
      digitTable fun b => cellBytes v [0x89#8, b] (cellAt OpMap.page3 b) := by rfl

/-- The instruction of a cell has operands that fit, and is one of the five of the 7750 Series where the cell has a
star. -/
def cellFits (m x : Bool) (v : Fields) (c : Cell) : Bool :=
  c.all fun e => (instrOf e.shape v).operandsFit m x && ((instrOf e.shape v).only7750 == e.only7750)

theorem pages_fit {m x : Bool} {v : Fields} (hv : v.Fit m x) :
    digitTable (fun b => cellFits m x v (cellAt OpMap.page1 b)) = digitTable (fun _ => true) ∧
    digitTable (fun b => cellFits m x v (cellAt OpMap.page2 b)) = digitTable (fun _ => true) ∧
    digitTable (fun b => cellFits m x v (cellAt OpMap.page3 b)) = digitTable (fun _ => true) := by
  obtain ⟨hm, hx⟩ := hv
  obtain ⟨immM, immX, b, l, w, a⟩ := v
  match m, x, immM, immX, hm, hx with
  | true, true, .i8 _, .i8 _, _, _ => exact ⟨rfl, rfl, rfl⟩
  | true, false, .i8 _, .i16 _, _, _ => exact ⟨rfl, rfl, rfl⟩
  | false, true, .i16 _, .i8 _, _, _ => exact ⟨rfl, rfl, rfl⟩
  | false, false, .i16 _, .i16 _, _, _ => exact ⟨rfl, rfl, rfl⟩

theorem wellFormed_iff {series : Series} {m x : Bool} {i : Instr} :
    i.wellFormed series m x = true ↔ i.operandsFit m x = true ∧ (i.only7750 = true → series = .s7750) := by
  cases h : i.only7750 <;> simp [Instr.wellFormed, h]

theorem available_eq_some {series : Series} {c : Cell} {e : Entry} (h : available series c = some e) :
    c = some e ∧ (e.only7750 = true → series = .s7750) := by
  cases c with
  | none => cases h
  | some e' =>
    simp only [available, Option.ite_none_left_eq_some, Option.some.injEq] at h
    obtain ⟨hseries, rfl⟩ := h
    refine ⟨rfl, fun hstar => ?_⟩
    cases series <;> simp_all

theorem wellFormed_of_cellFits {series : Series} {m x : Bool} {v : Fields} {e : Entry}
    (hfit : cellFits m x v (some e) = true) (hseries : e.only7750 = true → series = .s7750) :
    (instrOf e.shape v).wellFormed series m x = true := by
  simp only [cellFits, Option.all_some, Bool.and_eq_true, beq_iff_eq] at hfit
  obtain ⟨hfit, hstar⟩ := hfit
  exact wellFormed_iff.mpr ⟨hfit, fun h => hseries (hstar ▸ h)⟩

theorem encode_of_cell {v : Fields} {e : Entry} {head : List Byte} {c : Cell} (hc : c = some e)
    (h : cellEncoding v c = cellBytes v head c) : encode (instrOf e.shape v) = some (head ++ operandBytes e.shape v) := by
  subst hc
  exact Option.some.inj h

/-- A code that has an entry is what the encoder writes for the entry's instructions, and these are well formed. -/
theorem encode_of_lookup {series : Series} {m x : Bool} {v : Fields} {head : List Byte} {e : Entry}
    (h : lookup series head = some e) (hv : v.Fit m x) :
    (instrOf e.shape v).wellFormed series m x = true ∧
      encode (instrOf e.shape v) = some (head ++ operandBytes e.shape v) := by
  obtain ⟨hfit1, hfit2, hfit3⟩ := pages_fit hv
  rcases lookup_eq_some h with ⟨b, rfl, -, hb⟩ | ⟨p, b, rfl, hp, hb⟩
  · obtain ⟨hc, hseries⟩ := available_eq_some hb
    exact ⟨wellFormed_of_cellFits (hc ▸ eq_of_digitTable_eq hfit1 b) hseries,
      encode_of_cell hc (eq_of_digitTable_eq (page1_encoding v) b)⟩
  · obtain ⟨hc, hseries⟩ := available_eq_some hb
    simp only [opensPage, Bool.or_eq_true, beq_iff_eq] at hp
    rcases hp with rfl | rfl
    · exact ⟨wellFormed_of_cellFits (hc ▸ eq_of_digitTable_eq hfit2 b) hseries,
        encode_of_cell hc (eq_of_digitTable_eq (page2_encoding v) b)⟩
    · exact ⟨wellFormed_of_cellFits (hc ▸ eq_of_digitTable_eq hfit3 b) hseries,
        encode_of_cell hc (eq_of_digitTable_eq (page3_encoding v) b)⟩

/-- Settles O2: what is decoded is a cell with values for its operands, and the cell agrees with the encoder. -/
theorem encodeInvertsDecode : Obligations.EncodeInvertsDecode := by
  intro series m x bs i rest h
  obtain ⟨head, e, he, v, hv, rfl, rfl⟩ := decode_eq_ok_iff.mp h
  obtain ⟨hwf, henc⟩ := encode_of_lookup he hv
  exact ⟨hwf, _, henc, rfl⟩

/-! ### Every well-formed instruction has a cell -/

/-- The maps have a code with an entry that makes the instruction, and the encoder writes that code. -/
def HasCode (series : Series) (m x : Bool) (i : Instr) : Prop :=
  ∃ head e, lookup series head = some e ∧ ∃ v : Fields, v.Fit m x ∧ instrOf e.shape v = i ∧
    encode i = some (head ++ operandBytes e.shape v)

section
variable {series : Series} {m x star : Bool} {i : Instr} {head : List Byte}

theorem hasCode_nothing (he : encode i = some head) (hl : lookup series head = some ⟨star, .nothing i⟩) :
    HasCode series m x i :=
  ⟨head, _, hl, Fields.zero m x, ⟨zeroImm_fits m, zeroImm_fits x⟩, rfl, by simpa [operandBytes] using he⟩

theorem hasCode_byte {f : Byte → Instr} {d : Byte} (he : encode i = some (head ++ [d]))
    (hl : lookup series head = some ⟨star, .byte f⟩) (hi : f d = i) : HasCode series m x i :=
  ⟨head, _, hl, { Fields.zero m x with byte := d }, ⟨zeroImm_fits m, zeroImm_fits x⟩, hi, he⟩

theorem hasCode_word {f : Word → Instr} {a : Word} (he : encode i = some (head ++ putWord a))
    (hl : lookup series head = some ⟨star, .word f⟩) (hi : f a = i) : HasCode series m x i :=
  ⟨head, _, hl, { Fields.zero m x with word := a }, ⟨zeroImm_fits m, zeroImm_fits x⟩, hi, he⟩

theorem hasCode_long {f : Addr → Instr} {a : Addr} (he : encode i = some (head ++ putAddr a))
    (hl : lookup series head = some ⟨star, .long f⟩) (hi : f a = i) : HasCode series m x i :=
  ⟨head, _, hl, { Fields.zero m x with long := a }, ⟨zeroImm_fits m, zeroImm_fits x⟩, hi, he⟩

theorem hasCode_two {f : Byte → Byte → Instr} {d c : Byte} (he : encode i = some (head ++ [d, c]))
    (hl : lookup series head = some ⟨star, .two f⟩) (hi : f d c = i) : HasCode series m x i :=
  ⟨head, _, hl, { Fields.zero m x with byte := d, last := c }, ⟨zeroImm_fits m, zeroImm_fits x⟩, hi, he⟩

theorem hasCode_immM {f : Imm → Instr} {v : Imm} (he : encode i = some (head ++ v.bytes))
    (hl : lookup series head = some ⟨star, .immM f⟩) (hi : f v = i) (hv : v.fits m = true) : HasCode series m x i :=
  ⟨head, _, hl, { Fields.zero m x with immM := v }, ⟨hv, zeroImm_fits x⟩, hi, he⟩

theorem hasCode_immX {f : Imm → Instr} {v : Imm} (he : encode i = some (head ++ v.bytes))
    (hl : lookup series head = some ⟨star, .immX f⟩) (hi : f v = i) (hv : v.fits x = true) : HasCode series m x i :=
  ⟨head, _, hl, { Fields.zero m x with immX := v }, ⟨zeroImm_fits m, hv⟩, hi, he⟩

theorem hasCode_byteImm {f : Byte → Imm → Instr} {d : Byte} {v : Imm} (he : encode i = some (head ++ d :: v.bytes))
    (hl : lookup series head = some ⟨star, .byteImm f⟩) (hi : f d v = i) (hv : v.fits m = true) :
    HasCode series m x i :=
  ⟨head, _, hl, { Fields.zero m x with byte := d, immM := v }, ⟨hv, zeroImm_fits x⟩, hi, he⟩

theorem hasCode_wordImm {f : Word → Imm → Instr} {a : Word} {v : Imm}
    (he : encode i = some (head ++ (putWord a ++ v.bytes)))
    (hl : lookup series head = some ⟨star, .wordImm f⟩) (hi : f a v = i) (hv : v.fits m = true) :
    HasCode series m x i :=
  ⟨head, _, hl, { Fields.zero m x with word := a, immM := v }, ⟨hv, zeroImm_fits x⟩, hi, he⟩

theorem hasCode_byteImmRel {f : Byte → Imm → Byte → Instr} {d rr : Byte} {v : Imm}
    (he : encode i = some (head ++ (d :: v.bytes ++ [rr])))
    (hl : lookup series head = some ⟨star, .byteImmRel f⟩) (hi : f d v rr = i) (hv : v.fits m = true) :
    HasCode series m x i :=
  ⟨head, _, hl, { Fields.zero m x with byte := d, immM := v, last := rr }, ⟨hv, zeroImm_fits x⟩, hi, he⟩

theorem hasCode_wordImmRel {f : Word → Imm → Byte → Instr} {a : Word} {rr : Byte} {v : Imm}
    (he : encode i = some (head ++ (putWord a ++ v.bytes ++ [rr])))
    (hl : lookup series head = some ⟨star, .wordImmRel f⟩) (hi : f a v rr = i) (hv : v.fits m = true) :
    HasCode series m x i :=
  ⟨head, _, hl, { Fields.zero m x with word := a, immM := v, last := rr }, ⟨hv, zeroImm_fits x⟩, hi, he⟩

/-- The format that a memory mode gives an instruction with no other operand. -/
def formatOf (mk : Mode → Instr) : Mode → Shape
  | .dir _ => .byte fun d => mk (.dir d)
  | .dirX _ => .byte fun d => mk (.dirX d)
  | .dirY _ => .byte fun d => mk (.dirY d)
  | .dInd _ => .byte fun d => mk (.dInd d)
  | .dXInd _ => .byte fun d => mk (.dXInd d)
  | .dIndY _ => .byte fun d => mk (.dIndY d)
  | .dIndL _ => .byte fun d => mk (.dIndL d)
  | .dIndLY _ => .byte fun d => mk (.dIndLY d)
  | .abs _ => .word fun a => mk (.abs a)
  | .absX _ => .word fun a => mk (.absX a)
  | .absY _ => .word fun a => mk (.absY a)
  | .abl _ => .long fun a => mk (.abl a)
  | .ablX _ => .long fun a => mk (.ablX a)
  | .sr _ => .byte fun d => mk (.sr d)
  | .srIndY _ => .byte fun d => mk (.srIndY d)

theorem hasCode_mode {mk : Mode → Instr} {mode : Mode} (he : encode (mk mode) = some (head ++ mode.bytes))
    (hl : lookup series head = some ⟨star, formatOf mk mode⟩) : HasCode series m x (mk mode) := by
  cases mode with
  | abs a | absX a | absY a => exact hasCode_word he hl rfl
  | abl a | ablX a => exact hasCode_long he hl rfl
  | _ => exact hasCode_byte he hl rfl

/-! #### The accumulator group (R135), the read-modify-write group (R262), the others with a memory mode -/

/-- The maps have the column pattern of R135 at a base code: the memory modes stand at their distances from it. -/
def HasColumn (series : Series) (head : List Byte) (c : Byte) (star : Bool) (mk : Mode → Instr) : Prop :=
  ∀ mode k, mode.accOffset = some k → lookup series (head ++ [c + k]) = some ⟨star, formatOf mk mode⟩

theorem hasCode_accMem {mk : Mode → Instr} {mode : Mode} {c : Byte} (he : encode (mk mode) = encAccMem head c mode)
    (hl : HasColumn series head c star mk)
    (hmode : mode.inAccGroup = true) : HasCode series m x (mk mode) := by
  have hk : ∃ k, mode.accOffset = some k := by
    cases mode with
    | dirY d => cases hmode
    | _ => exact ⟨_, rfl⟩
  obtain ⟨k, hk⟩ := hk
  refine hasCode_mode ?_ (hl mode k hk)
  rw [he, encAccMem, hk, List.append_assoc]
  rfl

theorem hasCode_acc {mk : Operand → Instr} {o : Operand} {c : Byte} (he : ∀ o, encode (mk o) = encAcc head c o)
    (hl : HasColumn series head c star fun mode => mk (.mem mode))
    (himm : lookup series (head ++ [c + 0x08#8]) = some ⟨star, .immM fun v => mk (.imm v)⟩)
    (ho : o.fits m Mode.inAccGroup = true) : HasCode series m x (mk o) := by
  cases o with
  | imm v => exact hasCode_immM (by rw [he, encAcc, List.append_assoc]; rfl) himm rfl ho
  | mem mode => exact hasCode_accMem (mk := fun mode => mk (.mem mode)) (he _) hl ho

theorem hasCode_rmw {mk : Target → Instr} {tg : Target} {accA accB : List Byte} {dir dirX abs absX : Byte}
    (he : ∀ t, encode (mk t) = encRmw accA accB head dir dirX abs absX t)
    (hA : lookup series accA = some ⟨star, .nothing (mk (.acc .a))⟩)
    (hB : lookup series accB = some ⟨star, .nothing (mk (.acc .b))⟩)
    (hdir : lookup series (head ++ [dir]) = some ⟨star, .byte fun d => mk (.mem (.dir d))⟩)
    (hdirX : lookup series (head ++ [dirX]) = some ⟨star, .byte fun d => mk (.mem (.dirX d))⟩)
    (habs : lookup series (head ++ [abs]) = some ⟨star, .word fun a => mk (.mem (.abs a))⟩)
    (habsX : lookup series (head ++ [absX]) = some ⟨star, .word fun a => mk (.mem (.absX a))⟩)
    (ht : tg.fits = true) : HasCode series m x (mk tg) := by
  match tg, ht with
  | .acc .a, _ => exact hasCode_nothing (he _) hA
  | .acc .b, _ => exact hasCode_nothing (he _) hB
  | .mem (.dir d), _ => exact hasCode_byte (by rw [he, List.append_assoc]; rfl) hdir rfl
  | .mem (.dirX d), _ => exact hasCode_byte (by rw [he, List.append_assoc]; rfl) hdirX rfl
  | .mem (.abs a), _ => exact hasCode_word (by rw [he, List.append_assoc]; rfl) habs rfl
  | .mem (.absX a), _ => exact hasCode_word (by rw [he, List.append_assoc]; rfl) habsX rfl

theorem hasCode_ldm {v : Imm} {mode : Mode} (hv : v.fits m = true) (hmode : mode.isRmw = true) :
    HasCode series m x (.ldm v mode) := by
  match mode, hmode with
  | .dir d, _ | .dirX d, _ => exact hasCode_byteImm (head := [_]) rfl rfl rfl hv
  | .abs a, _ | .absX a, _ => exact hasCode_wordImm (head := [_]) rfl rfl rfl hv

theorem hasCode_ldx {o : Operand} (ho : o.fits x Mode.isLdx = true) : HasCode series m x (.ldx o) := by
  match o, ho with
  | .imm v, hv => exact hasCode_immX (head := [_]) rfl rfl rfl hv
  | .mem (.dir d), _ | .mem (.dirY d), _ => exact hasCode_byte (head := [_]) rfl rfl rfl
  | .mem (.abs a), _ | .mem (.absY a), _ => exact hasCode_word (head := [_]) rfl rfl rfl

theorem hasCode_ldy {o : Operand} (ho : o.fits x Mode.isRmw = true) : HasCode series m x (.ldy o) := by
  match o, ho with
  | .imm v, hv => exact hasCode_immX (head := [_]) rfl rfl rfl hv
  | .mem (.dir d), _ | .mem (.dirX d), _ => exact hasCode_byte (head := [_]) rfl rfl rfl
  | .mem (.abs a), _ | .mem (.absX a), _ => exact hasCode_word (head := [_]) rfl rfl rfl

theorem hasCode_stx {mode : Mode} (hmode : mode.isStx = true) : HasCode series m x (.stx mode) := by
  match mode, hmode with
  | .dir d, _ | .dirY d, _ => exact hasCode_byte (head := [_]) rfl rfl rfl
  | .abs a, _ => exact hasCode_word (head := [_]) rfl rfl rfl

theorem hasCode_sty {mode : Mode} (hmode : mode.isSty = true) : HasCode series m x (.sty mode) := by
  match mode, hmode with
  | .dir d, _ | .dirX d, _ => exact hasCode_byte (head := [_]) rfl rfl rfl
  | .abs a, _ => exact hasCode_word (head := [_]) rfl rfl rfl

/-- CPX and CPY. -/
theorem hasCode_compare {mk : Operand → Instr} {o : Operand} {imm dir abs : Byte}
    (he : ∀ o, encode (mk o) = encCompare imm dir abs o)
    (himm : lookup series [imm] = some ⟨star, .immX fun v => mk (.imm v)⟩)
    (hdir : lookup series [dir] = some ⟨star, .byte fun d => mk (.mem (.dir d))⟩)
    (habs : lookup series [abs] = some ⟨star, .word fun a => mk (.mem (.abs a))⟩)
    (ho : o.fits x Mode.isDirAbs = true) : HasCode series m x (mk o) := by
  match o, ho with
  | .imm v, hv => exact hasCode_immX (he _) himm rfl hv
  | .mem (.dir d), _ => exact hasCode_byte (he _) hdir rfl
  | .mem (.abs a), _ => exact hasCode_word (he _) habs rfl

/-- CLB and SEB. -/
theorem hasCode_bit {mk : Imm → Mode → Instr} {v : Imm} {mode : Mode} {dir abs : Byte}
    (he : ∀ v mode, encode (mk v mode) = encBit dir abs v mode)
    (hdir : lookup series [dir] = some ⟨star, .byteImm fun d v => mk v (.dir d)⟩)
    (habs : lookup series [abs] = some ⟨star, .wordImm fun a v => mk v (.abs a)⟩)
    (hv : v.fits m = true) (hmode : mode.isDirAbs = true) : HasCode series m x (mk v mode) := by
  match mode, hmode with
  | .dir d, _ => exact hasCode_byteImm (he _ _) hdir rfl hv
  | .abs a, _ => exact hasCode_wordImm (he _ _) habs rfl hv

/-- BBC and BBS. -/
theorem hasCode_bitBranch {mk : Imm → Mode → Byte → Instr} {v : Imm} {mode : Mode} {rr dir abs : Byte}
    (he : ∀ v mode rr, encode (mk v mode rr) = (encBit dir abs v mode).map (· ++ [rr]))
    (hdir : lookup series [dir] = some ⟨star, .byteImmRel fun d v rr => mk v (.dir d) rr⟩)
    (habs : lookup series [abs] = some ⟨star, .wordImmRel fun a v rr => mk v (.abs a) rr⟩)
    (hv : v.fits m = true) (hmode : mode.isDirAbs = true) : HasCode series m x (mk v mode rr) := by
  match mode, hmode with
  | .dir d, _ => exact hasCode_byteImmRel (he _ _ _) hdir rfl hv
  | .abs a, _ => exact hasCode_wordImmRel (he _ _ _) habs rfl hv

theorem hasCode_jmp (j : Jump) : HasCode series m x (.jmp j) := by
  cases j with
  | abl a => exact hasCode_long (head := [_]) rfl rfl rfl
  | abs a | ind a | indL a | indX a => exact hasCode_word (head := [_]) rfl rfl rfl

theorem hasCode_jsr {j : Jump} (hj : j.isCall = true) : HasCode series m x (.jsr j) := by
  match j, hj with
  | .abl a, _ => exact hasCode_long (head := [_]) rfl rfl rfl
  | .abs a, _ | .indX a, _ => exact hasCode_word (head := [_]) rfl rfl rfl

theorem hasCode_bra (d : Disp) : HasCode series m x (.bra d) := by
  cases d with
  | short rr => exact hasCode_byte (head := [_]) rfl rfl rfl
  | long rr => exact hasCode_word (head := [_]) rfl rfl rfl

end

/-- Every well-formed instruction has a code in the maps: by the constructor of the instruction, and within it by the
operand.  The five of the 7750 Series have cells with a star. -/
theorem hasCode_of_wellFormed {series : Series} {m x : Bool} {i : Instr} (h : i.wellFormed series m x = true) :
    HasCode series m x i := by
  obtain ⟨hfit, hseries⟩ := wellFormed_iff.mp h
  cases i with
  -- the accumulator group
  | lda r o | adc r o | sbc r o | and r o | ora r o | eor r o | cmp r o =>
    cases r <;> exact hasCode_acc (o := o) (fun _ => rfl) (fun mode k hk => by cases mode <;> cases hk <;> rfl) rfl hfit
  | sta r mode =>
    cases r <;> exact hasCode_accMem (mode := mode) rfl (fun mode k hk => by cases mode <;> cases hk <;> rfl) hfit
  | mpy o | div o =>
    exact hasCode_acc (o := o) (fun _ => rfl) (fun mode k hk => by cases mode <;> cases hk <;> rfl) rfl hfit
  | mpys o | divs o =>
    cases hseries rfl
    exact hasCode_acc (o := o) (fun _ => rfl) (fun mode k hk => by cases mode <;> cases hk <;> rfl) rfl hfit
  -- the other instructions with a memory mode
  | inc tg | dec tg | asl tg | lsr tg | rol tg | ror tg =>
    exact hasCode_rmw (tg := tg) (fun _ => rfl) rfl rfl rfl rfl rfl rfl hfit
  | asr tg =>
    cases hseries rfl
    exact hasCode_rmw (tg := tg) (fun _ => rfl) rfl rfl rfl rfl rfl rfl hfit
  | ldm v mode =>
    obtain ⟨hv, hmode⟩ := (Bool.and_eq_true _ _).mp hfit
    exact hasCode_ldm hv hmode
  | ldx o => exact hasCode_ldx hfit
  | ldy o => exact hasCode_ldy hfit
  | stx mode => exact hasCode_stx hfit
  | sty mode => exact hasCode_sty hfit
  | cpx o | cpy o => exact hasCode_compare (o := o) (fun _ => rfl) rfl rfl rfl hfit
  | clb v mode | seb v mode =>
    obtain ⟨hv, hmode⟩ := (Bool.and_eq_true _ _).mp hfit
    exact hasCode_bit (v := v) (mode := mode) (fun _ _ => rfl) rfl rfl hv hmode
  | bbc v mode rr | bbs v mode rr =>
    obtain ⟨hv, hmode⟩ := (Bool.and_eq_true _ _).mp hfit
    exact hasCode_bitBranch (v := v) (mode := mode) (rr := rr) (fun _ _ _ => rfl) rfl rfl hv hmode
  -- the other instructions with operand bytes
  | jmp j => exact hasCode_jmp j
  | jsr j => exact hasCode_jsr hfit
  | bra d => exact hasCode_bra d
  | rla v => exact hasCode_immM (head := [_, _]) rfl rfl rfl hfit
  | ldt v => exact hasCode_byte (head := [_, _]) rfl rfl rfl
  | pea a | per a => exact hasCode_word (head := [_]) rfl rfl rfl
  | mvn d c | mvp d c => exact hasCode_two (head := [_]) rfl rfl rfl
  | psh d | pul d | pei d | clp d | sep d | brk d | bcc d | bcs d | bne d | beq d | bpl d | bmi d | bvc d | bvs d =>
    exact hasCode_byte (head := [_]) rfl rfl rfl
  -- the instructions without
  | exts r | extz r =>
    cases hseries rfl
    cases r <;> exact hasCode_nothing rfl rfl
  | _ => exact hasCode_nothing rfl rfl

section
open Laws Laws.EncodingLength

/-- R120: every encoding has 1 to 6 bytes, constructor by constructor. -/
theorem encode_within_six : ∀ i : Instr, Within 6 (encode i)
  | .lda r o => lda r o | .ldm v mode => ldm v mode | .ldt v => ldt v | .ldx o => ldx o | .ldy o => ldy o
  | .sta r mode => sta r mode | .stx mode => stx mode | .sty mode => sty mode | .tax => tax | .txa => txa
  | .tay => tay | .tya => tya | .tsx => tsx | .txs => txs | .tad => tad | .tas => tas | .tda => tda | .tsa => tsa
  | .tbd => tbd | .tdb => tdb | .tbs => tbs | .tsb => tsb | .tbx => tbx | .txb => txb | .tby => tby | .tyb => tyb
  | .txy => txy | .tyx => tyx | .psh mask => psh mask | .pul mask => pul mask | .pha => pha | .pla => pla
  | .php => php | .plp => plp | .phb => phb | .plb => plb | .phd => phd | .pld => pld | .pht => pht | .plt => plt
  | .phx => phx | .plx => plx | .phy => phy | .ply => ply | .phg => phg | .pea v => pea v | .pei dd => pei dd
  | .per v => per v | .mvn dst src => mvn dst src | .mvp dst src => mvp dst src | .xab => xab | .adc r o => adc r o
  | .sbc r o => sbc r o | .inc t => inc t | .dec t => dec t | .inx => inx | .dex => dex | .iny => iny | .dey => dey
  | .mpy o => mpy o | .mpys o => mpys o | .div o => div o | .divs o => divs o | .and r o => and r o
  | .ora r o => ora r o | .eor r o => eor r o | .cmp r o => cmp r o | .cpx o => cpx o | .cpy o => cpy o
  | .asl t => asl t | .asr t => asr t | .lsr t => lsr t | .rol t => rol t | .ror t => ror t | .rla n => rla n
  | .exts r => exts r | .extz r => extz r | .clb mask mode => clb mask mode | .seb mask mode => seb mask mode
  | .clp mask => clp mask | .sep mask => sep mask | .clc => clc | .sec => sec | .clm => clm | .sem => sem
  | .cli => cli | .sei => sei | .clv => clv | .jmp j => jmp j | .bra d => bra d | .jsr j => jsr j
  | .bbc mask mode rr => bbc mask mode rr | .bbs mask mode rr => bbs mask mode rr | .bcc rr => bcc rr
  | .bcs rr => bcs rr | .bne rr => bne rr | .beq rr => beq rr | .bpl rr => bpl rr | .bmi rr => bmi rr
  | .bvc rr => bvc rr | .bvs rr => bvs rr | .rti => rti | .rts => rts | .rtl => rtl | .brk nn => brk nn
  | .wit => wit | .stp => stp | .nop => nop

end

/-- Settles O1: the instruction has a code, the encoder writes it, and the decoder reads it with its operands. -/
theorem decodeInvertsEncode : Obligations.DecodeInvertsEncode := by
  intro series m x i rest h
  obtain ⟨head, e, he, v, hv, hi, henc⟩ := hasCode_of_wellFormed h
  obtain ⟨hmin, hmax⟩ := encode_within_six i _ henc
  exact ⟨_, henc, hmin, hmax, decode_eq_ok_iff.mpr ⟨head, e, he, v, hv, hi, rfl⟩⟩

/-! ### The codes that are no instruction -/

/-- Table 1 has a blank cell at 02 and at the two codes that open the other maps (R125, R130), on both series. -/
theorem page1_blank (series : Series) :
    digitTable (fun b => (entryAt series OpMap.page1 b).isNone) =
      digitTable fun b => b == 0x02#8 || opensPage b := by
  cases series <;> rfl

theorem lookup_one_eq_none_iff (series : Series) {b : Byte} (hb : opensPage b = false) :
    lookup series [b] = none ↔ b = 0x02#8 := by
  have h := eq_of_digitTable_eq (page1_blank series) b
  rw [hb, Bool.or_false] at h
  rw [← Option.isNone_iff_eq_none, lookup, if_neg (by simp [hb]), h, beq_iff_eq]

/-- Settles O4: the one-byte codes from the blank cells of Table 1; the two-byte codes by counting. -/
theorem undefinedCodesCounted : Obligations.UndefinedCodesCounted :=
  ⟨fun series _ hb => lookup_one_eq_none_iff series hb, rfl, rfl, rfl, rfl⟩

/-- An undefined code, which the fetch reads alone, is no instruction. -/
theorem runInstruction_undefined {s t : State} {head : List Byte} (hop : readOpcode s = (head, t))
    (hl : lookup s.chip.series head = none)
    (hd : decode s.chip.series (s.flag .m) (s.flag .x) head = .error .undefinedCode) :
    runInstruction s = .fault .undefinedOpcode := by
  simp only [runInstruction, readInstr, hop, hl, hd]

theorem runInstruction_undefined_one {s : State} (hg : gives s s.pcAddr) (hp : opensPage (s.byteAt s.pcAddr) = false)
    (hl : lookup s.chip.series [s.byteAt s.pcAddr] = none) : runInstruction s = .fault .undefinedOpcode := by
  have hop : readOpcode s = ([s.byteAt s.pcAddr], s) := by
    simp [readOpcode, readByte_gives _ s hg, hp]
  exact runInstruction_undefined hop hl (by simp only [decode, hp, hl, readOperands, Bool.false_eq_true, if_false])

theorem runInstruction_undefined_two {s : State} (hg : gives s s.pcAddr) (hg' : gives s (s.pcAddr + 1))
    (hp : opensPage (s.byteAt s.pcAddr) = true)
    (hl : lookup s.chip.series [s.byteAt s.pcAddr, s.byteAt (s.pcAddr + 1)] = none) :
    runInstruction s = .fault .undefinedOpcode := by
  have hop : readOpcode s = ([s.byteAt s.pcAddr, s.byteAt (s.pcAddr + 1)], s) := by
    simp only [readOpcode, readByte_gives _ s hg, readByte_gives _ s hg', hp, if_true]
  exact runInstruction_undefined hop hl (by simp only [decode, hp, hl, readOperands, if_true])

/-- Settles O6: the boundary moves neither the bytes nor `PG:PC`, the fetch reads the code, and the contract lets a
fault stand. -/
theorem undefinedCodeFaults : Obligations.UndefinedCodeFaults := by
  intro s hready hg hg' hcode
  obtain ⟨hchip, hpc, -, hbyte⟩ := boundary_keeps s
  simp only [← hchip, ← hpc, ← hbyte, ← gives_congr hchip] at hg hg' hcode
  have hfault : runInstruction (boundary s) = .fault .undefinedOpcode := by
    rcases hcode with ⟨hp, hl⟩ | ⟨hp, hl⟩
    · exact runInstruction_undefined_one hg hp hl
    · exact runInstruction_undefined_two hg (hg' hp) hp hl
  rw [step_of_readyToRun hready, hfault]
  rfl

/-- R128: what is done on a 7750 alone is a fault elsewhere, whatever it is. -/
theorem on7750_fault {s : State} (h : s.chip.series ≠ .s7750) (t : State) : on7750 s t = .fault .undefinedOpcode :=
  if_neg h

/-- Settles O52: each of the five is done on a 7750 alone, DIVS with a zero divisor and without. -/
theorem instructions7750Fault : Obligations.Instructions7750Fault := by
  intro o tg r s h
  have hfault := on7750_fault h
  refine ⟨hfault _, ?_, hfault _, hfault _, hfault _⟩
  rw [exec_divs, hfault, hfault, ite_self]

end Sys2Proof.Proofs

/-! Settles O22 to O28: loads, stores, transfers between registers and the exchange.  Each is one of a few updates of a
register at a width, whose result is stated once. -/

namespace Sys2Proof.Proofs

open Sys2Proof.Machine Sys2Proof.Safety

/-! ### Loads and stores -/

/-- Settles O22: reading the operand changes the bus record alone. -/
theorem ldaLoadsItsOperand : Obligations.LdaLoadsItsOperand := by
  intro r o s
  obtain ⟨b, hbus, -, hvalue⟩ := operand_view s.mWidth o s
  refine ⟨_, exec_lda s r o, ?_⟩
  rw [hbus, ← hvalue]
  exact loadAcc_spec s b _ r

/-- Settles O23, as O22. -/
theorem ldxLdyLoadTheirOperand : Obligations.LdxLdyLoadTheirOperand := by
  intro o s
  obtain ⟨b, hbus, -, hvalue⟩ := operand_view s.xWidth o s
  refine ⟨⟨_, exec_ldx s o, ?_⟩, ⟨_, exec_ldy s o, ?_⟩⟩
  · rw [hbus, ← hvalue]
    exact loadX_spec s b _
  · rw [hbus, ← hvalue]
    exact loadY_spec s b _

/-- Settles O24: all four store a datum at the effective address of a mode. -/
theorem storesWriteTheirDatum : Obligations.StoresWriteTheirDatum := by
  intro mode s
  exact ⟨fun r => ⟨_, rfl, storeMode_result _ mode (s.acc r) s⟩, ⟨_, rfl, storeMode_result _ mode s.x s⟩,
    ⟨_, rfl, storeMode_result _ mode s.y s⟩, fun v => ⟨_, rfl, storeMode_result _ mode (immValue v) s⟩⟩

/-! ### Transfers -/

section
variable (s : State) (v : Word)

/-- A register loaded from another one: no access, so that the bus record stays too. -/
theorem loadX_result : LoadsX (valueOf s.xWidth v) s (loadX v s) ∧ (loadX v s).bus = s.bus :=
  ⟨loadX_spec s s.bus v, rfl⟩

theorem loadY_result : LoadsY (valueOf s.xWidth v) s (loadY v s) ∧ (loadY v s).bus = s.bus :=
  ⟨loadY_spec s s.bus v, rfl⟩

theorem loadAcc_result (r : Acc) :
    LoadsAcc r (valueOf s.mWidth v) s (loadAcc r v s) ∧ (loadAcc r v s).bus = s.bus :=
  ⟨loadAcc_spec s s.bus v r, by cases r <;> rfl⟩

/-- From an index register the value is its low byte alone when x = 1, whatever m is (R181, R183). -/
theorem valueOf_indexX (w : Width) : valueOf w s.indexX = valueOf s.xWidth s.x % 2 ^ bitsOf w := by
  rw [valueOf, indexX_toNat]

theorem valueOf_indexY (w : Width) : valueOf w s.indexY = valueOf s.xWidth s.y % 2 ^ bitsOf w := by
  rw [valueOf, indexY_toNat]

/-- S and DPR are written whole, without a flag. -/
theorem setSp_result : Frame [.sp] [] nowhere s (s.setSp v) ∧ (s.setSp v).bus = s.bus :=
  ⟨frame_setSp v (by simp) (frame_refl _ _ _ s), rfl⟩

theorem setDpr_result : Frame [.dpr] [] nowhere s (s.setDpr v) ∧ (s.setDpr v).bus = s.bus :=
  ⟨frame_setDpr v (by simp) (frame_refl _ _ _ s), rfl⟩

end

/-- Settles O25: each loads X or Y with a register. -/
theorem transfersToIndex : Obligations.TransfersToIndex := by
  intro s
  exact ⟨⟨_, rfl, loadX_result s s.a⟩, ⟨_, rfl, loadX_result s s.b⟩, ⟨_, rfl, loadX_result s s.sp⟩,
    ⟨_, rfl, loadX_result s s.y⟩, ⟨_, rfl, loadY_result s s.a⟩, ⟨_, rfl, loadY_result s s.b⟩,
    ⟨_, rfl, loadY_result s s.x⟩⟩

/-- Settles O26: each loads an accumulator with an index value, DPR or S. -/
theorem transfersToAccumulator : Obligations.TransfersToAccumulator := by
  intro s
  rw [← valueOf_indexX, ← valueOf_indexY]
  exact ⟨⟨_, rfl, loadAcc_result s s.indexX .a⟩, ⟨_, rfl, loadAcc_result s s.indexX .b⟩,
    ⟨_, rfl, loadAcc_result s s.indexY .a⟩, ⟨_, rfl, loadAcc_result s s.indexY .b⟩,
    ⟨_, rfl, loadAcc_result s s.dpr .a⟩, ⟨_, rfl, loadAcc_result s s.dpr .b⟩,
    ⟨_, rfl, loadAcc_result s s.sp .a⟩, ⟨_, rfl, loadAcc_result s s.sp .b⟩⟩

/-- Settles O27: a register written whole. -/
theorem transfersToSpecialRegisters : Obligations.TransfersToSpecialRegisters := by
  intro s
  exact ⟨fun v => ⟨_, rfl, rfl, frame_setDt v (by simp) (frame_refl _ _ _ s), rfl⟩,
    ⟨_, rfl, indexX_toNat s, setSp_result s _⟩, ⟨_, rfl, rfl, setSp_result s _⟩, ⟨_, rfl, rfl, setSp_result s _⟩,
    ⟨_, rfl, rfl, setDpr_result s _⟩, ⟨_, rfl, rfl, setDpr_result s _⟩⟩

/-- Settles O28: B takes the A from before. -/
theorem xabExchanges : Obligations.XabExchanges := by
  intro s
  exact ⟨_, rfl, merge_written s.mWidth s.a s.b, merge_written s.mWidth s.b s.a, showsNZ_setNZ s.mWidth s.b _,
    frame_setNZ _ _ (by simp) (by simp) (frame_setB _ (by simp) (frame_setA _ (by simp) (frame_refl _ _ _ s))), rfl⟩

end Sys2Proof.Proofs

/-! Settles O29 to O32: pushes and pulls of one register, and PSH.  A push is a list of bytes pushed in order, so that
PSH is one such list; a pull moves S and gives the bytes above it. -/

namespace Sys2Proof.Proofs

open Sys2Proof.Machine Sys2Proof.Safety

/-! ### Pushes -/

/-- Settles O29: each pushes a register at its width, PS, or a word. -/
theorem pushInstructions : Obligations.PushInstructions := by
  intro s
  refine ⟨⟨_, rfl, pushW_result _ s.a s⟩, ⟨_, rfl, pushW_result _ s.b s⟩, ⟨_, rfl, pushW_result _ s.x s⟩,
    ⟨_, rfl, pushW_result _ s.y s⟩, ⟨_, rfl, push16_result s.dpr s⟩, ⟨_, rfl, push8_result s.dt s⟩,
    ⟨_, rfl, push8_result s.pg s⟩, ⟨_, rfl, pushAll_result [s.psh, s.psl] s (by simp)⟩,
    fun v => ⟨_, rfl, push16_result v s⟩, fun v => ⟨_, rfl, push16_result (s.pc + v) s⟩, fun d => ?_⟩
  obtain ⟨b, hb⟩ := read16_spec (s.directPage (zext24b d)) s
  refine ⟨_, (read16 (s.directPage (zext24b d)) s).1, exec_pei s d, ?_,
    fun h => congrArg Prod.fst (read16_gives _ s h)⟩
  rw [hb]
  exact push16_result _ (s.setBus b)

/-- The push of a masked register, where `f` are its bytes: what was pushed before it has not changed them, since a push
changes memory, the bus record and S alone. -/
theorem whenBit_pushAll (mask : Byte) (i : Nat) (f : State → List Byte)
    (hf : ∀ u m b sp, f (((u.setMem m).setBus b).setSp sp) = f u) (bs : List Byte) (s : State) :
    whenBit mask i (fun u => pushAll (f u) u) (pushAll bs s) =
      pushAll (bs ++ if mask.getLsbD i then f s else []) s := by
  have hkept : f (pushAll bs s) = f s := by
    induction bs generalizing s with
    | nil => rfl
    | cons v bs ih =>
      obtain ⟨m, b, h, -⟩ := push8_spec v s
      rw [pushAll, ih, h, hf]
  unfold whenBit
  split
  · rw [pushAll_append, ← hkept]
  · rw [List.append_nil]

/-- PSH is one list of pushes (R212). -/
theorem pushMany_eq (mask : Byte) (s : State) : pushMany mask s = pushAll (pshBytes mask s) s := by
  change whenBit mask 7 (fun u => pushAll [u.psh, u.psl] u) (whenBit mask 6 (fun u => pushAll [u.pg] u)
    (whenBit mask 5 (fun u => pushAll [u.dt] u) (whenBit mask 4 (fun u => pushAll (pushBytes .w16 u.dpr) u)
      (whenBit mask 3 (fun u => pushW u.xWidth u.y u) (whenBit mask 2 (fun u => pushW u.xWidth u.x u)
        (whenBit mask 1 (fun u => pushW u.mWidth u.b u)
          (whenBit mask 0 (fun u => pushW u.mWidth u.a u) (pushAll [] s)))))))) = _
  simp only [pushW_eq]
  iterate 8 rw [whenBit_pushAll _ _ _ fun _ _ _ _ => rfl]
  rfl

theorem length_pushBytes (w : Width) (v : Word) : (pushBytes w v).length = bytesIn w := by cases w <;> rfl

theorem bytesIn_le (w : Width) : bytesIn w ≤ 2 := by cases w <;> decide

/-- The bytes of a register whose bit may be 0. -/
theorem length_ite_bit (mask : Byte) (i : Nat) (bs : List Byte) :
    (if mask.getLsbD i then bs else []).length = ifBit mask i bs.length := by
  unfold ifBit
  split <;> rfl

theorem ifBit_le (mask : Byte) (i n : Nat) : ifBit mask i n ≤ n := by
  unfold ifBit
  split <;> omega

theorem length_pshBytes (mask : Byte) (s : State) :
    (pshBytes mask s).length = ifBit mask 0 (bytesIn s.mWidth) + ifBit mask 1 (bytesIn s.mWidth)
      + ifBit mask 2 (bytesIn s.xWidth) + ifBit mask 3 (bytesIn s.xWidth) + ifBit mask 4 2 + ifBit mask 5 1
      + ifBit mask 6 1 + ifBit mask 7 2 := by
  simp only [pshBytes, List.length_append, length_ite_bit, length_pushBytes, bytesIn, List.length_cons,
    List.length_nil]

/-- Fourteen bytes at most, which is far from a turn of S round bank 0. -/
theorem length_pshBytes_le (mask : Byte) (s : State) : (pshBytes mask s).length ≤ 14 := by
  have hm := bytesIn_le s.mWidth
  have hx := bytesIn_le s.xWidth
  have h0 := ifBit_le mask 0 (bytesIn s.mWidth)
  have h1 := ifBit_le mask 1 (bytesIn s.mWidth)
  have h2 := ifBit_le mask 2 (bytesIn s.xWidth)
  have h3 := ifBit_le mask 3 (bytesIn s.xWidth)
  have h4 := ifBit_le mask 4 2
  have h5 := ifBit_le mask 5 1
  have h6 := ifBit_le mask 6 1
  have h7 := ifBit_le mask 7 2
  rw [length_pshBytes]
  omega

/-- Settles O32. -/
theorem pshPushesMaskedRegisters : Obligations.PshPushesMaskedRegisters := by
  intro mask s
  have hlen := length_pshBytes_le mask s
  exact ⟨_, congrArg Host.Outcome.next (pushMany_eq mask s), pushAll_result _ s (by omega)⟩

/-! ### Pulls -/

theorem pullW_bytesIn (w : Width) (s : State) :
    ∃ b, (pullW w s).2 = (s.setSp (s.sp + BitVec.ofNat 16 (bytesIn w))).setBus b := by
  cases w with
  | w8 => exact pull8_spec s
  | w16 => exact pull16_spec s

/-- A pull at a width: the number pulled, and the state with S moved. -/
theorem pullW_view (w : Width) (s : State) :
    ∃ b, (pullW w s).2 = (s.setSp (s.sp + BitVec.ofNat 16 (bytesIn w))).setBus b ∧
      valueOf w (pullW w s).1 = (pullW w s).1.toNat ∧
      (givesStack (bytesIn w) s → (pullW w s).1.toNat = stackData w s 0) := by
  obtain ⟨b, hb⟩ := pullW_bytesIn w s
  exact ⟨b, hb, valueOf_of_lt w _ (pullW_lt w s), fun h => (pullW_gives w s h).1⟩

theorem valueOf_setWidth (v : Byte) : valueOf .w8 (v.setWidth 16) = v.toNat := by
  have := v.isLt
  rw [valueOf, BitVec.toNat_setWidth, bitsOf]
  omega

/-- S moved before an instruction that keeps it: the frame with S in it. -/
theorem frame_of_setSp {regs : List Reg} {flags : List Flag} {stored : Addr → Prop} {s t : State} {v : Word}
    (h : Frame regs flags stored (s.setSp v) t) : Frame (regs ++ [.sp]) flags stored s t := by
  obtain ⟨⟨hreg, hrest⟩, hflags⟩ := h
  refine ⟨⟨fun r hr => ?_, hrest⟩, hflags⟩
  rw [List.mem_append, not_or, List.mem_singleton] at hr
  obtain ⟨hr, hsp⟩ := hr
  rw [hreg r hr]
  cases r with
  | sp => exact absurd rfl hsp
  | _ => rfl

/-- A register loaded with a pulled number, where `load` is what loads it and `get` reads it. -/
theorem pull_load (s : State) (w : Width) (reg : Reg) (get : State → Word) (load : Word → State → State)
    (hreg : reg ≠ .sp)
    (hload : ∀ b sp v,
      WrittenAs w (get s) (get (load v ((s.setSp sp).setBus b))) (valueOf w v) ∧
        ShowsNZ w (valueOf w v) (load v ((s.setSp sp).setBus b)) ∧
        Frame [reg] [.n, .z] nowhere (s.setSp sp) (load v ((s.setSp sp).setBus b))) :
    ∃ n, (load (pullW w s).1 (pullW w s).2).sp = s.sp + BitVec.ofNat 16 (bytesIn w) ∧
      WrittenAs w (get s) (get (load (pullW w s).1 (pullW w s).2)) n ∧
      ShowsNZ w n (load (pullW w s).1 (pullW w s).2) ∧
      Frame [reg, .sp] [.n, .z] nowhere s (load (pullW w s).1 (pullW w s).2) ∧
      (givesStack (bytesIn w) s → n = stackData w s 0) := by
  obtain ⟨b, hb, hvalue, hdata⟩ := pullW_view w s
  obtain ⟨hwritten, hnz, hframe⟩ := hload b (s.sp + BitVec.ofNat 16 (bytesIn w)) (pullW w s).1
  rw [← hb] at hwritten hnz hframe
  refine ⟨_, ?_, hwritten, hnz, frame_of_setSp hframe, fun h => hvalue.trans (hdata h)⟩
  exact BitVec.eq_of_toNat_eq (hframe.1.1 .sp (by simpa using hreg.symm))

/-- Settles O30: each loads its register with the pulled number. -/
theorem pullsToRegisters : Obligations.PullsToRegisters := by
  intro s
  obtain ⟨na, ha⟩ := pull_load s s.mWidth .a State.a (loadAcc .a) (by decide)
    fun b sp v => loadAcc_spec (s.setSp sp) b v .a
  obtain ⟨nb, hb⟩ := pull_load s s.mWidth .b State.b (loadAcc .b) (by decide)
    fun b sp v => loadAcc_spec (s.setSp sp) b v .b
  obtain ⟨nx, hx⟩ := pull_load s s.xWidth .x State.x loadX (by decide) fun b sp v => loadX_spec (s.setSp sp) b v
  obtain ⟨ny, hy⟩ := pull_load s s.xWidth .y State.y loadY (by decide) fun b sp v => loadY_spec (s.setSp sp) b v
  exact ⟨⟨_, na, exec_pla s, ha⟩, ⟨_, nb, exec_plb s, hb⟩, ⟨_, nx, exec_plx s, hx⟩, ⟨_, ny, exec_ply s, hy⟩⟩

/-- Settles O31: DPR, DT and PS take what is pulled. -/
theorem pullsToSpecialRegisters : Obligations.PullsToSpecialRegisters := by
  intro s
  refine ⟨⟨_, rfl, ?_⟩, ⟨_, exec_plt s, ?_⟩, ⟨_, rfl, ?_⟩⟩
  · obtain ⟨b, hb⟩ := pull16_spec s
    rw [pullDpr_eq, hb]
    exact ⟨rfl, frame_setDpr _ (by simp) (frame_setBus b (frame_setSp _ (by simp) (frame_refl _ _ _ s))),
      fun h => (pullW_gives .w16 s h).1⟩
  · obtain ⟨b, hb⟩ := pull8_spec s
    rw [hb]
    refine ⟨rfl, frame_setNZ _ _ (by simp) (by simp) (frame_setDt _ (by simp) (frame_setBus b
      (frame_setSp _ (by simp) (frame_refl _ _ _ s)))), ?_, fun h => congrArg Prod.fst (pull8_gives s h)⟩
    have hnz := showsNZ_setNZ .w8 ((pull8 s).1.setWidth 16)
      (((s.setSp (s.sp + 1)).setBus b).setDt (pull8 s).1)
    rwa [valueOf_setWidth] at hnz
  · obtain ⟨b, hb⟩ := pullPs_spec s
    have hframe : KeepsAllBut [.sp] nowhere s (pullPs s) := by
      rw [hb]
      exact frame_setPs _ (frame_setBus b (frame_setSp (flags := []) _ (by simp) (frame_refl _ _ _ s))).1
    exact ⟨by rw [hb]; rfl, hframe, pullPs_gives s⟩

end Sys2Proof.Proofs

/-! Settles O33 and O34: PUL, and PUL after PSH.  What PUL has pulled so far is a number of bytes and the registers' new
contents (`pulled`), so that each part of PUL is one equation between two such states.  What PSH pushed is, read upward,
the list of its bytes from the last one to the first. -/

namespace Sys2Proof.Proofs

open Sys2Proof.Machine Sys2Proof.Safety

/-! ### The state after a part of PUL -/

/-- `s` with `j` bytes pulled and the registers that PUL can restore as given. -/
def pulled (s : State) (j : Nat) (bus : Bus) (ps : BitVec 11) (dt : Byte) (dpr y x b a : Word) : State :=
  { s with
    sp := s.sp + BitVec.ofNat 16 j, bus := bus, ps := ps, dt := dt, dpr := dpr, y := y, x := x, b := b, a := a }

/-- The widths of the index registers and of the accumulators by a PS. -/
def xWidthOf (ps : BitVec 11) : Width := widthOf (ps.getLsbD (flagBit .x))
def mWidthOf (ps : BitVec 11) : Width := widthOf (ps.getLsbD (flagBit .m))

theorem pulled_zero (s : State) : pulled s 0 s.bus s.ps s.dt s.dpr s.y s.x s.b s.a = s := by
  simp only [pulled, BitVec.add_zero]

section
variable {s : State} {j n : Nat} {bus : Bus} {ps : BitVec 11} {dt : Byte} {dpr y x b a : Word}

/-- Only S, the bus record and the registers that PUL can restore are new. -/
theorem pulled_keeps :
    KeepsAllBut [.a, .b, .x, .y, .dpr, .dt, .sp] nowhere s (pulled s j bus ps dt dpr y x b a) := by
  refine ⟨fun q hq => ?_, fun _ _ => rfl, rfl, rfl, rfl⟩
  cases q with
  | pc => rfl
  | pg => rfl
  | _ => exact absurd (by simp) hq

/-- `n` bytes more. -/
theorem pulled_setSp (c : Bus) :
    ((pulled s j bus ps dt dpr y x b a).setSp ((pulled s j bus ps dt dpr y x b a).sp + BitVec.ofNat 16 n)).setBus c =
      pulled s (j + n) c ps dt dpr y x b a := by
  have hsp : (pulled s j bus ps dt dpr y x b a).sp + BitVec.ofNat 16 n = s.sp + BitVec.ofNat 16 (j + n) := by
    rw [BitVec.ofNat_add, ← BitVec.add_assoc]
    rfl
  rw [hsp]
  rfl

theorem givesStack_pulled (h : givesStack (j + n) s) : givesStack n (pulled s j bus ps dt dpr y x b a) :=
  givesStack_setSp j h

theorem stackByte_pulled (k : Nat) : stackByte (pulled s j bus ps dt dpr y x b a) k = stackByte s (j + k) :=
  stackByte_setSp s j k

theorem stackData_pulled (w : Width) : stackData w (pulled s j bus ps dt dpr y x b a) 0 = stackData w s j := by
  cases w <;> simp only [stackData, stackByte_pulled, Nat.zero_add, Nat.add_zero]

theorem pulBytes_pulled (mask : Byte) :
    pulBytes mask (pulled s j bus ps dt dpr y x b a) = ifBit mask 7 2 + ifBit mask 5 1 + ifBit mask 4 2
      + ifBit mask 3 (bytesIn (xWidthOf ps)) + ifBit mask 2 (bytesIn (xWidthOf ps))
      + ifBit mask 1 (bytesIn (mWidthOf ps)) + ifBit mask 0 (bytesIn (mWidthOf ps)) := rfl

end

/-! ### The parts of PUL -/

/-- A part of PUL, done if the bit is 1, where `put` is the state with so many bytes pulled and a value in the register
that the part is for. -/
theorem whenBit_pull {α : Type} {mask : Byte} {i j n : Nat} {s : State} {f : State → State} {bus : Bus} {old : α}
    {P : α → Prop} (put : Nat → Bus → α → State)
    (hf : ∃ c v, f (put j bus old) = put (j + n) c v ∧ (givesStack (j + n) s → P v)) :
    ∃ c v, whenBit mask i f (put j bus old) = put (j + ifBit mask i n) c v ∧
      (mask.getLsbD i = false → v = old) ∧
      (mask.getLsbD i = true → givesStack (j + ifBit mask i n) s → P v) := by
  unfold whenBit ifBit
  cases hbit : mask.getLsbD i with
  | true =>
    obtain ⟨c, v, hv, hP⟩ := hf
    exact ⟨c, v, hv, by simp, fun _ => hP⟩
  | false => exact ⟨bus, old, rfl, fun _ => rfl, by simp⟩

/-- A part for a register with a width, where `old` is what the register holds. -/
theorem whenBit_pullReg {mask : Byte} {i j : Nat} {s : State} {w : Width} {f : State → State} {bus : Bus} {old : Word}
    {ps : BitVec 11} {dt : Byte} {dpr y x b a : Word} (put : Nat → Bus → Word → State)
    (hold : ∀ k c, put k c old = pulled s k c ps dt dpr y x b a)
    (hf : ∀ c, (pullW w (put j bus old)).2 = put (j + bytesIn w) c old →
      f (put j bus old) = put (j + bytesIn w) c (merge w old (pullW w (put j bus old)).1)) :
    ∃ c v, whenBit mask i f (put j bus old) = put (j + ifBit mask i (bytesIn w)) c v ∧
      (mask.getLsbD i = false → v = old) ∧
      (mask.getLsbD i = true → givesStack (j + ifBit mask i (bytesIn w)) s →
        WrittenAs w old v (stackData w s j)) := by
  obtain ⟨c, hc, -, hdata⟩ := pullW_view w (put j bus old)
  rw [hold, pulled_setSp, ← hold, ← hold] at hc
  refine whenBit_pull put ⟨c, _, hf c hc, fun hg => ?_⟩
  have hdata := hdata (hold j bus ▸ givesStack_pulled hg)
  rw [hold j bus, stackData_pulled, ← hold j bus] at hdata
  rw [← hdata]
  exact merge_written_lt w old _ (pullW_lt w _)

/-- A PS whose flags are the next stack byte and whose IPL is in the one above it. -/
def PsFromStack (s : State) (ps : BitVec 11) : Prop :=
  (∀ f, ps.getLsbD (flagBit f) = (stackByte s 0).getLsbD (flagBit f)) ∧
    ps.extractLsb' 8 3 = (stackByte s 1).extractLsb' 0 3

/-- PS is pulled first. -/
theorem whenBit_pullPs (mask : Byte) (s : State) :
    ∃ c ps, whenBit mask 7 pullPs s = pulled s (ifBit mask 7 2) c ps s.dt s.dpr s.y s.x s.b s.a ∧
      (mask.getLsbD 7 = false → ps = s.ps) ∧
      (mask.getLsbD 7 = true → givesStack (ifBit mask 7 2) s → PsFromStack s ps) := by
  obtain ⟨c, hc⟩ := pullPs_spec s
  have hpart := whenBit_pull (mask := mask) (i := 7) (j := 0) (n := 2) (s := s) (f := pullPs) (bus := s.bus)
    (old := s.ps) (P := PsFromStack s) (fun k c ps => pulled s k c ps s.dt s.dpr s.y s.x s.b s.a)
    ⟨c, (pullPs s).ps, by rw [pulled_zero]; exact hc, fun hg => pullPs_gives s (givesStack_mono hg (by simp))⟩
  simpa only [Nat.zero_add, pulled_zero] using hpart

section
variable (mask : Byte) {s u : State} {j : Nat} {bus : Bus} {ps : BitVec 11} {dt : Byte} {dpr y x b a : Word}
variable (hu : u = pulled s j bus ps dt dpr y x b a)
include hu

theorem whenBit_pullDt :
    ∃ c v, whenBit mask 5 pullDt u = pulled s (j + ifBit mask 5 1) c ps v dpr y x b a ∧
      (mask.getLsbD 5 = false → v = dt) ∧
      (mask.getLsbD 5 = true → givesStack (j + ifBit mask 5 1) s → v = stackByte s j) := by
  subst hu
  obtain ⟨c, hc⟩ := pull8_spec (pulled s j bus ps dt dpr y x b a)
  refine whenBit_pull (fun k c v => pulled s k c ps v dpr y x b a) ⟨c, (pull8 (pulled s j bus ps dt dpr y x b a)).1,
    congrArg (State.setDt · _) (hc.trans (pulled_setSp c)), fun hg => ?_⟩
  rw [pull8_gives _ (givesStack_pulled hg), stackByte_pulled, Nat.add_zero]

theorem whenBit_pullDpr :
    ∃ c v, whenBit mask 4 pullDpr u = pulled s (j + ifBit mask 4 2) c ps dt v y x b a ∧
      (mask.getLsbD 4 = false → v = dpr) ∧
      (mask.getLsbD 4 = true → givesStack (j + ifBit mask 4 2) s → v.toNat = stackData .w16 s j) := by
  subst hu
  obtain ⟨c, hc⟩ := pull16_spec (pulled s j bus ps dt dpr y x b a)
  refine whenBit_pull (fun k c v => pulled s k c ps dt v y x b a) ⟨c, _,
    congrArg (State.setDpr · _) (hc.trans (pulled_setSp c)), fun hg => ?_⟩
  exact (pullW_gives .w16 _ (givesStack_pulled hg)).1.trans (stackData_pulled .w16)

theorem whenBit_pullY :
    ∃ c v, whenBit mask 3 pullY u = pulled s (j + ifBit mask 3 (bytesIn (xWidthOf ps))) c ps dt dpr v x b a ∧
      (mask.getLsbD 3 = false → v = y) ∧
      (mask.getLsbD 3 = true → givesStack (j + ifBit mask 3 (bytesIn (xWidthOf ps))) s →
        WrittenAs (xWidthOf ps) y v (stackData (xWidthOf ps) s j)) := by
  subst hu
  exact whenBit_pullReg (fun k c v => pulled s k c ps dt dpr v x b a) (fun _ _ => rfl)
    fun c hc => congrArg (State.writeY · _ _) hc

theorem whenBit_pullX :
    ∃ c v, whenBit mask 2 pullX u = pulled s (j + ifBit mask 2 (bytesIn (xWidthOf ps))) c ps dt dpr y v b a ∧
      (mask.getLsbD 2 = false → v = x) ∧
      (mask.getLsbD 2 = true → givesStack (j + ifBit mask 2 (bytesIn (xWidthOf ps))) s →
        WrittenAs (xWidthOf ps) x v (stackData (xWidthOf ps) s j)) := by
  subst hu
  exact whenBit_pullReg (fun k c v => pulled s k c ps dt dpr y v b a) (fun _ _ => rfl)
    fun c hc => congrArg (State.writeX · _ _) hc

theorem whenBit_pullB :
    ∃ c v, whenBit mask 1 (pullAcc .b) u = pulled s (j + ifBit mask 1 (bytesIn (mWidthOf ps))) c ps dt dpr y x v a ∧
      (mask.getLsbD 1 = false → v = b) ∧
      (mask.getLsbD 1 = true → givesStack (j + ifBit mask 1 (bytesIn (mWidthOf ps))) s →
        WrittenAs (mWidthOf ps) b v (stackData (mWidthOf ps) s j)) := by
  subst hu
  exact whenBit_pullReg (fun k c v => pulled s k c ps dt dpr y x v a) (fun _ _ => rfl)
    fun c hc => congrArg (State.writeAcc · _ .b _) hc

theorem whenBit_pullA :
    ∃ c v, whenBit mask 0 (pullAcc .a) u = pulled s (j + ifBit mask 0 (bytesIn (mWidthOf ps))) c ps dt dpr y x b v ∧
      (mask.getLsbD 0 = false → v = a) ∧
      (mask.getLsbD 0 = true → givesStack (j + ifBit mask 0 (bytesIn (mWidthOf ps))) s →
        WrittenAs (mWidthOf ps) a v (stackData (mWidthOf ps) s j)) := by
  subst hu
  exact whenBit_pullReg (fun k c v => pulled s k c ps dt dpr y x b v) (fun _ _ => rfl)
    fun c hc => congrArg (State.writeAcc · _ .a _) hc

end

/-- Settles O33: part by part, each at the offset that the parts before it have reached. -/
theorem pulRestoresMaskedRegisters : Obligations.PulRestoresMaskedRegisters := by
  intro mask s
  obtain ⟨c7, ps, e7, keep7, hps⟩ := whenBit_pullPs mask s
  obtain ⟨c5, dt, e5, keep5, hdt⟩ := whenBit_pullDt mask e7
  obtain ⟨c4, dpr, e4, keep4, hdpr⟩ := whenBit_pullDpr mask e5
  obtain ⟨c3, y, e3, keep3, hy⟩ := whenBit_pullY mask e4
  obtain ⟨c2, x, e2, keep2, hx⟩ := whenBit_pullX mask e3
  obtain ⟨c1, b, e1, keep1, hb⟩ := whenBit_pullB mask e2
  obtain ⟨c0, a, e0, keep0, ha⟩ := whenBit_pullA mask e1
  refine ⟨_, congrArg Host.Outcome.next e0, pulled_keeps, keep7, keep5, keep4, keep3, keep2, keep1, keep0, rfl,
    fun hg => ?_⟩
  rw [pulBytes_pulled] at hg
  exact ⟨fun h => hps h (givesStack_mono hg (by omega)), fun h => hdt h (givesStack_mono hg (by omega)),
    fun h => hdpr h (givesStack_mono hg (by omega)), fun h => hy h (givesStack_mono hg (by omega)),
    fun h => hx h (givesStack_mono hg (by omega)), fun h => hb h (givesStack_mono hg (by omega)),
    fun h => ha h hg⟩

/-! ### PUL after PSH -/

/-- The bytes of a list stand on the stack, upward from the one `j` above the next to be pulled. -/
def HeldFrom (j : Nat) (bs : List Byte) (v : State) : Prop := ∀ k b, bs[k]? = some b → stackByte v (j + k) = b

theorem heldFrom_append {j : Nat} {xs ys : List Byte} {v : State} :
    HeldFrom j (xs ++ ys) v ↔ HeldFrom j xs v ∧ HeldFrom (j + xs.length) ys v := by
  refine ⟨fun h => ⟨fun k b hk => h k b ?_, fun k b hk => ?_⟩, fun ⟨hx, hy⟩ k b hk => ?_⟩
  · rw [List.getElem?_append_left (List.getElem?_eq_some_iff.mp hk).1, hk]
  · rw [Nat.add_assoc]
    exact h (xs.length + k) b (by rw [List.getElem?_append_right (by omega), Nat.add_sub_cancel_left, hk])
  · rcases Nat.lt_or_ge k xs.length with hlt | hge
    · rw [List.getElem?_append_left hlt] at hk
      exact hx k b hk
    · rw [List.getElem?_append_right hge] at hk
      have := hy (k - xs.length) b hk
      rwa [Nat.add_assoc, Nat.add_sub_cancel' hge] at this

/-- A pushed register is pulled as the number that it held. -/
theorem stackData_of_heldFrom {c : Bool} {j : Nat} {w : Width} {r : Word} {v : State}
    (h : HeldFrom j (if c then (pushBytes w r).reverse else []) v) (hc : c = true) : stackData w v j = valueOf w r := by
  rw [if_pos hc] at h
  have hlo : (loByte r).toNat = r.toNat % 256 := by simp [loByte]
  have h0 : stackByte v j = loByte r := h 0 (loByte r) (by cases w <;> rfl)
  have hr := r.isLt
  cases w with
  | w8 => simp only [stackData, h0, hlo, valueOf, bitsOf, Nat.reducePow]
  | w16 =>
    have hhi : (hiByte r).toNat = r.toNat / 256 := by
      rw [hiByte, BitVec.extractLsb'_toNat, Nat.shiftRight_eq_div_pow]
      omega
    have h1 : stackByte v (j + 1) = hiByte r := h 1 (hiByte r) rfl
    simp only [stackData, h0, h1, hlo, hhi, valueOf, bitsOf]
    omega

/-- The `k`-th byte above S, after `n` pushes, is the one that the push `n - 1 - k` stored. -/
theorem sub_add_ofNat (sp : Word) {n k : Nat} (h : k < n) :
    sp - BitVec.ofNat 16 n + BitVec.ofNat 16 (k + 1) = sp - BitVec.ofNat 16 (n - 1 - k) := by
  apply BitVec.eq_of_toNat_eq
  simp only [BitVec.toNat_add, BitVec.toNat_sub, BitVec.toNat_ofNat]
  have := sp.isLt
  omega

section
variable {bs : List Byte} {s u v : State} (hsp : v.sp = s.sp - BitVec.ofNat 16 bs.length)
  (hram : ∀ k, k < bs.length → s.kindAt (mkAddr 0#8 (s.sp - BitVec.ofNat 16 k)) = .ram)
include hsp hram

theorem givesStack_of_pushed (hchip : v.chip = s.chip) : givesStack bs.length v := by
  intro k hk
  rw [hsp, sub_add_ofNat s.sp hk, gives_congr hchip]
  exact gives_ram (hram _ (by omega)) (addrBank_bank0 _)

/-- What has been pushed to RAM stands above S, the last byte lowest. -/
theorem heldFrom_of_pushed (hu : Pushed bs s u)
    (hbyte : ∀ k, k < bs.length → v.byteAt (mkAddr 0#8 (s.sp - BitVec.ofNat 16 k)) =
      u.byteAt (mkAddr 0#8 (s.sp - BitVec.ofNat 16 k))) : HeldFrom 0 bs.reverse v := by
  obtain ⟨-, hstored⟩ := hu
  intro k b hk
  have hlt : k < bs.length := by simpa using (List.getElem?_eq_some_iff.mp hk).1
  rw [List.getElem?_reverse hlt] at hk
  have hb := hstored _ b hk
  rw [StoredAt, if_pos (hram _ (by omega))] at hb
  rw [stackByte, Nat.zero_add, hsp, sub_add_ofNat s.sp hlt, hbyte _ (by omega), hb]

end

/-- The bytes of PSH from the last one to the first, in the order of PUL, where bit 6 is 0. -/
theorem reverse_pshBytes {mask : Byte} (h6 : mask.getLsbD 6 = false) (s : State) :
    (pshBytes mask s).reverse = (if mask.getLsbD 7 then [s.psl, s.psh] else [])
      ++ (if mask.getLsbD 5 then [s.dt] else [])
      ++ (if mask.getLsbD 4 then (pushBytes .w16 s.dpr).reverse else [])
      ++ (if mask.getLsbD 3 then (pushBytes s.xWidth s.y).reverse else [])
      ++ (if mask.getLsbD 2 then (pushBytes s.xWidth s.x).reverse else [])
      ++ (if mask.getLsbD 1 then (pushBytes s.mWidth s.b).reverse else [])
      ++ (if mask.getLsbD 0 then (pushBytes s.mWidth s.a).reverse else []) := by
  have hrev : ∀ (c : Bool) (bs : List Byte), (if c then bs else []).reverse = if c then bs.reverse else [] := by
    intro c bs
    cases c <;> rfl
  simp only [pshBytes, List.reverse_append, hrev, h6, List.append_assoc, Bool.false_eq_true, if_false, List.nil_append]
  rfl

/-- PS is its flags and its IPL. -/
theorem ps_eq_of_flags {p q : BitVec 11} (hflag : ∀ f, p.getLsbD (flagBit f) = q.getLsbD (flagBit f))
    (hipl : p.extractLsb' 8 3 = q.extractLsb' 8 3) : p = q := by
  apply BitVec.eq_of_getLsbD_eq
  intro i hi
  have hhigh : ∀ k, k < 3 → p.getLsbD (8 + k) = q.getLsbD (8 + k) := by
    intro k hk
    have := congrArg (BitVec.getLsbD · k) hipl
    simpa [BitVec.getLsbD_extractLsb', hk] using this
  interval_cases i
  · exact hflag .c
  · exact hflag .z
  · exact hflag .i
  · exact hflag .d
  · exact hflag .x
  · exact hflag .m
  · exact hflag .v
  · exact hflag .n
  · exact hhigh 0 (by omega)
  · exact hhigh 1 (by omega)
  · exact hhigh 2 (by omega)

/-- IPL is in the low bits of the PSH that is pushed (R35). -/
theorem extractLsb'_psh (s : State) : s.psh.extractLsb' 0 3 = s.ipl := by
  apply BitVec.eq_of_getLsbD_eq
  intro i hi
  simp only [State.psh, BitVec.getLsbD_extractLsb', BitVec.getLsbD_setWidth, Nat.zero_add, hi, decide_true,
    Bool.true_and]
  simp only [show i < 8 by omega, decide_true, Bool.true_and]

theorem ps_of_heldFrom {s v : State} {ps : BitVec 11} (hheld : HeldFrom 0 [s.psl, s.psh] v) (hps : PsFromStack v ps) :
    ps = s.ps := by
  obtain ⟨hflag, hipl⟩ := hps
  have h0 : stackByte v 0 = s.psl := hheld 0 _ rfl
  have h1 : stackByte v 1 = s.psh := hheld 1 _ rfl
  refine ps_eq_of_flags (fun f => ?_) ?_
  · rw [hflag, h0]
    exact psl_getLsbD s f
  · rw [hipl, h1, extractLsb'_psh]
    rfl

/-- PS after PUL is what its first part has left. -/
theorem pullMany_ps (mask : Byte) (s : State) : (pullMany mask s).ps = (whenBit mask 7 pullPs s).ps := by
  obtain ⟨_, _, e7, -⟩ := whenBit_pullPs mask s
  obtain ⟨_, _, e5, -⟩ := whenBit_pullDt mask e7
  obtain ⟨_, _, e4, -⟩ := whenBit_pullDpr mask e5
  obtain ⟨_, _, e3, -⟩ := whenBit_pullY mask e4
  obtain ⟨_, _, e2, -⟩ := whenBit_pullX mask e3
  obtain ⟨_, _, e1, -⟩ := whenBit_pullB mask e2
  obtain ⟨_, _, e0, -⟩ := whenBit_pullA mask e1
  exact (congrArg State.ps e0).trans (congrArg State.ps e7).symm

theorem pulBytes_eq_length {mask : Byte} {s t : State} (h6 : mask.getLsbD 6 = false) (hm : t.mWidth = s.mWidth)
    (hx : t.xWidth = s.xWidth) : pulBytes mask t = (pshBytes mask s).length := by
  have hbit6 : ifBit mask 6 1 = 0 := by simp only [ifBit, h6, Bool.false_eq_true, if_false]
  rw [length_pshBytes, pulBytes, hm, hx, hbit6]
  omega

theorem widths_of_ps {s t : State} (h : t.ps = s.ps) : t.mWidth = s.mWidth ∧ t.xWidth = s.xWidth := by
  simp only [State.mWidth, State.xWidth, State.flag, h, and_self]

/-- Settles O34: PSH leaves above S what PUL pulls, first PS, which brings back the widths, then the others at them. -/
theorem pulUndoesPsh : Obligations.PulUndoesPsh := by
  intro mask s u v t h6 hram14 hpsh hsp hchip hbyte hwidths hpul
  obtain ⟨u', hu', hpushed, ⟨-, -, -, huchip, -⟩, -⟩ := pshPushesMaskedRegisters mask s
  obtain rfl : u' = u := Host.Outcome.next.inj (hu'.symm.trans hpsh)
  obtain ⟨t', ht', -, keep7, -, -, -, -, -, -, htsp, hrestored⟩ := pulRestoresMaskedRegisters mask v
  obtain rfl : t' = t := Host.Outcome.next.inj (ht'.symm.trans hpul)
  have hlen := length_pshBytes_le mask s
  have hvsp := hsp.trans hpushed.1
  have hram : ∀ k, k < (pshBytes mask s).length → s.kindAt (mkAddr 0#8 (s.sp - BitVec.ofNat 16 k)) = .ram :=
    fun k hk => hram14 k (by omega)
  have hgives := givesStack_of_pushed hvsp hram (hchip.trans huchip)
  have hheld := heldFrom_of_pushed hvsp hram hpushed fun k hk => hbyte _ ⟨k, by omega, rfl⟩
  simp only [reverse_pshBytes h6, heldFrom_append, List.length_append, length_ite_bit, List.length_reverse,
    length_pushBytes, List.length_cons, List.length_nil, Nat.zero_add, bytesIn] at hheld
  obtain ⟨⟨⟨⟨⟨⟨held7, held5⟩, held4⟩, held3⟩, held2⟩, held1⟩, held0⟩ := hheld
  have hps : mask.getLsbD 7 = true → t'.ps = s.ps := by
    intro h
    obtain ⟨c, ps, e7, -, hfrom⟩ := whenBit_pullPs mask v
    have htps : t'.ps = ps := by rw [← Host.Outcome.next.inj hpul, pullMany_ps, e7]; rfl
    rw [htps]
    rw [if_pos h] at held7
    exact ps_of_heldFrom held7 (hfrom h (givesStack_mono hgives (by rw [length_pshBytes]; omega)))
  obtain ⟨hm, hx⟩ : t'.mWidth = s.mWidth ∧ t'.xWidth = s.xWidth := by
    cases h : mask.getLsbD 7 with
    | true => exact widths_of_ps (hps h)
    | false =>
      obtain ⟨hvm, hvx⟩ := widths_of_ps (keep7 h)
      exact ⟨hvm.trans (hwidths h).1, hvx.trans (hwidths h).2⟩
  rw [pulBytes_eq_length h6 hm hx] at htsp hrestored
  rw [hm, hx] at hrestored
  obtain ⟨-, hdt, hdpr, hyreg, hxreg, hb, ha⟩ := hrestored hgives
  refine ⟨?_, hps, fun h => ?_, fun h => ?_, fun h => ?_, fun h => ?_, fun h => ?_, fun h => ?_⟩
  · rw [htsp, hvsp, BitVec.sub_add_cancel]
  · rw [if_pos h] at held5
    exact (hdt h).trans (held5 0 _ rfl)
  · have hdata := stackData_of_heldFrom held4 h
    exact BitVec.eq_of_toNat_eq ((hdpr h).trans (hdata.trans (valueOf_of_lt .w16 _ s.dpr.isLt)))
  · exact (hyreg h).1.trans (stackData_of_heldFrom held3 h)
  · exact (hxreg h).1.trans (stackData_of_heldFrom held2 h)
  · exact (hb h).1.trans (stackData_of_heldFrom held1 h)
  · exact (ha h).1.trans (stackData_of_heldFrom held0 h)

end Sys2Proof.Proofs

/-! Settles O35 and O36: the block transfers.  A transfer is a copy of bytes from one row of addresses to another, one
or two at a time; copies one after the other make one copy as long as none writes on a byte that a later one reads
(`Movable`).  The offsets reached are sums modulo 2^W, a step down being a step of 65535 up. -/

namespace Sys2Proof.Proofs

open Sys2Proof.Machine Sys2Proof.Safety

/-! ### Copies -/

/-- From `s` to `t` the `n` bytes at `f 0`, `f 1` and so on go to `g 0`, `g 1` and so on, and no other byte changes. -/
def Copies (n : Nat) (f g : Nat → Addr) (s t : State) : Prop :=
  (∀ k, k < n → t.byteAt (g k) = s.byteAt (f k)) ∧ ∀ p, (∀ k, k < n → p ≠ g k) → t.byteAt p = s.byteAt p

/-- The bytes can be copied in this order: each source byte reads as memory holds it, each destination byte is RAM, and
none of these is written twice or is a source byte still to be read. -/
structure Movable (n : Nat) (f g : Nat → Addr) (s : State) : Prop where
  gives : ∀ k, k < n → gives s (f k)
  ram : ∀ k, k < n → s.kindAt (g k) = .ram
  ahead : ∀ j k, j < k → k < n → f k ≠ g j
  apart : ∀ j k, j < k → k < n → g k ≠ g j

section
variable {c n : Nat} {f g : Nat → Addr} {s t u : State}

/-- The first `c` bytes. -/
theorem Movable.first (h : Movable (n + c) f g s) : Movable c f g s where
  gives k hk := h.gives k (by omega)
  ram k hk := h.ram k (by omega)
  ahead j k hjk hk := h.ahead j k hjk (by omega)
  apart j k hjk hk := h.apart j k hjk (by omega)

/-- The bytes after them, in a state of the same chip. -/
theorem Movable.rest (h : Movable (n + c) f g s) (hchip : t.chip = s.chip) :
    Movable n (fun k => f (c + k)) (fun k => g (c + k)) t where
  gives k hk := (gives_congr hchip _).mpr (h.gives _ (by omega))
  ram k hk := by
    have hk := h.ram (c + k) (by omega)
    rwa [State.kindAt, ← hchip] at hk
  ahead j k hjk hk := h.ahead _ _ (by omega) (by omega)
  apart j k hjk hk := h.apart _ _ (by omega) (by omega)

theorem copies_append (h : Movable (n + c) f g s) (hfirst : Copies c f g s t)
    (hrest : Copies n (fun k => f (c + k)) (fun k => g (c + k)) t u) : Copies (n + c) f g s u := by
  obtain ⟨hin, hout⟩ := hfirst
  obtain ⟨hin', hout'⟩ := hrest
  refine ⟨fun k hk => ?_, fun p hp => ?_⟩
  · rcases Nat.lt_or_ge k c with hlt | hge
    · rw [hout' _ fun i hi => (h.apart k (c + i) (by omega) (by omega)).symm, hin k hlt]
    · obtain ⟨i, rfl⟩ := Nat.exists_eq_add_of_le hge
      rw [hin' i (by omega), hout _ fun j hj => h.ahead j (c + i) (by omega) hk]
  · rw [hout' p fun k hk => hp _ (by omega), hout p fun k hk => hp k (by omega)]

end

/-! ### One transfer -/

theorem loByte_setWidth (v : Byte) : loByte (v.setWidth 16) = v := by
  apply BitVec.eq_of_toNat_eq
  have := v.isLt
  rw [loByte, BitVec.extractLsb'_toNat, BitVec.toNat_setWidth, Nat.shiftRight_zero]
  omega

section
variable (dst src : Byte) (t : Transfer)

/-- A transfer stores what has been read, wherever that comes from. -/
theorem moveByte_stores :
    Stores .w8 (mkAddr dst t.sy) ((readByte (mkAddr src t.sx) t.s).1.setWidth 16) t.s (moveByte dst src t).s ∧
      Frame [] [] (span .w8 (mkAddr dst t.sy)) t.s (moveByte dst src t).s := by
  obtain ⟨b, hb⟩ := readByte_spec (mkAddr src t.sx) t.s
  have hmove : (moveByte dst src t).s = writeMem .w8 (mkAddr dst t.sy)
      ((readByte (mkAddr src t.sx) t.s).1.setWidth 16) (readByte (mkAddr src t.sx) t.s).2 := by
    rw [writeMem, loByte_setWidth]
    rfl
  rw [hmove, hb]
  exact writeMem_stores _ _ _ _ _

theorem moveWord_stores :
    Stores .w16 (mkAddr dst t.sy) (read16 (mkAddr src t.sx) t.s).1 t.s (moveWord dst src t).s ∧
      Frame [] [] (span .w16 (mkAddr dst t.sy)) t.s (moveWord dst src t).s := by
  obtain ⟨b, hb⟩ := read16_spec (mkAddr src t.sx) t.s
  have hmove : (moveWord dst src t).s = writeMem .w16 (mkAddr dst t.sy) (read16 (mkAddr src t.sx) t.s).1
      (read16 (mkAddr src t.sx) t.s).2 := rfl
  rw [hmove, hb]
  exact writeMem_stores _ _ _ _ _

variable {dst src t} {f g : Nat → Addr}

theorem moveByte_copies (h : Movable 1 f g t.s) (hf : f 0 = mkAddr src t.sx) (hg : g 0 = mkAddr dst t.sy) :
    Copies 1 f g t.s (moveByte dst src t).s := by
  obtain ⟨⟨hstored, -⟩, ⟨-, hout, -⟩, -⟩ := moveByte_stores dst src t
  have hread := h.gives 0 (by omega)
  have hram := h.ram 0 (by omega)
  rw [← hf, ← hg, readByte_gives _ _ hread, StoredAt, if_pos hram, loByte_setWidth] at hstored
  refine ⟨fun k hk => ?_, fun p hp => hout p ?_⟩
  · obtain rfl : k = 0 := by omega
    exact hstored
  · rintro (rfl | ⟨hw, -⟩)
    · exact hp 0 (by omega) hg.symm
    · cases hw

/-- Two bytes at neighbouring addresses: those at the places `i` and `j` of the row, the lower one first. -/
theorem moveWord_copies {i j : Nat} (hij : ∀ k, k < 2 ↔ k = i ∨ k = j) (h : Movable 2 f g t.s)
    (hfi : f i = mkAddr src t.sx) (hfj : f j = mkAddr src t.sx + 1) (hgi : g i = mkAddr dst t.sy)
    (hgj : g j = mkAddr dst t.sy + 1) : Copies 2 f g t.s (moveWord dst src t).s := by
  obtain ⟨⟨hlo, hhi⟩, ⟨-, hout, -⟩, -⟩ := moveWord_stores dst src t
  have hi := (hij i).mpr (.inl rfl)
  have hj := (hij j).mpr (.inr rfl)
  have hread : givesFrom 2 t.s (mkAddr src t.sx) := by
    intro k hk
    obtain rfl | rfl : k = 0 ∨ k = 1 := by omega
    · rw [BitVec.add_zero, ← hfi]
      exact h.gives i hi
    · have := h.gives j hj
      rwa [hfj] at this
  have hrami := h.ram i hi
  have hramj := h.ram j hj
  rw [hgi] at hrami
  rw [hgj] at hramj
  rw [read16_gives _ _ hread, StoredAt, if_pos hrami, wordAt, loByte_mkWord] at hlo
  have hhi := hhi rfl
  rw [read16_gives _ _ hread, StoredAt, if_pos hramj, wordAt, hiByte_mkWord] at hhi
  refine ⟨fun k hk => ?_, fun p hp => hout p ?_⟩
  · rcases (hij k).mp hk with rfl | rfl
    · rw [hfi, hgi, hlo]
    · rw [hfj, hgj, hhi]
  · rintro (rfl | ⟨-, rfl⟩)
    · exact hp i hi hgi.symm
    · exact hp j hj hgj.symm

end

/-! ### Offsets -/

/-- Only the number modulo 2^W counts, which 2^16 is a multiple of. -/
theorem wordOf_congr {w : Width} {i j : Nat} (h : i % 65536 = j % 65536) : wordOf w i = wordOf w j := by
  apply BitVec.eq_of_toNat_eq
  rw [wordOf_toNat, wordOf_toNat]
  cases w <;> simp only [bitsOf] <;> omega

theorem two_pow_bitsOf_le (w : Width) : 2 ^ bitsOf w ≤ 65536 := by cases w <;> decide

theorem wordOf_eq_ofNat {w : Width} {i : Nat} (h : i < 2 ^ bitsOf w) : wordOf w i = BitVec.ofNat 16 i := by
  rw [wordOf, Nat.mod_eq_of_lt h]

/-- `k` steps down from an offset, the lowest being 0. -/
theorem wordOf_below {w : Width} {i k : Nat} (hk : k ≤ i) (hpos : 0 < k) (hi : i ≤ 2 ^ bitsOf w) :
    wordOf w (i + 65535 * k) = BitVec.ofNat 16 (i - k) := by
  rw [wordOf_congr (j := i - k) (by omega), wordOf_eq_ofNat (by omega)]

/-- An offset moved on (R107): by 65535 for a step down. -/
theorem narrow_wordOf_add (w : Width) (i k : Nat) : narrow w (wordOf w i + BitVec.ofNat 16 k) = wordOf w (i + k) := by
  apply BitVec.eq_of_toNat_eq
  rw [narrow_toNat, BitVec.toNat_add, wordOf_toNat, wordOf_toNat, BitVec.toNat_ofNat]
  cases w <;> simp only [bitsOf] <;> omega

theorem shift_wordOf {w : Width} {t : Transfer} {i j : Nat} (k : Nat) (hx : t.sx = wordOf w i) (hy : t.sy = wordOf w j) :
    (t.shift w (BitVec.ofNat 16 k)).sx = wordOf w (i + k) ∧ (t.shift w (BitVec.ofNat 16 k)).sy = wordOf w (j + k) := by
  refine ⟨?_, ?_⟩
  · rw [Transfer.shift, hx, narrow_wordOf_add]
  · rw [Transfer.shift, hy, narrow_wordOf_add]

/-- A step down. -/
theorem shift_wordOf_down {w : Width} {t : Transfer} {i j : Nat} (hx : t.sx = wordOf w i) (hy : t.sy = wordOf w j) :
    (t.shift w (-1)).sx = wordOf w (i + 65535) ∧ (t.shift w (-1)).sy = wordOf w (j + 65535) :=
  shift_wordOf 65535 hx hy

section
variable (dst src : Byte) {w : Width}

theorem moveUp_offsets (cnt : Nat) {t : Transfer} {i j : Nat} (hx : t.sx = wordOf w i) (hy : t.sy = wordOf w j) :
    (moveUp dst src w cnt t).sx = wordOf w (i + cnt) ∧ (moveUp dst src w cnt t).sy = wordOf w (j + cnt) := by
  induction cnt using Nat.strongRecOn generalizing t i j with
  | ind cnt ih =>
    match cnt with
    | 0 => exact ⟨hx, hy⟩
    | 1 => exact shift_wordOf (t := moveByte dst src t) 1 hx hy
    | n + 2 =>
      obtain ⟨hx', hy'⟩ := shift_wordOf (t := moveWord dst src t) 2 hx hy
      have h := ih n (by omega) hx' hy'
      rwa [Nat.add_assoc, Nat.add_assoc, Nat.add_comm 2] at h

theorem moveDown_offsets (cnt : Nat) {t : Transfer} {i j : Nat} (hx : t.sx = wordOf w i) (hy : t.sy = wordOf w j) :
    (moveDown dst src w cnt t).sx = wordOf w (i + 65535 * cnt) ∧
      (moveDown dst src w cnt t).sy = wordOf w (j + 65535 * cnt) := by
  induction cnt using Nat.strongRecOn generalizing t i j with
  | ind cnt ih =>
    match cnt with
    | 0 => exact ⟨hx, hy⟩
    | 1 => exact shift_wordOf_down (t := moveByte dst src t) hx hy
    | n + 2 =>
      obtain ⟨hx', hy'⟩ := shift_wordOf_down hx hy
      obtain ⟨hx', hy'⟩ := shift_wordOf_down (t := moveWord dst src (t.shift w (-1))) hx' hy'
      obtain ⟨hx', hy'⟩ := ih n (by omega) hx' hy'
      exact ⟨hx'.trans (wordOf_congr (by omega)), hy'.trans (wordOf_congr (by omega))⟩

end

/-! ### Bytes outside the destination bank -/

/-- The destination bank and the byte after it. -/
def destination (dst : Byte) (p : Addr) : Prop := ∃ k : Nat, k ≤ 65536 ∧ p = mkAddr dst 0#16 + BitVec.ofNat 24 k

theorem mkAddr_eq_add (b : Byte) (o : Word) : mkAddr b o = mkAddr b 0#16 + BitVec.ofNat 24 o.toNat := by
  apply BitVec.eq_of_toNat_eq
  have := o.isLt
  have := b.isLt
  rw [BitVec.toNat_add, mkAddr_toNat, mkAddr_toNat, BitVec.toNat_ofNat, BitVec.toNat_ofNat]
  omega

theorem destination_of_span {dst : Byte} {o : Word} {w : Width} {p : Addr} (h : span w (mkAddr dst o) p) :
    destination dst p := by
  have ho := o.isLt
  rcases h with rfl | ⟨-, rfl⟩
  · exact ⟨o.toNat, by omega, mkAddr_eq_add dst o⟩
  · refine ⟨o.toNat + 1, by omega, ?_⟩
    rw [mkAddr_eq_add dst o, BitVec.add_assoc, BitVec.ofNat_add]
    rfl

section
variable {dst src : Byte} {p : Addr} (hp : ¬ destination dst p)
include hp

theorem moveByte_outside (t : Transfer) : (moveByte dst src t).s.byteAt p = t.s.byteAt p :=
  (moveByte_stores dst src t).2.1.2.1 p fun h => hp (destination_of_span h)

theorem moveWord_outside (t : Transfer) : (moveWord dst src t).s.byteAt p = t.s.byteAt p :=
  (moveWord_stores dst src t).2.1.2.1 p fun h => hp (destination_of_span h)

theorem moveUp_outside (w : Width) (cnt : Nat) (t : Transfer) :
    (moveUp dst src w cnt t).s.byteAt p = t.s.byteAt p := by
  induction cnt using Nat.strongRecOn generalizing t with
  | ind cnt ih =>
    match cnt with
    | 0 => rfl
    | 1 => exact moveByte_outside hp t
    | n + 2 => exact (ih n (by omega) _).trans (moveWord_outside hp t)

theorem moveDown_outside (w : Width) (cnt : Nat) (t : Transfer) :
    (moveDown dst src w cnt t).s.byteAt p = t.s.byteAt p := by
  induction cnt using Nat.strongRecOn generalizing t with
  | ind cnt ih =>
    match cnt with
    | 0 => rfl
    | 1 => exact moveByte_outside hp t
    | n + 2 => exact (ih n (by omega) _).trans (moveWord_outside hp _)

end

/-! ### A block that stays inside its bank -/

/-- The addresses from an offset of a bank upward, and those below an offset, downward. -/
def upFrom (bank : Byte) (i k : Nat) : Addr := mkAddr bank (BitVec.ofNat 16 (i + k))
def downBelow (bank : Byte) (i k : Nat) : Addr := mkAddr bank (BitVec.ofNat 16 (i - 1 - k))

theorem mkAddr_ofNat_inj {b c : Byte} {i j : Nat} (hi : i < 65536) (hj : j < 65536)
    (h : mkAddr b (BitVec.ofNat 16 i) = mkAddr c (BitVec.ofNat 16 j)) : b = c ∧ i = j := by
  have h := congrArg BitVec.toNat h
  rw [mkAddr_toNat, mkAddr_toNat, BitVec.toNat_ofNat, BitVec.toNat_ofNat] at h
  exact ⟨BitVec.eq_of_toNat_eq (by omega), by omega⟩

/-- Inside a bank the next address is that of the next offset. -/
theorem mkAddr_ofNat_succ (b : Byte) {i : Nat} (h : i + 1 < 65536) :
    mkAddr b (BitVec.ofNat 16 i) + 1 = mkAddr b (BitVec.ofNat 16 (i + 1)) := by
  apply BitVec.eq_of_toNat_eq
  have := b.isLt
  have h1 : (1 : Addr).toNat = 1 := rfl
  rw [BitVec.toNat_add, mkAddr_toNat, mkAddr_toNat, BitVec.toNat_ofNat, BitVec.toNat_ofNat, h1]
  omega

theorem upFrom_succ (b : Byte) {i k : Nat} (h : i + k + 1 < 65536) : upFrom b i (k + 1) = upFrom b i k + 1 :=
  (mkAddr_ofNat_succ b h).symm

theorem downBelow_succ (b : Byte) {i k : Nat} (h : k + 1 < i) (hi : i ≤ 65536) :
    downBelow b i k = downBelow b i (k + 1) + 1 := by
  rw [downBelow, downBelow, mkAddr_ofNat_succ b (by omega), show i - 1 - (k + 1) + 1 = i - 1 - k by omega]

theorem upFrom_add (b : Byte) (i c : Nat) : (fun k => upFrom b i (c + k)) = upFrom b (i + c) := by
  funext k
  rw [upFrom, upFrom, Nat.add_assoc]

theorem downBelow_add (b : Byte) (i c : Nat) : (fun k => downBelow b i (c + k)) = downBelow b (i - c) := by
  funext k
  rw [downBelow, downBelow, show i - 1 - (c + k) = i - c - 1 - k by omega]

section
variable {dst src : Byte} {w : Width}

theorem copies_zero (f g : Nat → Addr) (s : State) : Copies 0 f g s s :=
  ⟨fun k hk => absurd hk (Nat.not_lt_zero k), fun _ _ => rfl⟩

theorem moveWord_chip (t : Transfer) : (moveWord dst src t).s.chip = t.s.chip :=
  (moveWord_stores dst src t).2.1.2.2.2.1

/-- R232: a block that ends inside the reach of the index registers is copied. -/
theorem moveUp_copies (cnt : Nat) {t : Transfer} {i j : Nat} (hx : t.sx = wordOf w i) (hy : t.sy = wordOf w j)
    (hi : i + cnt ≤ 2 ^ bitsOf w) (hj : j + cnt ≤ 2 ^ bitsOf w) (h : Movable cnt (upFrom src i) (upFrom dst j) t.s) :
    Copies cnt (upFrom src i) (upFrom dst j) t.s (moveUp dst src w cnt t).s := by
  have hw := two_pow_bitsOf_le w
  induction cnt using Nat.strongRecOn generalizing t i j with
  | ind cnt ih =>
    match cnt with
    | 0 => exact copies_zero _ _ _
    | 1 =>
      rw [wordOf_eq_ofNat (by omega)] at hx hy
      exact moveByte_copies h (by rw [hx]; rfl) (by rw [hy]; rfl)
    | n + 2 =>
      obtain ⟨hx', hy'⟩ := shift_wordOf (t := moveWord dst src t) 2 hx hy
      rw [wordOf_eq_ofNat (by omega)] at hx hy
      have hf : upFrom src i 0 = mkAddr src t.sx := by rw [hx]; rfl
      have hg : upFrom dst j 0 = mkAddr dst t.sy := by rw [hy]; rfl
      refine copies_append (c := 2) h (moveWord_copies (i := 0) (j := 1) (by omega) h.first hf
        (by rw [← hf, upFrom_succ _ (by omega)]) hg (by rw [← hg, upFrom_succ _ (by omega)])) ?_
      have hrest := h.rest (moveWord_chip (dst := dst) (src := src) t)
      rw [upFrom_add, upFrom_add] at hrest ⊢
      exact ih n (by omega) hx' hy' (by omega) (by omega) hrest

/-- R233: a block that reaches down no further than offset 0 is copied; `i` and `j` are the offsets above it. -/
theorem moveDown_copies (cnt : Nat) {t : Transfer} {i j : Nat} (hx : t.sx = wordOf w (i + 65535))
    (hy : t.sy = wordOf w (j + 65535)) (hi : cnt ≤ i) (hj : cnt ≤ j) (hi' : i ≤ 2 ^ bitsOf w) (hj' : j ≤ 2 ^ bitsOf w)
    (h : Movable cnt (downBelow src i) (downBelow dst j) t.s) :
    Copies cnt (downBelow src i) (downBelow dst j) t.s (moveDown dst src w cnt t).s := by
  have hw := two_pow_bitsOf_le w
  induction cnt using Nat.strongRecOn generalizing t i j with
  | ind cnt ih =>
    match cnt with
    | 0 => exact copies_zero _ _ _
    | 1 =>
      rw [wordOf_below (k := 1) (by omega) (by omega) (by omega)] at hx hy
      exact moveByte_copies h (by rw [hx]; rfl) (by rw [hy]; rfl)
    | n + 2 =>
      obtain ⟨hx1, hy1⟩ := shift_wordOf_down hx hy
      obtain ⟨hx', hy'⟩ := shift_wordOf_down (t := moveWord dst src (t.shift w (-1))) hx1 hy1
      rw [Nat.add_assoc, wordOf_below (k := 2) (by omega) (by omega) (by omega)] at hx1 hy1
      have hf : downBelow src i 1 = mkAddr src (t.shift w (-1)).sx := by rw [hx1, downBelow, Nat.sub_sub]
      have hg : downBelow dst j 1 = mkAddr dst (t.shift w (-1)).sy := by rw [hy1, downBelow, Nat.sub_sub]
      refine copies_append (c := 2) h (moveWord_copies (t := t.shift w (-1)) (i := 1) (j := 0) (by omega) h.first hf
        (by rw [← hf, downBelow_succ _ (by omega) (by omega)]) hg
        (by rw [← hg, downBelow_succ _ (by omega) (by omega)])) ?_
      have hrest := h.rest (moveWord_chip (dst := dst) (src := src) (t.shift w (-1)))
      rw [downBelow_add, downBelow_add] at hrest ⊢
      have hi2 : wordOf w (i + 65535 + 65535 + 65535) = wordOf w (i - 2 + 65535) := wordOf_congr (by omega)
      have hj2 : wordOf w (j + 65535 + 65535 + 65535) = wordOf w (j - 2 + 65535) := wordOf_congr (by omega)
      have hcopied := ih n (by omega) (t := (moveWord dst src (t.shift w (-1))).shift w (-1)) (hx'.trans hi2)
        (hy'.trans hj2) (by omega) (by omega) (by omega) (by omega) hrest
      exact hcopied

end

/-! ### MVN and MVP -/

/-- A block can be moved if no source byte still to be read is a destination byte already written. -/
theorem movable_of_bank {s : State} {n : Nat} {src dst : Byte} {a b : Nat → Nat}
    (ha : ∀ k, k < n → a k < 65536) (hb : ∀ k, k < n → b k < 65536)
    (hgives : ∀ k, k < n → gives s (mkAddr src (BitVec.ofNat 16 (a k))))
    (hram : ∀ k, k < n → s.kindAt (mkAddr dst (BitVec.ofNat 16 (b k))) = .ram)
    (hahead : dst ≠ src ∨ ∀ j k, j < k → k < n → a k ≠ b j) (hapart : ∀ j k, j < k → k < n → b k ≠ b j) :
    Movable n (fun k => mkAddr src (BitVec.ofNat 16 (a k))) (fun k => mkAddr dst (BitVec.ofNat 16 (b k))) s where
  gives := hgives
  ram := hram
  ahead j k hjk hk h := by
    obtain ⟨hbank, hoffs⟩ := mkAddr_ofNat_inj (ha k hk) (hb j (by omega)) h
    exact hahead.elim (fun hne => hne hbank.symm) fun hne => hne j k hjk hk hoffs
  apart j k hjk hk h := hapart j k hjk hk (mkAddr_ofNat_inj (hb k hk) (hb j (by omega)) h).2

theorem indexX_eq_wordOf (s : State) : s.indexX = wordOf s.xWidth (valueOf s.xWidth s.x) := by
  apply BitVec.eq_of_toNat_eq
  rw [indexX_toNat, wordOf_toNat, Nat.mod_eq_of_lt (valueOf_lt _ _)]

theorem indexY_eq_wordOf (s : State) : s.indexY = wordOf s.xWidth (valueOf s.xWidth s.y) := by
  apply BitVec.eq_of_toNat_eq
  rw [indexY_toNat, wordOf_toNat, Nat.mod_eq_of_lt (valueOf_lt _ _)]

/-- A transfer before its first byte: the offsets in X and Y, and DT the destination bank. -/
def transferStart (dst : Byte) (s : State) : Transfer := ⟨s.indexX, s.indexY, s.setDt dst⟩

/-- What a block transfer leaves, where `r` is its transfer after the last byte, at the offsets of `i` and `j`. -/
theorem blockTransfer_result (dst : Byte) (move : Width → Nat → Transfer → Transfer) (s : State) {r : Transfer}
    {i j : Nat} {m : Memory} {b : Bus}
    (hr : r = move s.xWidth (valueOf s.mWidth s.a) (transferStart dst s)) (hs : r.s = ((s.setDt dst).setMem m).setBus b)
    (hx : r.sx = wordOf s.xWidth i) (hy : r.sy = wordOf s.xWidth j)
    (hout : ∀ p, ¬ destination dst p → r.s.byteAt p = s.byteAt p) :
    ∃ t, blockTransfer dst move s = t ∧ t.dt = dst ∧ valueOf s.mWidth t.a = 2 ^ bitsOf s.mWidth - 1 ∧
      WrittenAs s.xWidth s.x t.x (i % 2 ^ bitsOf s.xWidth) ∧ WrittenAs s.xWidth s.y t.y (j % 2 ^ bitsOf s.xWidth) ∧
      KeepsAllBut [.a, .x, .y, .dt] (destination dst) s t ∧ t.ps = s.ps ∧ ∀ p, t.byteAt p = r.s.byteAt p := by
  obtain ⟨a, c, hdone, ha⟩ := countDone_spec ((r.s.writeX s.xWidth r.sx).writeY s.xWidth r.sy)
  have hcount : (s.readAcc s.mWidth .a).toNat = valueOf s.mWidth s.a := narrow_toNat_valueOf _ _
  refine ⟨_, rfl, ?_⟩
  rw [blockTransfer_eq, hcount, ← transferStart, ← hr, hdone]
  rw [hs] at ha hout ⊢
  refine ⟨rfl, ha, ?_, ?_, ⟨fun q hq => ?_, hout, rfl, rfl, rfl⟩, rfl, fun p => rfl⟩
  · have hw := merge_written s.xWidth s.x r.sx
    rwa [hx, valueOf_wordOf, ← hx] at hw
  · have hw := merge_written s.xWidth s.y r.sy
    rwa [hy, valueOf_wordOf, ← hy] at hw
  · cases q with
    | a => exact absurd (by simp) hq
    | x => exact absurd (by simp) hq
    | y => exact absurd (by simp) hq
    | dt => exact absurd (by simp) hq
    | _ => rfl

/-- Settles O35: the offsets, the bank and A for every block, the copy for one that ends inside the bank. -/
theorem mvnMovesUpward : Obligations.MvnMovesUpward := by
  intro dst src s n xo yo hn hxo hyo
  subst hn hxo hyo
  obtain ⟨m, b, hs, -⟩ := moveUp_spec dst src s.xWidth (valueOf s.mWidth s.a) (transferStart dst s)
  obtain ⟨hx, hy⟩ := moveUp_offsets dst src (valueOf s.mWidth s.a) (t := transferStart dst s) (indexX_eq_wordOf s)
    (indexY_eq_wordOf s)
  obtain ⟨t, ht, hdt, ha, hxt, hyt, hkeeps, hps, hbyte⟩ := blockTransfer_result dst (moveUp dst src) s rfl hs hx hy
    fun p hp => moveUp_outside hp _ _ _
  refine ⟨t, congrArg Host.Outcome.next ht, hdt, ha, hxt, hyt, hkeeps, hps, fun hgives hxn hyn hclear hram => ?_⟩
  have hw := two_pow_bitsOf_le s.xWidth
  obtain ⟨hin, hout⟩ := moveUp_copies (dst := dst) (src := src) _ (t := transferStart dst s) (indexX_eq_wordOf s)
    (indexY_eq_wordOf s) hxn hyn (movable_of_bank (fun k hk => by omega) (fun k hk => by omega) hgives hram
      (hclear.imp_right fun hc j k hjk hk => by omega) fun j k hjk hk => by omega)
  exact ⟨fun k hk => (hbyte _).trans (hin k hk), fun p hp => (hbyte p).trans (hout p hp)⟩

/-- Settles O36, as O35: the offsets above the block are those in X and Y and one more. -/
theorem mvpMovesDownward : Obligations.MvpMovesDownward := by
  intro dst src s n xo yo hn hxo hyo
  subst hn hxo hyo
  have hw := two_pow_bitsOf_le s.xWidth
  have hn := (valueOf_lt s.mWidth s.a).trans_le (two_pow_bitsOf_le s.mWidth)
  have hx0 := valueOf_lt s.xWidth s.x
  have hy0 := valueOf_lt s.xWidth s.y
  have hsx : (transferStart dst s).sx = wordOf s.xWidth (valueOf s.xWidth s.x + 1 + 65535) :=
    (indexX_eq_wordOf s).trans (wordOf_congr (by omega))
  have hsy : (transferStart dst s).sy = wordOf s.xWidth (valueOf s.xWidth s.y + 1 + 65535) :=
    (indexY_eq_wordOf s).trans (wordOf_congr (by omega))
  obtain ⟨m, b, hs, -⟩ := moveDown_spec dst src s.xWidth (valueOf s.mWidth s.a) (transferStart dst s)
  obtain ⟨hx, hy⟩ := moveDown_offsets dst src (valueOf s.mWidth s.a) hsx hsy
  obtain ⟨t, ht, hdt, ha, hxt, hyt, hkeeps, hps, hbyte⟩ := blockTransfer_result dst (moveDown dst src) s
    (i := valueOf s.xWidth s.x + (2 ^ 16 - valueOf s.mWidth s.a))
    (j := valueOf s.xWidth s.y + (2 ^ 16 - valueOf s.mWidth s.a)) rfl hs (hx.trans (wordOf_congr (by omega)))
    (hy.trans (wordOf_congr (by omega))) fun p hp => moveDown_outside hp _ _ _
  refine ⟨t, congrArg Host.Outcome.next ht, hdt, ha, hxt, hyt, hkeeps, hps, fun hgives hxn hyn hclear hram => ?_⟩
  obtain ⟨hin, hout⟩ := moveDown_copies (dst := dst) (src := src) _ hsx hsy hxn hyn (by omega) (by omega)
    (movable_of_bank (fun k hk => by omega) (fun k hk => by omega) hgives hram
      (hclear.imp_right fun hc j k hjk hk => by omega) fun j k hjk hk => by omega)
  exact ⟨fun k hk => (hbyte _).trans (hin k hk), fun p hp => (hbyte p).trans (hout p hp)⟩

end Sys2Proof.Proofs

/-! Settles O37 to O40: ADC and SBC.  The result of the operation is written to the accumulator with four flags in one
way for both; what remains is arithmetic: the flag V as the signed range, and the digits of a decimal result. -/

namespace Sys2Proof.Proofs

open Sys2Proof.Machine Sys2Proof.Safety

/-! ### The accumulators and the flags after an update -/

section
variable (s : State)

@[simp] theorem acc_setFlag (f : Flag) (v : Bool) (q : Acc) : (s.setFlag f v).acc q = s.acc q := by cases q <;> rfl
@[simp] theorem acc_setNZ (w : Width) (v : Word) (q : Acc) : (s.setNZ w v).acc q = s.acc q := by cases q <;> rfl
@[simp] theorem acc_setFlagFree (f : Flag) (q : Acc) : (s.setFlagFree f).acc q = s.acc q := by cases q <;> rfl
@[simp] theorem acc_setBus (b : Bus) (q : Acc) : (s.setBus b).acc q = s.acc q := by cases q <;> rfl
@[simp] theorem acc_drawn (q : Acc) : s.drawn.acc q = s.acc q := acc_setBus s _ q

/-- A flag that is drawn does not disturb the others. -/
theorem flag_setFlagFree {f g : Flag} (h : g ≠ f) : (s.setFlagFree f).flag g = s.flag g :=
  (flag_setFlag _ f g _).trans (if_neg h)

@[simp] theorem flag_operand (w : Width) (o : Operand) (f : Flag) : (operand w o s).2.flag f = s.flag f := by
  obtain ⟨bus, hbus⟩ := operand_spec w o s
  rw [hbus, setBus_flag]

/-- `rd_W(Acc)` of R18. -/
theorem readAcc_toNat (w : Width) (r : Acc) : (s.readAcc w r).toNat = valueOf w (s.acc r) := narrow_toNat_valueOf _ _

/-- `wr_W(Acc, v)` of R18. -/
theorem writeAcc_written (w : Width) (r : Acc) (v : Word) :
    WrittenAs w (s.acc r) ((s.writeAcc w r v).acc r) (valueOf w v) := by
  rw [State.writeAcc, setAcc_acc]
  exact merge_written w _ v

theorem frame_writeAcc {t : State} {regs : List Reg} {flags : List Flag} {stored : Addr → Prop} (w : Width) (r : Acc)
    (v : Word) (hr : accReg r ∈ regs) (h : Frame regs flags stored s t) :
    Frame regs flags stored s (t.writeAcc w r v) :=
  frame_setAcc r _ hr h

end

theorem showsNZ_setFlag {w : Width} {n : Nat} {t : State} {f : Flag} (v : Bool) (hn : Flag.n ≠ f) (hz : Flag.z ≠ f)
    (h : ShowsNZ w n t) : ShowsNZ w n (t.setFlag f v) := by
  simpa [ShowsNZ, hn, hz] using h

/-! ### Binary sums and differences -/

/-- The accumulator and the four flags take a sum as it is (R241, R244). -/
theorem putSum_result (r : Acc) (w : Width) (e : Sum) (s : State) (b : Bus) :
    WrittenAs w (s.acc r) ((putSum r w e (s.setBus b)).acc r) (valueOf w e.r) ∧
      ShowsNZ w (valueOf w e.r) (putSum r w e (s.setBus b)) ∧
      (putSum r w e (s.setBus b)).flag .c = e.c ∧ (putSum r w e (s.setBus b)).flag .v = e.v ∧
      Frame [accReg r] [.n, .v, .z, .c] nowhere s (putSum r w e (s.setBus b)) := by
  refine ⟨?_, ?_, ?_, ?_, ?_⟩
  · simpa [putSum] using writeAcc_written (s.setBus b) w r e.r
  · exact showsNZ_setFlag _ (by simp) (by simp) (showsNZ_setFlag _ (by simp) (by simp) (showsNZ_setNZ w e.r _))
  · simp [putSum]
  · simp [putSum]
  · exact frame_setFlag _ _ (by simp) (frame_setFlag _ _ (by simp) (frame_setNZ _ _ (by simp) (by simp)
      (frame_writeAcc s w r _ (by simp) (frame_setBus b (frame_refl _ _ _ s)))))

section
variable {w : Width} {a b : Word} {cin : Bool}

theorem valueOf_addBinary :
    valueOf w (addBinary w a b cin).r = (a.toNat + b.toNat + cin.toNat) % 2 ^ bitsOf w :=
  valueOf_wordOf w _

theorem addBinary_carry : (addBinary w a b cin).c = decide (2 ^ bitsOf w ≤ a.toNat + b.toNat + cin.toNat) := rfl

theorem valueOf_subBinary :
    valueOf w (subBinary w a b cin).r =
      (((a.toNat : Int) - b.toNat - (if cin then 0 else 1)) % 2 ^ bitsOf w).toNat :=
  valueOf_wordOfInt w _

theorem subBinary_carry :
    (subBinary w a b cin).c = decide (0 ≤ (a.toNat : Int) - b.toNat - (if cin then 0 else 1)) := rfl

/-- A sum keeps the sign that both operands have exactly when it stays in the signed range. -/
theorem addBinary_overflow (ha : a.toNat < 2 ^ bitsOf w) (hb : b.toNat < 2 ^ bitsOf w) :
    (addBinary w a b cin).v = decide
      (signedOf w a.toNat + signedOf w b.toNat + cin.toNat < -(2 ^ (bitsOf w - 1)) ∨
        2 ^ (bitsOf w - 1) ≤ signedOf w a.toNat + signedOf w b.toNat + cin.toNat) := by
  have hc := cin.toNat_lt
  rw [Bool.eq_iff_iff, decide_eq_true_eq]
  simp only [addBinary, msb_eq, valueOf_of_lt w a ha, valueOf_of_lt w b hb, valueOf_wordOf, signedOf,
    Bool.and_eq_true, beq_iff_eq, bne_iff_ne, ne_eq, decide_eq_decide]
  cases w
  all_goals
    simp only [bitsOf, Nat.reduceSub, Nat.reducePow, Int.reducePow] at *
    split_ifs <;> omega

/-- A difference of operands with different signs keeps the sign of the minuend exactly when it stays in the signed
range. -/
theorem subBinary_overflow (ha : a.toNat < 2 ^ bitsOf w) (hb : b.toNat < 2 ^ bitsOf w) :
    (subBinary w a b cin).v = decide
      (signedOf w a.toNat - signedOf w b.toNat - (if cin then 0 else 1) < -(2 ^ (bitsOf w - 1)) ∨
        2 ^ (bitsOf w - 1) ≤ signedOf w a.toNat - signedOf w b.toNat - (if cin then 0 else 1)) := by
  rw [Bool.eq_iff_iff, decide_eq_true_eq]
  simp only [subBinary, msb_eq, valueOf_of_lt w a ha, valueOf_of_lt w b hb, valueOf_wordOfInt, signedOf,
    Bool.and_eq_true, bne_iff_ne, ne_eq, decide_eq_decide]
  cases w
  all_goals
    simp only [bitsOf, Nat.reduceSub, Nat.reducePow, Int.reducePow] at *
    split_ifs <;> omega

end

/-- Settles O37: the operand changes the bus record alone, and the sum is written as `putSum_result` says. -/
theorem adcAddsInBinary : Obligations.AdcAddsInBinary := by
  intro r o s hd
  obtain ⟨bus, hbus, hlt, -⟩ := operand_view s.mWidth o s
  refine ⟨_, (exec_adc s r o).trans (if_neg (by simp [hd])), ?_⟩
  rintro w a b c rfl rfl rfl rfl
  have ha := readAcc_toNat s s.mWidth r
  obtain ⟨hacc, hnz, hc, hv, hframe⟩ := putSum_result r s.mWidth
    (addBinary s.mWidth (s.readAcc s.mWidth r) (operand s.mWidth o s).1 (s.flag .c)) s bus
  rw [valueOf_addBinary, ha] at hacc hnz
  rw [addBinary_carry, ha] at hc
  rw [addBinary_overflow (ha ▸ valueOf_lt s.mWidth (s.acc r)) hlt, ha] at hv
  rw [hbus]
  exact ⟨hacc, hnz, hc, hv, hframe⟩

/-- Settles O38, as O37. -/
theorem sbcSubtractsInBinary : Obligations.SbcSubtractsInBinary := by
  intro r o s hd
  obtain ⟨bus, hbus, hlt, -⟩ := operand_view s.mWidth o s
  refine ⟨_, (exec_sbc s r o).trans (if_neg (by simp [hd])), ?_⟩
  rintro w a b c rfl rfl rfl rfl
  have ha := readAcc_toNat s s.mWidth r
  obtain ⟨hacc, hnz, hc, hv, hframe⟩ := putSum_result r s.mWidth
    (subBinary s.mWidth (s.readAcc s.mWidth r) (operand s.mWidth o s).1 (s.flag .c)) s bus
  rw [valueOf_subBinary, ha] at hacc hnz
  rw [subBinary_carry, ha] at hc
  rw [subBinary_overflow (ha ▸ valueOf_lt s.mWidth (s.acc r)) hlt, ha] at hv
  rw [hbus]
  exact ⟨hacc, hnz, hc, hv, hframe⟩

/-! ### Decimal sums and differences -/

section
variable {w : Width} {a b : Word} {cin : Bool}

/-- A sum of two numbers of decimal digits has decimal digits (R242). -/
theorem addDecimal_digits :
    isBcd w (addDecimal w a b cin).r = true ∧
      bcdVal w (addDecimal w a b cin).r = (bcdVal w a + bcdVal w b + cin.toNat) % 10 ^ digitsOf w := by
  obtain ⟨hdigits, hval, -⟩ := toBcd_spec w _ (Nat.mod_lt (bcdVal w a + bcdVal w b + cin.toNat)
    (Nat.pow_pos (by omega) : 0 < 10 ^ digitsOf w))
  exact ⟨hdigits, hval⟩

/-- A difference modulo a power of ten has decimal digits (R245). -/
theorem subDecimal_digits :
    isBcd w (subDecimal w a b cin).r = true ∧
      (bcdVal w (subDecimal w a b cin).r : Int) =
        ((bcdVal w a : Int) - bcdVal w b - (if cin then 0 else 1)) % 10 ^ digitsOf w := by
  have hpos : (0 : Int) < 10 ^ digitsOf w := by positivity
  have hnonneg := Int.emod_nonneg ((bcdVal w a : Int) - bcdVal w b - (if cin then 0 else 1)) hpos.ne'
  have hlt := Int.emod_lt_of_pos ((bcdVal w a : Int) - bcdVal w b - (if cin then 0 else 1)) hpos
  obtain ⟨hdigits, hval, -⟩ := toBcd_spec w
    (((bcdVal w a : Int) - bcdVal w b - (if cin then 0 else 1)) % 10 ^ digitsOf w).toNat
    ((Int.toNat_lt hnonneg).mpr (by exact_mod_cast hlt))
  rw [subDecimal]
  push_cast
  exact ⟨hdigits, by rw [hval, Int.toNat_of_nonneg hnonneg]⟩

end

section
variable {r : Acc} {w : Width} {b : Word} {s : State}

/-- The digits of an accumulator are those of the W bits that an operation reads. -/
theorem isBcd_readAcc :
    isBcd w (s.readAcc w r) = isBcd w (s.acc r) ∧ bcdVal w (s.readAcc w r) = bcdVal w (s.acc r) :=
  isBcd_of_valueOf w _ _ (valueOf_narrow w _)

theorem adcDecimal_of_digits (ha : isBcd w (s.acc r) = true) (hb : isBcd w b = true) :
    adcDecimal r w b s =
      ((((s.writeAcc w r (addDecimal w (s.readAcc w r) b (s.flag .c)).r).setFlag .c
        (addDecimal w (s.readAcc w r) b (s.flag .c)).c).setFlagFree .n).setFlagFree .v).setFlagFree .z := by
  rw [adcDecimal, if_pos (by simp [isBcd_readAcc, ha, hb])]

theorem sbcDecimal_of_digits (ha : isBcd w (s.acc r) = true) (hb : isBcd w b = true) :
    sbcDecimal r w b s =
      ((((s.writeAcc w r (subDecimal w (s.readAcc w r) b (s.flag .c)).r).setFlag .c
        (subDecimal w (s.readAcc w r) b (s.flag .c)).c).setFlag .z
          (isZero w (subDecimal w (s.readAcc w r) b (s.flag .c)).r)).setFlagFree .n).setFlagFree .v := by
  rw [sbcDecimal, if_pos (by simp [isBcd_readAcc, ha, hb])]

/-- What ADC does with decimal digits: C is exact, the drawn flags disturb nothing. -/
theorem adcDecimal_result (ha : isBcd w (s.acc r) = true) (hb : isBcd w b = true) :
    isBcd w ((adcDecimal r w b s).acc r) = true ∧
      bcdVal w ((adcDecimal r w b s).acc r) =
        (bcdVal w (s.acc r) + bcdVal w b + (s.flag .c).toNat) % 10 ^ digitsOf w ∧
      (adcDecimal r w b s).flag .c = decide (10 ^ digitsOf w ≤ bcdVal w (s.acc r) + bcdVal w b + (s.flag .c).toNat) ∧
      (w = .w8 → hiByte ((adcDecimal r w b s).acc r) = hiByte (s.acc r)) ∧
      Frame [accReg r] [.n, .v, .z, .c] nowhere s (adcDecimal r w b s) := by
  obtain ⟨hdigits, hval⟩ := addDecimal_digits (w := w) (a := s.readAcc w r) (b := b) (cin := s.flag .c)
  obtain ⟨hlow, hhigh⟩ := writeAcc_written s w r (addDecimal w (s.readAcc w r) b (s.flag .c)).r
  obtain ⟨hacc, haccval⟩ := isBcd_of_valueOf w _ _ hlow
  rw [isBcd_readAcc.2] at hval
  rw [adcDecimal_of_digits ha hb]
  refine ⟨?_, ?_, ?_, ?_, ?_⟩
  · simpa [hacc] using hdigits
  · simpa [haccval] using hval
  · simp [flag_setFlagFree, addDecimal, isBcd_readAcc]
  · simpa using hhigh
  · exact frame_setFlagFree _ (by simp) (frame_setFlagFree _ (by simp) (frame_setFlagFree _ (by simp)
      (frame_setFlag _ _ (by simp) (frame_writeAcc s w r _ (by simp) (frame_refl _ _ _ s)))))

/-- What SBC does with decimal digits: C and Z are exact. -/
theorem sbcDecimal_result (ha : isBcd w (s.acc r) = true) (hb : isBcd w b = true) :
    isBcd w ((sbcDecimal r w b s).acc r) = true ∧
      (bcdVal w ((sbcDecimal r w b s).acc r) : Int) =
        ((bcdVal w (s.acc r) : Int) - bcdVal w b - (if s.flag .c then 0 else 1)) % 10 ^ digitsOf w ∧
      (sbcDecimal r w b s).flag .c =
        decide (0 ≤ (bcdVal w (s.acc r) : Int) - bcdVal w b - (if s.flag .c then 0 else 1)) ∧
      (sbcDecimal r w b s).flag .z = decide (valueOf w ((sbcDecimal r w b s).acc r) = 0) ∧
      (w = .w8 → hiByte ((sbcDecimal r w b s).acc r) = hiByte (s.acc r)) ∧
      Frame [accReg r] [.n, .v, .z, .c] nowhere s (sbcDecimal r w b s) := by
  obtain ⟨hdigits, hval⟩ := subDecimal_digits (w := w) (a := s.readAcc w r) (b := b) (cin := s.flag .c)
  obtain ⟨hlow, hhigh⟩ := writeAcc_written s w r (subDecimal w (s.readAcc w r) b (s.flag .c)).r
  obtain ⟨hacc, haccval⟩ := isBcd_of_valueOf w _ _ hlow
  rw [isBcd_readAcc.2] at hval
  rw [sbcDecimal_of_digits ha hb]
  refine ⟨?_, ?_, ?_, ?_, ?_, ?_⟩
  · simpa [hacc] using hdigits
  · simpa [haccval] using hval
  · simp [flag_setFlagFree, subDecimal, isBcd_readAcc]
  · simp [flag_setFlagFree, isZero_eq, hlow]
  · simpa using hhigh
  · exact frame_setFlagFree _ (by simp) (frame_setFlagFree _ (by simp) (frame_setFlag _ _ (by simp)
      (frame_setFlag _ _ (by simp) (frame_writeAcc s w r _ (by simp) (frame_refl _ _ _ s)))))

/-- With another digit ADC and SBC do the same (R243 (c)). -/
theorem decimal_of_no_digits (h : isBcd w (s.acc r) = false ∨ isBcd w b = false) :
    adcDecimal r w b s = putUndigits r w s ∧ sbcDecimal r w b s = putUndigits r w s := by
  have hneg : ¬ (isBcd w (s.readAcc w r) && isBcd w b) = true := by
    rw [isBcd_readAcc.1]
    rcases h with h | h <;> simp [h]
  exact ⟨if_neg hneg, if_neg hneg⟩

/-- Drawn values go where a result would go. -/
theorem putUndigits_result :
    (w = .w8 → hiByte ((putUndigits r w s).acc r) = hiByte (s.acc r)) ∧
      Frame [accReg r] [.n, .v, .z, .c] nowhere s (putUndigits r w s) := by
  refine ⟨?_, ?_⟩
  · simpa [putUndigits, drawWord] using (writeAcc_written s.drawn w r (drawWord s).1).2
  · exact frame_setFlagFree _ (by simp) (frame_setFlagFree _ (by simp) (frame_setFlagFree _ (by simp)
      (frame_setFlagFree _ (by simp) (frame_writeAcc s w r _ (by simp) (frame_setBus _ (frame_refl _ _ _ s))))))

end

/-- Settles O39: the operand changes the bus record alone. -/
theorem decimalArithmetic : Obligations.DecimalArithmetic := by
  rintro r o s w a b hd rfl hacc hoperand rfl rfl
  obtain ⟨bus, hbus, -, -⟩ := operand_view s.mWidth o s
  refine ⟨⟨_, (exec_adc s r o).trans (if_pos (by simp [hd])), ?_⟩,
    ⟨_, (exec_sbc s r o).trans (if_pos (by simp [hd])), ?_⟩⟩
  · rw [hbus]
    exact adcDecimal_result (s := s.setBus bus) (r := r) hacc hoperand
  · rw [hbus]
    exact sbcDecimal_result (s := s.setBus bus) (r := r) hacc hoperand

/-- Settles O40: both draw their result. -/
theorem digitsAboveNine : Obligations.DigitsAboveNine := by
  intro r o s hd h
  obtain ⟨bus, hbus, -, -⟩ := operand_view s.mWidth o s
  obtain ⟨hadc, hsbc⟩ := decimal_of_no_digits (s := s.setBus bus) (r := r) h
  have hresult := putUndigits_result (r := r) (w := s.mWidth) (s := s.setBus bus)
  refine ⟨⟨_, (exec_adc s r o).trans (if_pos (by simp [hd])), ?_⟩,
    ⟨_, (exec_sbc s r o).trans (if_pos (by simp [hd])), ?_⟩⟩
  · rw [hbus, hadc]
    exact hresult
  · rw [hbus, hsbc]
    exact hresult

end Sys2Proof.Proofs

/-! Settles O42 to O45: MPY, MPYS, DIV and DIVS.  Each writes two W-bit halves to A and B with flags; what remains is
that the two's complement of a number in range has its quotient, remainder, sign and zero. -/

namespace Sys2Proof.Proofs

open Sys2Proof.Machine Sys2Proof.Safety

/-! ### Signed numbers of W bits -/

theorem signedOf_bounds {w : Width} {n : Nat} (h : n < 2 ^ bitsOf w) :
    -(2 ^ (bitsOf w - 1)) ≤ signedOf w n ∧ signedOf w n < 2 ^ (bitsOf w - 1) := by
  rw [signedOf]
  cases w
  all_goals
    simp only [bitsOf, Nat.reduceSub, Nat.reducePow, Int.reducePow] at *
    split_ifs <;> omega

/-- N and Z of a two's complement number are its sign and whether it is 0. -/
theorem showsNZ_twosComplement {w : Width} {q : Int} {t : State} (hlo : -(2 ^ (bitsOf w - 1)) ≤ q)
    (hhi : q < 2 ^ (bitsOf w - 1)) (h : ShowsNZ w (q % 2 ^ bitsOf w).toNat t) :
    t.flag .n = decide (q < 0) ∧ t.flag .z = decide (q = 0) := by
  obtain ⟨hn, hz⟩ := h
  rw [hn, hz, decide_eq_decide, decide_eq_decide]
  cases w
  all_goals
    simp only [bitsOf, Nat.reduceSub, Nat.reducePow, Int.reducePow] at *
    omega

/-! ### Products -/

/-- B and A take the halves of a product as they are (R252, R253). -/
theorem putProduct_result (w : Width) (p : Product) (s : State) (b : Bus) :
    WrittenAs w s.b (putProduct w p (s.setBus b)).b (valueOf w p.hi) ∧
      WrittenAs w s.a (putProduct w p (s.setBus b)).a (valueOf w p.lo) ∧
      (putProduct w p (s.setBus b)).flag .n = p.n ∧ (putProduct w p (s.setBus b)).flag .z = p.z ∧
      Frame [.a, .b] [.n, .z] nowhere s (putProduct w p (s.setBus b)) := by
  refine ⟨merge_written w s.b p.hi, merge_written w s.a p.lo, ?_, ?_, ?_⟩
  · simp [putProduct]
  · simp [putProduct]
  · exact frame_setFlag _ _ (by simp) (frame_setFlag _ _ (by simp) (frame_writeAcc s w .a _ (by simp [accReg])
      (frame_writeAcc s w .b _ (by simp [accReg]) (frame_setBus b (frame_refl _ _ _ s)))))

/-- The halves and the sign of a 2W-bit number. -/
theorem splitProduct_spec {w : Width} {p : Nat} (h : p < 2 ^ (2 * bitsOf w)) :
    valueOf w (splitProduct w p).hi = p / 2 ^ bitsOf w ∧ valueOf w (splitProduct w p).lo = p % 2 ^ bitsOf w ∧
      (splitProduct w p).n = decide (2 ^ (2 * bitsOf w - 1) ≤ p) ∧ (splitProduct w p).z = decide (p = 0) := by
  have hhi : p / 2 ^ bitsOf w % 2 ^ bitsOf w = p / 2 ^ bitsOf w :=
    Nat.mod_eq_of_lt (Nat.div_lt_of_lt_mul (by rwa [← pow_add, ← two_mul]))
  refine ⟨(valueOf_wordOf w _).trans hhi, valueOf_wordOf w p, ?_, rfl⟩
  rw [splitProduct, msb_eq, valueOf_wordOf, hhi, decide_eq_decide]
  cases w
  all_goals
    simp only [bitsOf, Nat.reduceSub, Nat.reduceMul, Nat.reducePow]
    omega

/-- Settles O42: the product of two W-bit numbers has 2W bits. -/
theorem mpyMultiplies : Obligations.MpyMultiplies := by
  intro o s
  obtain ⟨bus, hbus, hlt, -⟩ := operand_view s.mWidth o s
  refine ⟨_, exec_mpy s o, ?_⟩
  rintro w p rfl rfl
  have ha : ((s.setBus bus).readAcc s.mWidth .a).toNat = valueOf s.mWidth s.a := readAcc_toNat s s.mWidth .a
  have hp : valueOf s.mWidth s.a * (operand s.mWidth o s).1.toNat < 2 ^ (2 * bitsOf s.mWidth) := by
    rw [two_mul, pow_add]
    exact Nat.mul_lt_mul'' (valueOf_lt _ _) hlt
  obtain ⟨hhi, hlo, hn, hz⟩ := splitProduct_spec hp
  obtain ⟨hbw, haw, hfn, hfz, hframe⟩ := putProduct_result s.mWidth
    (splitProduct s.mWidth (valueOf s.mWidth s.a * (operand s.mWidth o s).1.toNat)) s bus
  rw [hhi] at hbw
  rw [hlo] at haw
  rw [hbus, mulUnsigned, ha]
  exact ⟨hbw, haw, by simp [hfn, hn], by simp [hfz, hz], by simp,
    frame_setFlag _ _ (by simp) (frame_mono hframe (by simp))⟩

/-- The halves and the sign of the two's complement of a product of signed W-bit numbers. -/
theorem splitProduct_signed {w : Width} {p : Int} (hlo : -(2 ^ (2 * bitsOf w - 2)) ≤ p)
    (hhi : p ≤ 2 ^ (2 * bitsOf w - 2)) :
    valueOf w (splitProduct w (p % (2 ^ (2 * bitsOf w) : Nat)).toNat).hi =
        (p / 2 ^ bitsOf w % 2 ^ bitsOf w).toNat ∧
      valueOf w (splitProduct w (p % (2 ^ (2 * bitsOf w) : Nat)).toNat).lo = (p % 2 ^ bitsOf w).toNat ∧
      (splitProduct w (p % (2 ^ (2 * bitsOf w) : Nat)).toNat).n = decide (p < 0) ∧
      (splitProduct w (p % (2 ^ (2 * bitsOf w) : Nat)).toNat).z = decide (p = 0) := by
  have hlt : (p % (2 ^ (2 * bitsOf w) : Nat)).toNat < 2 ^ (2 * bitsOf w) := by
    have := Nat.two_pow_pos (2 * bitsOf w)
    omega
  obtain ⟨h1, h2, h3, h4⟩ := splitProduct_spec hlt
  rw [h1, h2, h3, h4, decide_eq_decide, decide_eq_decide]
  cases w
  all_goals
    simp only [bitsOf, Nat.reduceSub, Nat.reduceMul, Nat.reducePow, Int.reducePow] at *
    omega

theorem signed_mul_bounds {w : Width} {m n : Nat} (hm : m < 2 ^ bitsOf w) (hn : n < 2 ^ bitsOf w) :
    -(2 ^ (2 * bitsOf w - 2)) ≤ signedOf w m * signedOf w n ∧
      signedOf w m * signedOf w n ≤ 2 ^ (2 * bitsOf w - 2) := by
  have habs : ∀ {k : Nat}, k < 2 ^ bitsOf w → |signedOf w k| ≤ 2 ^ (bitsOf w - 1) := fun hk => by
    obtain ⟨hlo, hhi⟩ := signedOf_bounds hk
    exact abs_le.mpr ⟨hlo, hhi.le⟩
  rw [← abs_le, abs_mul, show 2 * bitsOf w - 2 = (bitsOf w - 1) + (bitsOf w - 1) by omega, pow_add]
  exact mul_le_mul (habs hm) (habs hn) (abs_nonneg _) (by positivity)

theorem on7750_next {s : State} (h : s.chip.series = .s7750) (t : State) : on7750 s t = .next t := if_pos h

/-- Settles O43, as O42. -/
theorem mpysMultipliesSigned : Obligations.MpysMultipliesSigned := by
  intro o s hseries
  obtain ⟨bus, hbus, hlt, hvalue⟩ := operand_view s.mWidth o s
  refine ⟨_, (exec_mpys s o).trans (on7750_next hseries _), ?_⟩
  rintro w p rfl rfl
  have ha : signed s.mWidth ((s.setBus bus).readAcc s.mWidth .a) = signedOf s.mWidth (valueOf s.mWidth s.a) := by
    rw [signed_eq, State.readAcc, valueOf_narrow]
    rfl
  obtain ⟨hmin, hmax⟩ := signed_mul_bounds (valueOf_lt s.mWidth s.a) hlt
  obtain ⟨hhi, hlo, hn, hz⟩ := splitProduct_signed hmin hmax
  rw [hbus, mulSigned, ha, signed_eq, hvalue, ← hhi, ← hlo, ← hn, ← hz]
  exact putProduct_result s.mWidth _ s bus

/-! ### Quotients -/

/-- A quotient that fits: A and B take it and the remainder as they are (R254, R255). -/
theorem putQuotient_fits (w : Width) (q r : Word) (s : State) (b : Bus) :
    WrittenAs w s.a (putQuotient w (.fits q r) (s.setBus b)).a (valueOf w q) ∧
      WrittenAs w s.b (putQuotient w (.fits q r) (s.setBus b)).b (valueOf w r) ∧
      ShowsNZ w (valueOf w q) (putQuotient w (.fits q r) (s.setBus b)) ∧
      (putQuotient w (.fits q r) (s.setBus b)).flag .v = false ∧
      (putQuotient w (.fits q r) (s.setBus b)).flag .c = false ∧
      Frame [.a, .b] [.n, .v, .z, .c] nowhere s (putQuotient w (.fits q r) (s.setBus b)) := by
  refine ⟨merge_written w s.a q, merge_written w s.b r, ?_, ?_, ?_, ?_⟩
  · exact showsNZ_setFlag _ (by simp) (by simp) (showsNZ_setFlag _ (by simp) (by simp) (showsNZ_setNZ w q _))
  · simp [putQuotient]
  · simp [putQuotient]
  · exact frame_setFlag _ _ (by simp) (frame_setFlag _ _ (by simp) (frame_setNZ _ _ (by simp) (by simp)
      (frame_writeAcc s w .b _ (by simp [accReg]) (frame_writeAcc s w .a _ (by simp [accReg])
        (frame_setBus b (frame_refl _ _ _ s))))))

/-- A quotient that does not fit: V and C are set, and the W bits of A and B are drawn (D24). -/
theorem putQuotient_overflow (w : Width) (s : State) (b : Bus) :
    (putQuotient w .overflow (s.setBus b)).flag .v = true ∧ (putQuotient w .overflow (s.setBus b)).flag .c = true ∧
      (w = .w8 → hiByte (putQuotient w .overflow (s.setBus b)).a = hiByte s.a ∧
        hiByte (putQuotient w .overflow (s.setBus b)).b = hiByte s.b) ∧
      Frame [.a, .b] [.v, .c] nowhere s (putQuotient w .overflow (s.setBus b)) := by
  refine ⟨?_, ?_, fun hw => ⟨(merge_written w s.a _).2 hw, (merge_written w s.b _).2 hw⟩, ?_⟩
  · simp [putQuotient, drawWord, State.writeAcc, State.setAcc, State.drawn]
  · simp [putQuotient, drawWord, State.writeAcc, State.setAcc, State.drawn]
  · exact frame_writeAcc s w .b _ (by simp [accReg]) (frame_writeAcc s w .a _ (by simp [accReg])
      (frame_setBus _ (frame_setBus _ (frame_setFlag _ _ (by simp) (frame_setFlag _ _ (by simp)
        (frame_setBus b (frame_refl _ _ _ s)))))))

/-- Settles O44: a remainder is less than the divisor, and so it has W bits. -/
theorem divDivides : Obligations.DivDivides := by
  rintro o s w n d rfl hd hzero hn
  obtain ⟨bus, hbus, hlt, -⟩ := operand_view s.mWidth o s
  have ha : ((s.setBus bus).readAcc s.mWidth .a).toNat = valueOf s.mWidth s.a := readAcc_toNat s s.mWidth .a
  have hb : ((s.setBus bus).readAcc s.mWidth .b).toNat = valueOf s.mWidth s.b := readAcc_toNat s s.mWidth .b
  have hdiv : divUnsigned s.mWidth ((s.setBus bus).readAcc s.mWidth .b) ((s.setBus bus).readAcc s.mWidth .a)
      (operand s.mWidth o s).1 = if 2 ^ bitsOf s.mWidth ≤ n / d then .overflow
        else .fits (wordOf s.mWidth (n / d)) (wordOf s.mWidth (n % d)) := by
    rw [divUnsigned, ha, hb, ← hn, ← hd]
  refine ⟨_, (exec_div s o).trans (if_neg fun h => hzero (by rw [hd, h]; rfl)), fun hfits => ?_, fun hover => ?_⟩
  · have hrem := (Nat.mod_lt n (Nat.pos_of_ne_zero hzero)).trans (hd.trans_lt hlt)
    have hresult := putQuotient_fits s.mWidth (wordOf s.mWidth (n / d)) (wordOf s.mWidth (n % d)) s bus
    rw [valueOf_wordOf, valueOf_wordOf, Nat.mod_eq_of_lt hfits, Nat.mod_eq_of_lt hrem] at hresult
    rw [hbus, hdiv, if_neg hfits.not_ge]
    exact hresult
  · rw [hbus, hdiv, if_pos hover]
    exact putQuotient_overflow s.mWidth s bus

/-- The signed dividend: the sign is in the upper half (`sgn_2W` of R255). -/
theorem signedPair_eq {w : Width} {hi lo : Word} (h : hi.toNat < 2 ^ bitsOf w) :
    signedPair w hi lo = signedOf w hi.toNat * 2 ^ bitsOf w + lo.toNat := by
  simp only [signedPair, signedOf, msb_eq, valueOf_of_lt w hi h, decide_eq_true_eq]
  cases w
  all_goals
    simp only [bitsOf, Nat.reduceSub, Nat.reduceMul, Nat.reducePow, Int.reducePow]
    split_ifs <;> omega

/-- R255 with the signed numbers of the statements. -/
theorem divSigned_eq {w : Width} {hi lo d : Word} (h : hi.toNat < 2 ^ bitsOf w) {n e : Int}
    (hn : n = signedOf w hi.toNat * 2 ^ bitsOf w + lo.toNat) (he : e = signedOf w (valueOf w d)) :
    divSigned w hi lo d =
      if n.tdiv e < -(2 ^ (bitsOf w - 1)) ∨ 2 ^ (bitsOf w - 1) ≤ n.tdiv e then .overflow
      else .fits (wordOfInt w (n.tdiv e)) (wordOfInt w (n.tmod e)) := by
  subst hn he
  simp only [divSigned, signedPair_eq h, signed_eq, Int.sub_one_lt_iff, Nat.cast_pow, Nat.cast_ofNat]

/-- Settles O45: a quotient that fits has the sign and the zero of its two's complement. -/
theorem divsDividesSigned : Obligations.DivsDividesSigned := by
  rintro o s w n d hseries rfl hd hzero hn
  obtain ⟨bus, hbus, -, hvalue⟩ := operand_view s.mWidth o s
  have ha : ((s.setBus bus).readAcc s.mWidth .a).toNat = valueOf s.mWidth s.a := readAcc_toNat s s.mWidth .a
  have hb : ((s.setBus bus).readAcc s.mWidth .b).toNat = valueOf s.mWidth s.b := readAcc_toNat s s.mWidth .b
  have hdiv := divSigned_eq (hi := (s.setBus bus).readAcc s.mWidth .b) (narrow_lt s.mWidth _) (hb ▸ ha ▸ hn)
    (hvalue ▸ hd)
  have hne : ¬ (operand s.mWidth o s).1 = 0#16 := fun h => hzero (by rw [hd, h]; cases s.mWidth <;> rfl)
  refine ⟨_, (exec_divs s o).trans ((if_neg hne).trans (on7750_next hseries _)), fun ⟨hmin, hmax⟩ => ?_,
    fun hover => ?_⟩
  · obtain ⟨hacca, haccb, hnz, hv, hc, hframe⟩ := putQuotient_fits s.mWidth (wordOfInt s.mWidth (n.tdiv d))
      (wordOfInt s.mWidth (n.tmod d)) s bus
    rw [valueOf_wordOfInt] at hacca haccb hnz
    obtain ⟨hfn, hfz⟩ := showsNZ_twosComplement hmin hmax hnz
    rw [hbus, hdiv, if_neg (by omega)]
    exact ⟨hacca, haccb, hfn, hfz, hv, hc, hframe⟩
  · rw [hbus, hdiv, if_pos hover]
    exact putQuotient_overflow s.mWidth s bus

end Sys2Proof.Proofs

/-! Settles O41 and O47 to O51: increments, logic, comparisons, shifts and extensions.  Most are a load of a register
or a write back to the target with a value computed from the W bits read; what remains is that value as a number. -/

namespace Sys2Proof.Proofs

open Sys2Proof.Machine Sys2Proof.Safety

/-! ### Increment and decrement -/

theorem valueOf_incr (w : Width) (v : Word) : valueOf w (incr w v) = (v.toNat + 1) % 2 ^ bitsOf w := by
  have hone : (1 : Word).toNat = 1 := rfl
  rw [incr, valueOf_narrow, valueOf, BitVec.toNat_add, hone]
  cases w
  all_goals
    simp only [bitsOf]
    omega

theorem valueOf_decr (w : Width) (v : Word) :
    valueOf w (decr w v) = (v.toNat + (2 ^ bitsOf w - 1)) % 2 ^ bitsOf w := by
  have hone : (1 : Word).toNat = 1 := rfl
  rw [decr, valueOf_narrow, valueOf, BitVec.toNat_sub, hone]
  cases w
  all_goals
    simp only [bitsOf]
    omega

/-- Read, compute, write back, with N and Z of what was written. -/
theorem modify_setNZ_result {w : Width} {tg : Target} {f : Word → Word} {flags : List Flag} {n : Nat} {s : State}
    (hn : Flag.n ∈ flags) (hz : Flag.z ∈ flags) (hval : valueOf w (f (modify w tg f s).1) = n) :
    Rewrites w tg n flags s ((modify w tg f s).2.setNZ w (f (modify w tg f s).1)) ∧
      ShowsNZ w n ((modify w tg f s).2.setNZ w (f (modify w tg f s).1)) := by
  refine ⟨rewrites_setFlag _ _ _ _ _ _ _ _ hz (rewrites_setFlag _ _ _ _ _ _ _ _ hn
    (modify_rewrites w tg f flags n s hval)), ?_⟩
  rw [← hval]
  exact showsNZ_setNZ w _ _

/-- Settles O41: a target read, computed and written back, or an index register loaded. -/
theorem incrementAndDecrement : Obligations.IncrementAndDecrement := by
  intro s
  refine ⟨?_, ?_, ⟨_, rfl, ?_⟩, ⟨_, rfl, ?_⟩, ⟨_, rfl, ?_⟩, ⟨_, rfl, ?_⟩⟩
  · rintro tg n rfl
    exact ⟨_, exec_inc s tg, modify_setNZ_result (by simp) (by simp) (by rw [valueOf_incr, modify_fst])⟩
  · rintro tg n rfl
    exact ⟨_, exec_dec s tg, modify_setNZ_result (by simp) (by simp) (by rw [valueOf_decr, modify_fst])⟩
  · rw [← indexX_toNat, ← valueOf_incr]
    exact (loadX_result s _).1
  · rw [← indexX_toNat, ← valueOf_decr]
    exact (loadX_result s _).1
  · rw [← indexY_toNat, ← valueOf_incr]
    exact (loadY_result s _).1
  · rw [← indexY_toNat, ← valueOf_decr]
    exact (loadY_result s _).1

/-! ### Logic -/

/-- A combination of two W-bit values that is a W-bit value goes to the accumulator. -/
theorem combine_result {f : Word → Word → Word} {g : Nat → Nat → Nat} (r : Acc) (o : Operand) (s : State)
    (hfg : ∀ u v, (f u v).toNat = g u.toNat v.toNat)
    (hlt : ∀ {m n k}, m < 2 ^ k → n < 2 ^ k → g m n < 2 ^ k) :
    LoadsAcc r (g (valueOf s.mWidth (s.acc r)) (operand s.mWidth o s).1.toNat) s (combine f r o s) := by
  obtain ⟨bus, hbus, hop, -⟩ := operand_view s.mWidth o s
  have hg : (f (s.readAcc s.mWidth r) (operand s.mWidth o s).1).toNat =
      g (valueOf s.mWidth (s.acc r)) (operand s.mWidth o s).1.toNat := by rw [hfg, readAcc_toNat]
  rw [combine_eq, hbus, ← hg, ← valueOf_of_lt s.mWidth _ (hg ▸ hlt (valueOf_lt _ _) hop)]
  exact loadAcc_spec s bus _ r

/-- Settles O47: bitwise operations on words are those on numbers, and they stay within W bits. -/
theorem logicInstructions : Obligations.LogicInstructions := by
  intro r o s
  exact ⟨⟨_, rfl, combine_result r o s BitVec.toNat_and fun _ hn => Nat.and_lt_two_pow _ hn⟩,
    ⟨_, rfl, combine_result r o s BitVec.toNat_or Nat.or_lt_two_pow⟩,
    ⟨_, rfl, combine_result r o s BitVec.toNat_xor Nat.xor_lt_two_pow⟩⟩

/-! ### Comparisons -/

/-- A comparison shows the difference of its operands and changes no register (R259). -/
theorem putCompare_result (w : Width) (a b : Word) (s : State) (bus : Bus) :
    ShowsNZ w (((a.toNat : Int) - b.toNat) % 2 ^ bitsOf w).toNat
        (putCompare w (compareValues w a b) (s.setBus bus)) ∧
      (putCompare w (compareValues w a b) (s.setBus bus)).flag .c = decide (0 ≤ (a.toNat : Int) - b.toNat) ∧
      Frame [] [.n, .z, .c] nowhere s (putCompare w (compareValues w a b) (s.setBus bus)) := by
  have hval : valueOf w (compareValues w a b).r = (((a.toNat : Int) - b.toNat) % 2 ^ bitsOf w).toNat := by
    rw [compareValues, valueOf_subBinary, if_pos rfl, sub_zero]
  refine ⟨?_, ?_, frame_setFlag _ _ (by simp) (frame_setNZ _ _ (by simp) (by simp)
    (frame_setBus bus (frame_refl _ _ _ s)))⟩
  · rw [← hval]
    exact showsNZ_setFlag _ (by simp) (by simp) (showsNZ_setNZ w _ _)
  · rw [putCompare, flag_setFlag, if_pos rfl, compareValues, subBinary_carry, if_pos rfl, sub_zero]

/-- Settles O48: the three differ in the register alone. -/
theorem compareInstructions : Obligations.CompareInstructions := by
  intro o s
  obtain ⟨mbus, hmbus, -⟩ := operand_view s.mWidth o s
  obtain ⟨xbus, hxbus, -⟩ := operand_view s.xWidth o s
  refine ⟨fun r => ⟨_, exec_cmp s r o, ?_⟩, ⟨_, exec_cpx s o, ?_⟩, ⟨_, exec_cpy s o, ?_⟩⟩
  · obtain ⟨hnz, hc, hframe⟩ := putCompare_result s.mWidth (s.readAcc s.mWidth r) (operand s.mWidth o s).1 s mbus
    rw [readAcc_toNat] at hnz hc
    rw [hmbus]
    exact ⟨by rintro w e rfl rfl; exact ⟨hnz, hc⟩, hframe⟩
  · obtain ⟨hnz, hc, hframe⟩ := putCompare_result s.xWidth s.indexX (operand s.xWidth o s).1 s xbus
    rw [indexX_toNat] at hnz hc
    rw [hxbus]
    exact ⟨by rintro w e rfl rfl; exact ⟨hnz, hc⟩, hframe⟩
  · obtain ⟨hnz, hc, hframe⟩ := putCompare_result s.xWidth s.indexY (operand s.xWidth o s).1 s xbus
    rw [indexY_toNat] at hnz hc
    rw [hxbus]
    exact ⟨by rintro w e rfl rfl; exact ⟨hnz, hc⟩, hframe⟩

/-! ### Shifts and rotates by one place -/

/-- Bits that do not overlap are added. -/
theorem or_toNat_of_disjoint {u v : Word} {i k : Nat} (hu : u.toNat = 2 ^ i * k) (hv : v.toNat < 2 ^ i) :
    (u ||| v).toNat = 2 ^ i * k + v.toNat := by
  rw [BitVec.toNat_or, hu, Nat.two_pow_add_eq_or_of_lt hv]

section
variable {w : Width} {v : Word} {cin : Bool}

theorem lowBit_toNat : (lowBit cin).toNat = cin.toNat := by cases cin <;> rfl

theorem topBit_toNat : (topBit w cin).toNat = 2 ^ (bitsOf w - 1) * cin.toNat := by cases w <;> cases cin <;> rfl

/-- The bit that leaves to the right is the lowest one. -/
theorem getLsbD_zero_eq : v.getLsbD 0 = decide (v.toNat % 2 = 1) := by
  rw [BitVec.getLsbD, Nat.testBit_zero]

/-- What is shifted to the left leaves bit 0 free. -/
theorem narrow_shiftLeft_one_toNat : (narrow w (v <<< 1)).toNat = 2 ^ 1 * (v.toNat % 2 ^ (bitsOf w - 1)) := by
  rw [narrow_toNat, BitVec.toNat_shiftLeft, Nat.shiftLeft_eq]
  cases w
  all_goals
    simp only [bitsOf]
    omega

/-- What is shifted to the right leaves bit `W - 1` free. -/
theorem half_lt {n : Nat} (h : n < 2 ^ bitsOf w) : n / 2 < 2 ^ (bitsOf w - 1) := by
  cases w
  all_goals
    simp only [bitsOf] at *
    omega

theorem narrow_ushiftRight_one_toNat (h : v.toNat < 2 ^ bitsOf w) : (narrow w v >>> 1).toNat = v.toNat / 2 := by
  rw [BitVec.toNat_ushiftRight, narrow_toNat, Nat.mod_eq_of_lt h, Nat.shiftRight_eq_div_pow, pow_one]

theorem two_mul_mod : 2 ^ 1 * (v.toNat % 2 ^ (bitsOf w - 1)) = 2 * v.toNat % 2 ^ bitsOf w := by
  cases w
  all_goals
    simp only [bitsOf]
    omega

/-- R262. -/
theorem shiftLeft_spec (h : v.toNat < 2 ^ bitsOf w) :
    valueOf w (shiftLeft w v).r = 2 * v.toNat % 2 ^ bitsOf w ∧
      (shiftLeft w v).c = decide (2 ^ (bitsOf w - 1) ≤ v.toNat) := by
  rw [shiftLeft, msb_eq, valueOf_of_lt w v h, valueOf_of_lt w _ (narrow_lt w _), narrow_shiftLeft_one_toNat,
    two_mul_mod]
  exact ⟨rfl, rfl⟩

/-- R265. -/
theorem rotateLeftC_spec (h : v.toNat < 2 ^ bitsOf w) :
    valueOf w (rotateLeftC w v cin).r = 2 * v.toNat % 2 ^ bitsOf w + cin.toNat ∧
      (rotateLeftC w v cin).c = decide (2 ^ (bitsOf w - 1) ≤ v.toNat) := by
  have hcin := cin.toNat_lt
  have hor := or_toNat_of_disjoint (narrow_shiftLeft_one_toNat (w := w) (v := v)) (lowBit_toNat.trans_lt hcin)
  rw [two_mul_mod, lowBit_toNat] at hor
  rw [rotateLeftC, msb_eq, valueOf_of_lt w v h, valueOf_of_lt, hor]
  · exact ⟨rfl, rfl⟩
  · rw [hor]
    cases w
    all_goals
      simp only [bitsOf]
      omega

/-- A bit that comes in at the top of what is shifted to the right is added. -/
theorem valueOf_ushiftRight_or_topBit (h : v.toNat < 2 ^ bitsOf w) :
    valueOf w (narrow w v >>> 1 ||| topBit w cin) = v.toNat / 2 + cin.toNat * 2 ^ (bitsOf w - 1) := by
  have hcin := cin.toNat_lt
  have hshift := narrow_ushiftRight_one_toNat h
  have hor := or_toNat_of_disjoint (topBit_toNat (w := w) (cin := cin)) (hshift.trans_lt (half_lt h))
  rw [hshift, BitVec.or_comm, Nat.add_comm, Nat.mul_comm] at hor
  rw [valueOf_of_lt, hor]
  rw [hor]
  cases w
  all_goals
    simp only [bitsOf] at *
    omega

/-- R264. -/
theorem shiftRightLogic_spec (h : v.toNat < 2 ^ bitsOf w) :
    valueOf w (shiftRightLogic w v).r = v.toNat / 2 ∧ (shiftRightLogic w v).c = decide (v.toNat % 2 = 1) := by
  have hor := valueOf_ushiftRight_or_topBit (cin := false) h
  simp only [topBit, Bool.false_eq_true, if_false, BitVec.or_zero, Bool.toNat_false, zero_mul, add_zero] at hor
  exact ⟨hor, getLsbD_zero_eq⟩

/-- R266. -/
theorem rotateRightC_spec (h : v.toNat < 2 ^ bitsOf w) :
    valueOf w (rotateRightC w v cin).r = v.toNat / 2 + cin.toNat * 2 ^ (bitsOf w - 1) ∧
      (rotateRightC w v cin).c = decide (v.toNat % 2 = 1) :=
  ⟨valueOf_ushiftRight_or_topBit h, getLsbD_zero_eq⟩

/-- R263. -/
theorem shiftRightArith_spec (h : v.toNat < 2 ^ bitsOf w) :
    valueOf w (shiftRightArith w v).r =
        v.toNat / 2 + (if 2 ^ (bitsOf w - 1) ≤ v.toNat then 2 ^ (bitsOf w - 1) else 0) ∧
      (shiftRightArith w v).c = decide (v.toNat % 2 = 1) := by
  refine ⟨?_, getLsbD_zero_eq⟩
  rw [shiftRightArith, valueOf_ushiftRight_or_topBit h, msb_eq, valueOf_of_lt w v h]
  split_ifs with hsign <;> simp [hsign]

end

/-- A shift or rotate writes its W bits back to the target, with N, Z and C. -/
theorem shiftBy_result {f : Width → Word → Shifted} {tg : Target} {s : State} {n : Nat} {c : Bool}
    (h : ∀ u : Word, u.toNat = targetValue s.mWidth tg s → u.toNat < 2 ^ bitsOf s.mWidth →
      valueOf s.mWidth (f s.mWidth u).r = n ∧ (f s.mWidth u).c = c) :
    Rewrites s.mWidth tg n [.n, .z, .c] s (shiftBy f tg s) ∧ ShowsNZ s.mWidth n (shiftBy f tg s) ∧
      (shiftBy f tg s).flag .c = c := by
  obtain ⟨hval, hc⟩ := h _ (modify_fst s.mWidth tg (fun v => (f s.mWidth v).r) s) (modify_fst_lt _ _ _ _)
  obtain ⟨hrewrites, hnz⟩ := modify_setNZ_result (f := fun v => (f s.mWidth v).r) (flags := [.n, .z, .c])
    (by simp) (by simp) hval
  rw [shiftBy_eq]
  exact ⟨rewrites_setFlag _ _ _ _ _ _ _ _ (by simp) hrewrites, showsNZ_setFlag _ (by simp) (by simp) hnz,
    by rw [flag_setFlag, if_pos rfl, hc]⟩

theorem targetValue_lt (w : Width) (tg : Target) (s : State) : targetValue w tg s < 2 ^ bitsOf w := by
  rw [← modify_fst w tg id]
  exact modify_fst_lt w tg id s

/-- Settles O49: each is the shift of a W-bit value, as a number; what LSR gives has no sign. -/
theorem shiftInstructions : Obligations.ShiftInstructions := by
  rintro tg s w v h c rfl rfl rfl rfl
  obtain ⟨hrewrites, ⟨hn, hz⟩, hc⟩ := shiftBy_result (f := shiftRightLogic) (tg := tg) (s := s)
    fun u hu hlt => hu ▸ shiftRightLogic_spec hlt
  have hsign := decide_eq_false (half_lt (targetValue_lt s.mWidth tg s)).not_ge
  exact ⟨⟨_, rfl, shiftBy_result fun u hu hlt => hu ▸ shiftLeft_spec hlt⟩,
    ⟨_, rfl, shiftBy_result fun u hu hlt => hu ▸ rotateLeftC_spec hlt⟩,
    ⟨_, rfl, hrewrites, hn.trans hsign, hz, hc⟩,
    ⟨_, rfl, shiftBy_result fun u hu hlt => hu ▸ rotateRightC_spec hlt⟩,
    fun hseries => ⟨_, on7750_next hseries _, shiftBy_result fun u hu hlt => hu ▸ shiftRightArith_spec hlt⟩⟩

/-! ### Rotation by a count (R267) -/

/-- The bits that leave at the top come in at the bottom. -/
theorem valueOf_rotate {w : Width} {k : Nat} (v : Word) (hk : k < bitsOf w) :
    valueOf w (narrow w (narrow w v <<< k) ||| narrow w v >>> (bitsOf w - k)) =
      valueOf w v * 2 ^ k % 2 ^ bitsOf w + valueOf w v / 2 ^ (bitsOf w - k) := by
  have hpow : 2 ^ bitsOf w = 2 ^ k * 2 ^ (bitsOf w - k) := by rw [← pow_add, Nat.add_sub_cancel' hk.le]
  have hdvd : 2 ^ bitsOf w ∣ 2 ^ 16 := by cases w <;> decide
  have hleft : (narrow w (narrow w v <<< k)).toNat = 2 ^ k * (valueOf w v % 2 ^ (bitsOf w - k)) := by
    rw [narrow_toNat, BitVec.toNat_shiftLeft, narrow_toNat_valueOf, Nat.shiftLeft_eq, Nat.mod_mod_of_dvd _ hdvd,
      hpow, Nat.mul_comm, Nat.mul_mod_mul_left]
  have hright : (narrow w v >>> (bitsOf w - k)).toNat = valueOf w v / 2 ^ (bitsOf w - k) := by
    rw [BitVec.toNat_ushiftRight, narrow_toNat_valueOf, Nat.shiftRight_eq_div_pow]
  have hlt : valueOf w v / 2 ^ (bitsOf w - k) < 2 ^ k :=
    Nat.div_lt_of_lt_mul (by rw [Nat.mul_comm, ← hpow]; exact valueOf_lt w v)
  have hor := or_toNat_of_disjoint hleft (hright.trans_lt hlt)
  rw [← Nat.mul_mod_mul_left, ← hpow, Nat.mul_comm, hright] at hor
  rw [valueOf_of_lt, hor]
  rw [BitVec.toNat_or]
  exact Nat.or_lt_two_pow (narrow_lt w _) (hright.trans_lt ((Nat.div_le_self _ _).trans_lt (valueOf_lt w v)))

/-- Settles O50: the immediate is in A's W bits, and no flag is written. -/
theorem rlaRotates : Obligations.RlaRotates := by
  rintro i s w v k rfl rfl rfl
  have hcount : (narrow s.mWidth (immValue i)).toNat = valueOf s.mWidth (immValue i) := narrow_toNat_valueOf _ _
  have hpos : 0 < bitsOf s.mWidth := by cases s.mWidth <;> decide
  refine ⟨_, rfl, ?_, frame_writeAcc s _ .a _ (by simp [accReg]) (frame_refl _ _ _ s), rfl⟩
  rw [← valueOf_rotate s.a (Nat.mod_lt _ hpos), ← hcount]
  exact writeAcc_written s s.mWidth .a _

/-! ### Extensions to 16 bits (R288, R289) -/

/-- An accumulator written whole with N and Z of 16 bits, whatever m is. -/
theorem setAcc_setNZ_result (r : Acc) (v : Word) (s : State) :
    ((s.setAcc r v).setNZ .w16 v).acc r = v ∧
      ((s.setAcc r v).setNZ .w16 v).flag .n = decide (0x8000 ≤ v.toNat) ∧
      ((s.setAcc r v).setNZ .w16 v).flag .z = decide (v.toNat = 0) ∧
      Frame [accReg r] [.n, .z] nowhere s ((s.setAcc r v).setNZ .w16 v) ∧
      ((s.setAcc r v).setNZ .w16 v).bus = s.bus := by
  have hval : valueOf .w16 v = v.toNat := valueOf_of_lt .w16 v v.isLt
  obtain ⟨hn, hz⟩ := showsNZ_setNZ .w16 v (s.setAcc r v)
  rw [hval] at hn hz
  exact ⟨by simp, hn, hz, frame_setNZ _ _ (by simp) (by simp) (frame_setAcc r v (by simp) (frame_refl _ _ _ s)),
    by cases r <;> rfl⟩

theorem signExtend_toNat (v : Byte) :
    (v.signExtend 16).toNat = if v.toNat < 128 then v.toNat else v.toNat + 0xFF00 := by
  rw [BitVec.toNat_signExtend, BitVec.toNat_setWidth_of_le (by decide), BitVec.msb_eq_decide]
  split_ifs with h1 h2 h2
  all_goals
    simp only [decide_eq_true_eq] at h1
    omega

/-- Settles O51: the two differ in the extension alone. -/
theorem extendInstructions : Obligations.ExtendInstructions := by
  rintro r s n hseries rfl
  have hbyte := (loByte (s.acc r)).isLt
  refine ⟨⟨_, on7750_next hseries _, ?_⟩, ⟨_, on7750_next hseries _, ?_⟩⟩
  · obtain ⟨hacc, hn, hz, hframe⟩ := setAcc_setNZ_result r ((loByte (s.acc r)).signExtend 16) s
    rw [signExtend_toNat] at hn hz
    refine ⟨(congrArg BitVec.toNat hacc).trans (signExtend_toNat _), hn.trans ?_, hz.trans ?_, hframe⟩
    all_goals
      rw [decide_eq_decide]
      split <;> omega
  · obtain ⟨hacc, hn, hz, hframe⟩ := setAcc_setNZ_result r ((loByte (s.acc r)).setWidth 16) s
    have hval : ((loByte (s.acc r)).setWidth 16).toNat = (loByte (s.acc r)).toNat :=
      BitVec.toNat_setWidth_of_le (by decide)
    rw [hval] at hn hz
    exact ⟨(congrArg BitVec.toNat hacc).trans hval, hn.trans (decide_eq_false (by omega)), hz, hframe⟩

end Sys2Proof.Proofs

/-! Settles O53 and O54: CLB and SEB are a read, a computation and a write back; CLP and SEP write PSL, and the others
write one flag. -/

namespace Sys2Proof.Proofs

open Sys2Proof.Machine Sys2Proof.Safety

/-! ### Bits of memory (R301, R302) -/

/-- Settles O53: both are a write back of a function of the datum that was read. -/
theorem bitInstructions : Obligations.BitInstructions := fun mask mode s =>
  ⟨⟨_, rfl, modify_result s.mWidth mode (fun v => v &&& ~~~immValue mask) s⟩,
    ⟨_, rfl, modify_result s.mWidth mode (fun v => v ||| immValue mask) s⟩⟩

/-! ### Flags (R303 to R311) -/

theorem flagBit_lt (f : Flag) : flagBit f < 8 := by cases f <;> decide

theorem keepsAllBut_setPsl (s : State) (v : Byte) : KeepsAllBut [] nowhere s (s.setPsl v) :=
  frame_setPs _ (frame_refl [] [] nowhere s).1

/-- What CLP leaves of a flag. -/
theorem flag_setPsl_clear (s : State) (mask : Byte) (f : Flag) :
    (s.setPsl (s.psl &&& ~~~mask)).flag f = (s.flag f && !mask.getLsbD (flagBit f)) := by
  rw [flag_setPsl, BitVec.getLsbD_and, psl_getLsbD, BitVec.getLsbD_not, decide_eq_true (flagBit_lt f), Bool.true_and]

/-- What SEP makes of a flag. -/
theorem flag_setPsl_set (s : State) (mask : Byte) (f : Flag) :
    (s.setPsl (s.psl ||| mask)).flag f = (s.flag f || mask.getLsbD (flagBit f)) := by
  rw [flag_setPsl, BitVec.getLsbD_or, psl_getLsbD]

/-- One flag written, and nothing else. -/
theorem setFlag_result (s : State) (f : Flag) (v : Bool) :
    (s.setFlag f v).flag f = v ∧ Frame [] [f] nowhere s (s.setFlag f v) ∧ (s.setFlag f v).bus = s.bus :=
  ⟨(flag_setFlag s f f v).trans (if_pos rfl), frame_setFlag f v (by simp) (frame_refl _ _ _ s), rfl⟩

/-- Settles O54: CLP and SEP by the bits of PSL, the others by the one flag that they write. -/
theorem flagInstructions : Obligations.FlagInstructions := fun s =>
  ⟨fun mask => ⟨_, rfl, flag_setPsl_clear s mask, ipl_setPsl s _, keepsAllBut_setPsl s _, rfl⟩,
    fun mask => ⟨_, rfl, flag_setPsl_set s mask, ipl_setPsl s _, keepsAllBut_setPsl s _, rfl⟩,
    ⟨_, rfl, setFlag_result s .c false⟩, ⟨_, rfl, setFlag_result s .c true⟩,
    ⟨_, rfl, setFlag_result s .m false⟩, ⟨_, rfl, setFlag_result s .m true⟩,
    ⟨_, rfl, setFlag_result s .i false⟩, ⟨_, rfl, setFlag_result s .i true⟩,
    ⟨_, rfl, setFlag_result s .v false⟩⟩

end Sys2Proof.Proofs

/-! Settles O55 to O58: jumps, calls, branches and returns.  A call is a list of pushes and then a jump; RTI is PLP and
then RTL, so that the pulls of PC and PG are stated once. -/

namespace Sys2Proof.Proofs

open Sys2Proof.Machine Sys2Proof.Safety

/-! ### Jumps (R331) -/

section
variable {s : State}

/-- The pointer of `(mmll,X)`, with its index as a number (R76, R100). -/
theorem pointerX_eq (s : State) (a : Word) :
    s.pointerX a = mkAddr s.pg (BitVec.ofNat 16 (a.toNat + valueOf s.xWidth s.x)) := by
  rw [State.pointerX, add_indexX]

theorem jumpThrough_pc {p : Addr} (h : givesFrom 2 s p) : (jumpThrough p s).pc = wordAt s p :=
  congrArg State.pc (jumpThrough_gives p s h)

theorem jumpTo_indL_frame (a : Word) : Frame [.pc, .pg] [] nowhere s (jumpTo (.indL a) s) := by
  obtain ⟨b, hb⟩ := read24_spec (mkAddr s.chip.absIndBank a) s
  rw [jumpTo_indL, hb]
  exact frame_goto _ (by simp) (by simp) (frame_setBus b (frame_refl _ _ _ s))

theorem jumpTo_indL_pcAddr {a : Word} (h : givesFrom 3 s (mkAddr s.chip.absIndBank a)) :
    (jumpTo (.indL a) s).pcAddr = longAt s (mkAddr s.chip.absIndBank a) := by
  rw [jumpTo_indL, goto_pcAddr, read24_gives _ s h]

end

/-- Settles O55, mode by mode. -/
theorem jmpJumps : Obligations.JmpJumps := by
  intro a l s
  refine ⟨⟨_, rfl, rfl, frame_setPc a (by simp) (frame_refl _ _ _ s)⟩,
    ⟨_, rfl, goto_pcAddr s l, frame_goto l (by simp) (by simp) (frame_refl _ _ _ s)⟩,
    ⟨_, rfl, jumpThrough_frame _ s (by simp), jumpThrough_pc⟩,
    ⟨_, rfl, jumpTo_indL_frame a, jumpTo_indL_pcAddr⟩,
    ⟨_, rfl, jumpThrough_frame _ s (by simp), fun p hp h => ?_⟩⟩
  rw [← pointerX_eq] at hp
  subst hp
  exact jumpThrough_pc h

/-! ### Calls (R334) -/

section
variable {regs regs' all : List Reg} {stored : Addr → Prop} {bs : List Byte} {s t u : State}

/-- What two updates one after the other keep, the second of which stores nothing. -/
theorem keepsAllBut_trans (hst : KeepsAllBut regs stored s t) (htu : KeepsAllBut regs' nowhere t u)
    (hregs : regs ⊆ all) (hregs' : regs' ⊆ all) : KeepsAllBut all stored s u := by
  obtain ⟨hreg, hmem, hrun, hchip, hirq⟩ := hst
  obtain ⟨hreg', hmem', hrun', hchip', hirq'⟩ := htu
  exact ⟨fun r hr => (hreg' r fun h => hr (hregs' h)).trans (hreg r fun h => hr (hregs h)),
    fun p hp => (hmem' p id).trans (hmem p hp), hrun'.trans hrun, hchip'.trans hchip, hirq'.trans hirq⟩

/-- Bytes pushed and then a jump, which keeps S and what was pushed. -/
theorem pushed_then_jump (hsp : Reg.sp ∉ regs) (hpush : PushResult bs s t) (hjump : Frame regs [] nowhere t u) :
    Pushed bs s u ∧ Frame (regs ++ [.sp]) [] (stackSpan bs.length s.sp) s u := by
  obtain ⟨⟨hspOf, hbytes⟩, hkeeps, hflags, hipl⟩ := hpush
  obtain ⟨hkeeps', hflags', hipl'⟩ := hjump
  have ⟨hreg', hmem', _⟩ := hkeeps'
  refine ⟨⟨(BitVec.eq_of_toNat_eq (hreg' .sp hsp)).trans hspOf, fun k v hk => (hmem' _ id).trans (hbytes k v hk)⟩,
    keepsAllBut_trans hkeeps hkeeps' (by simp) (by simp), fun f hf => (hflags' f hf).trans (hflags f hf),
    hipl'.trans hipl⟩

/-- The jump moves PC alone, so that the pointer reads after the call as it did for the jump. -/
theorem wordAt_jumpThrough (p q : Addr) : wordAt (jumpThrough p s) q = wordAt s q := by
  obtain ⟨b, hb⟩ := read16_spec p s
  rw [jumpThrough_eq, hb]
  rfl

/-- A push changes none of what the pointer of `(mmll,X)` is made of. -/
theorem pointerX_push16 (v a : Word) : (push16 v s).pointerX a = s.pointerX a := by
  obtain ⟨m, b, h, -⟩ := pushAll_spec [hiByte v, loByte v] s (by simp)
  rw [push16_eq, h]
  rfl

end

/-- Settles O56: the return address pushed, then the jump, whose pointer is read after the push. -/
theorem jsrCalls : Obligations.JsrCalls := by
  intro a l s
  have hpush := push16_result s.pc s
  have hpushL := pushAll_result [s.pg, hiByte s.pc, loByte s.pc] s (by simp)
  obtain ⟨hpushed, hframe⟩ := pushed_then_jump (regs := [.pc]) (by simp) hpush
    (frame_setPc a (by simp) (frame_refl _ _ _ (push16 s.pc s)))
  obtain ⟨hpushedL, hframeL⟩ := pushed_then_jump (regs := [.pc, .pg]) (by simp) hpushL
    (frame_goto l (by simp) (by simp) (frame_refl _ _ _ _))
  obtain ⟨hpushedX, hframeX⟩ := pushed_then_jump (regs := [.pc]) (by simp) hpush
    (jumpThrough_frame ((push16 s.pc s).pointerX a) (push16 s.pc s) (by simp))
  refine ⟨⟨_, rfl, rfl, hpushed, hframe⟩, ⟨_, rfl, goto_pcAddr _ l, hpushedL, hframeL⟩,
    ⟨_, rfl, hpushedX, hframeX, fun p hp h => ?_⟩⟩
  rw [← pointerX_eq, ← pointerX_push16 s.pc a] at hp
  subst hp
  have hgives := (givesFrom_congr (push16_chip s s.pc) 2 _).mpr h
  exact (jumpThrough_pc hgives).trans (wordAt_jumpThrough _ _).symm

/-! ### Branches (R332, R335 to R344) -/

theorem branchIf_result (s : State) (taken : Bool) (rr : Byte) :
    BranchesIf taken rr.toInt s (branchIf taken rr s) :=
  branch_result s (sext24b rr) rr.toInt (sext24b_toNat rr) taken

/-- A branch after a datum has been read, which changes the bus record alone. -/
theorem branchIf_loadMode_result (w : Width) (mode : Mode) (s : State) (taken : Bool) (rr : Byte) :
    BranchesIf taken rr.toInt s (branchIf taken rr (loadMode w mode s).2) := by
  obtain ⟨b, hb⟩ := loadMode_spec w mode s
  rw [hb]
  exact branchIf_result (s.setBus b) taken rr

section
variable (w : Width) (v mask : Word)

/-- R335: every masked bit is 0. -/
theorem isZero_and_iff :
    isZero w (v &&& mask) = true ↔ ∀ k, k < bitsOf w → mask.getLsbD k = true → v.getLsbD k = false := by
  rw [isZero_iff]
  refine forall₂_congr fun k _ => ?_
  rw [BitVec.getLsbD_and]
  cases mask.getLsbD k <;> simp

theorem bitsOf_le (w : Width) : bitsOf w ≤ 16 := by cases w <;> decide

/-- R336: every masked bit is 1. -/
theorem isZero_not_and_iff :
    isZero w (~~~v &&& mask) = true ↔ ∀ k, k < bitsOf w → mask.getLsbD k = true → v.getLsbD k = true := by
  rw [isZero_and_iff]
  refine forall₂_congr fun k hk => ?_
  have hk16 : k < 16 := hk.trans_le (bitsOf_le w)
  simp [hk16]

end

/-- Settles O57: each is a branch on a condition. -/
theorem branchesBranch : Obligations.BranchesBranch := by
  intro s
  exact ⟨fun rr => ⟨_, rfl, branch_result s _ rr.toInt (sext24b_toNat rr) true⟩,
    fun rr => ⟨_, rfl, branch_result s _ rr.toInt (sext24_toNat rr) true⟩,
    fun rr => ⟨_, rfl, branchIf_result s _ rr⟩, fun rr => ⟨_, rfl, branchIf_result s _ rr⟩,
    fun rr => ⟨_, rfl, branchIf_result s _ rr⟩, fun rr => ⟨_, rfl, branchIf_result s _ rr⟩,
    fun rr => ⟨_, rfl, branchIf_result s _ rr⟩, fun rr => ⟨_, rfl, branchIf_result s _ rr⟩,
    fun rr => ⟨_, rfl, branchIf_result s _ rr⟩, fun rr => ⟨_, rfl, branchIf_result s _ rr⟩,
    fun mask mode rr => ⟨_, _, exec_bbc s mask mode rr, branchIf_loadMode_result _ mode s _ rr, isZero_and_iff _ _ _⟩,
    fun mask mode rr =>
      ⟨_, _, exec_bbs s mask mode rr, branchIf_loadMode_result _ mode s _ rr, isZero_not_and_iff _ _ _⟩⟩

/-! ### Returns (R345 to R347) -/

/-- RTS: PC from the two bytes above S. -/
theorem rts_result (s : State) :
    ∃ t, exec .rts s = .next t ∧ t.sp = s.sp + 2 ∧ Frame [.sp, .pc] [] nowhere s t ∧
      (givesStack 2 s → t.pc.toNat = stackData .w16 s 0) := by
  refine ⟨_, exec_rts s, ?_⟩
  have hdata : givesStack 2 s → (pull16 s).1.toNat = stackData .w16 s 0 := fun h => (pullW_gives .w16 s h).1
  obtain ⟨b, hb⟩ := pull16_spec s
  rw [hb]
  exact ⟨rfl, frame_setPc _ (by simp) (frame_setBus b (frame_setSp _ (by simp) (frame_refl _ _ _ s))), hdata⟩

/-- The byte that is pulled after two others. -/
theorem pull8_pull16_gives {s : State} (h : givesStack 3 s) : (pull8 (pull16 s).2).1 = stackByte s 2 := by
  have h2 := pull16_gives s (givesStack_mono h (by omega))
  have h1 := pull8_gives (s.setSp (s.sp + 2)) (givesStack_setSp 2 h)
  rw [h2, h1]
  exact stackByte_setSp s 2 0

/-- RTL: PC from the two bytes above S and PG from the next one. -/
theorem rtl_result (s : State) :
    ∃ t, exec .rtl s = .next t ∧ t.sp = s.sp + 3 ∧ Frame [.sp, .pc, .pg] [] nowhere s t ∧
      (givesStack 3 s → t.pc.toNat = stackData .w16 s 0 ∧ t.pg = stackByte s 2) := by
  refine ⟨_, exec_rtl s, ?_⟩
  have hdata : givesStack 3 s → (pull16 s).1.toNat = stackData .w16 s 0 ∧ (pull8 (pull16 s).2).1 = stackByte s 2 :=
    fun h => ⟨(pullW_gives .w16 s (givesStack_mono h (by decide))).1, pull8_pull16_gives h⟩
  obtain ⟨b, hb⟩ := pull16_spec s
  obtain ⟨c, hc⟩ := pull8_spec (pull16 s).2
  rw [hc, hb]
  rw [hb] at hdata
  refine ⟨?_, frame_setPg _ (by simp) (frame_setPc _ (by simp) (frame_setBus c (frame_setSp _ (by simp)
    (frame_setBus b (frame_setSp _ (by simp) (frame_refl _ _ _ s)))))), hdata⟩
  exact BitVec.add_assoc s.sp 2 1

/-- R345: after PS, RTI pulls what RTL pulls. -/
theorem exec_rti_eq (s : State) : exec .rti s = exec .rtl (pullPs s) := rfl

theorem givesStack_pullPs {n : Nat} {s : State} (h : givesStack (2 + n) s) : givesStack n (pullPs s) := by
  obtain ⟨b, hb⟩ := pullPs_spec s
  rw [hb]
  exact givesStack_setSp 2 h

theorem stackByte_pullPs (s : State) (k : Nat) : stackByte (pullPs s) k = stackByte s (2 + k) := by
  obtain ⟨b, hb⟩ := pullPs_spec s
  rw [hb]
  exact stackByte_setSp s 2 k

theorem stackData_pullPs (s : State) : stackData .w16 (pullPs s) 0 = stackData .w16 s 2 := by
  simp only [stackData, stackByte_pullPs]

/-- Settles O58: RTI is PLP (O31) and then RTL. -/
theorem returnInstructions : Obligations.ReturnInstructions := by
  intro s
  refine ⟨?_, rts_result s, rtl_result s⟩
  obtain ⟨-, -, u, hplp, hsp, hkeeps, hps⟩ := pullsToSpecialRegisters s
  obtain rfl : pullPs s = u := Host.Outcome.next.inj hplp
  obtain ⟨t, hrtl, hsp', ⟨hkeeps', hflags, hipl⟩, hpc⟩ := rtl_result (pullPs s)
  refine ⟨t, (exec_rti_eq s).trans hrtl, ?_, keepsAllBut_trans hkeeps hkeeps' (by simp) (by simp), fun h => ?_⟩
  · rw [hsp', hsp]
    exact BitVec.add_assoc s.sp 2 3
  · obtain ⟨hflag, hiplOf⟩ := hps (givesStack_mono h (by decide))
    obtain ⟨hpcOf, hpg⟩ := hpc (givesStack_pullPs h)
    rw [stackData_pullPs] at hpcOf
    rw [stackByte_pullPs] at hpg
    exact ⟨fun f => (hflags f (by simp)).trans (hflag f), hipl.trans hiplOf, hpcOf, hpg⟩

end Sys2Proof.Proofs

/-! Settles O59 and O60: BRK is interrupt entry through its own vector, which is stated once for all events; WIT and STP
are one update of the run state. -/

namespace Sys2Proof.Proofs

open Sys2Proof.Machine Sys2Proof.Safety

/-! ### Software interrupt (R371) -/

/-- R371, R404: BRK is the common entry with the vector at 00FFFA and no level of its own; its second byte is ignored. -/
theorem exec_brk (n : Byte) (s : State) : exec (.brk n) s = .next (takeInterrupt 0xFFFA#16 none s) := rfl

/-- Settles O59: what interrupt entry does, at BRK's vector. -/
theorem brkInterrupts : Obligations.BrkInterrupts := fun n s =>
  ⟨_, exec_brk n s, takeInterrupt_result 0xFFFA#16 none s⟩

/-! ### Clock control, no operation (R372 to R374) -/

section
variable (s : State)

theorem exec_wit : exec .wit s = .next (s.setRun .wait) := rfl
theorem exec_stp : exec .stp s = .next (s.setRun .stop) := rfl
theorem exec_nop : exec .nop s = .next s := rfl

/-- An update of the run state is undone by writing the old one back: it changed nothing else. -/
theorem setRun_setRun_run (r : RunState) : (s.setRun r).setRun s.run = s := rfl

end

/-- Settles O60: WIT and STP write the run state, NOP nothing. -/
theorem waitStopAndNop : Obligations.WaitStopAndNop := fun s =>
  ⟨⟨_, exec_wit s, setRun_run s .wait, setRun_setRun_run s .wait⟩,
    ⟨_, exec_stp s, setRun_run s .stop, setRun_setRun_run s .stop⟩, exec_nop s⟩

end Sys2Proof.Proofs

/-! Settles O12 to O15 and O46: events at a boundary, interrupt entry and the return from it.  A request taken and a
division by 0 are the common entry (`takeInterrupt_result`) after an update that it does not depend on; RTI pulls the
frame as the entry pushed it, read upward. -/

namespace Sys2Proof.Proofs

open Sys2Proof.Machine Sys2Proof.Safety

/-! ### Which event is next (R408, R409) -/

section
variable {s : State}

theorem nextEvent_of_reset (h : s.irq.resetPending = true) : nextEvent s = some .reset := if_pos h

theorem nextEvent_of_watchdog (hreset : s.irq.resetPending = false) (h : s.irq.wdtPending = true) :
    nextEvent s = some .watchdog := by
  simp [nextEvent, hreset, h]

theorem nextEvent_of_requests (hreset : s.irq.resetPending = false) (hwdt : s.irq.wdtPending = false) :
    nextEvent s = (foremost s.chip (s.irq.pending.filter (acceptable s))).map .irq := by
  simp [nextEvent, hreset, hwdt]

theorem acceptable_iff (r : Request) : acceptable s r = true ↔ s.flag .i = false ∧ s.ipl < r.level := by
  simp [acceptable]

theorem not_acceptable_iff (r : Request) : ¬ acceptable s r = true ↔ s.flag .i = true ∨ r.level ≤ s.ipl := by
  rw [acceptable_iff, not_and_or, Bool.not_eq_false, BitVec.not_lt]

/-- A maskable request that is next is acceptable, and no pending one has a higher level: with I = 0 a request that is
not acceptable has a level that IPL reaches. -/
theorem nextEvent_irq {r : Request} (h : nextEvent s = some (.irq r)) :
    s.irq.resetPending = false ∧ s.irq.wdtPending = false ∧ r ∈ s.irq.pending ∧ s.flag .i = false ∧
      s.ipl < r.level ∧ ∀ q ∈ s.irq.pending, q.level ≤ r.level := by
  have hreset : s.irq.resetPending = false :=
    Bool.eq_false_of_not_eq_true fun hp => nomatch (nextEvent_of_reset hp).symm.trans h
  have hwdt : s.irq.wdtPending = false :=
    Bool.eq_false_of_not_eq_true fun hp => nomatch (nextEvent_of_watchdog hreset hp).symm.trans h
  rw [nextEvent_of_requests hreset hwdt, Option.map_eq_some_iff] at h
  obtain ⟨_, hforemost, ⟨⟩⟩ := h
  obtain ⟨hmem, hhighest⟩ := (foremost_spec _ _).2 _ hforemost
  obtain ⟨hpending, haccepted⟩ := List.mem_filter.mp hmem
  obtain ⟨hi, hlevel⟩ := (acceptable_iff r).mp haccepted
  refine ⟨hreset, hwdt, hpending, hi, hlevel, fun q hq => ?_⟩
  by_cases haq : acceptable s q = true
  · exact hhighest q (List.mem_filter.mpr ⟨hq, haq⟩)
  · rcases (not_acceptable_iff q).mp haq with hiq | hle
    · rw [hi] at hiq
      cases hiq
    · exact BitVec.le_trans hle (BitVec.le_of_lt hlevel)

theorem nextEvent_none_iff :
    nextEvent s = none ↔ s.irq.resetPending = false ∧ s.irq.wdtPending = false ∧
      ∀ q ∈ s.irq.pending, s.flag .i = true ∨ q.level ≤ s.ipl := by
  cases hreset : s.irq.resetPending with
  | true => simp [nextEvent_of_reset hreset]
  | false =>
    cases hwdt : s.irq.wdtPending with
    | true => simp [nextEvent_of_watchdog hreset hwdt]
    | false =>
      rw [nextEvent_of_requests hreset hwdt, Option.map_eq_none_iff, (foremost_spec _ _).1, List.filter_eq_nil_iff]
      simp only [not_acceptable_iff, true_and]

end

/-! ### The environment's part of a boundary (R407) -/

theorem boundary_eq_setIrq (s : State) : boundary s = s.setIrq (boundary s).irq := by
  obtain ⟨q, hq⟩ := boundary_spec s
  rw [hq, setIrq_irq]

theorem boundary_of_noInputs {s : State} (h : s.irq.inputs = []) : boundary s = s := by
  rw [boundary, h]

theorem boundary_irq_of_inputs {s : State} {events : List EnvEvent} {rest : List (List EnvEvent)}
    (h : s.irq.inputs = events :: rest) :
    (boundary s).irq = events.foldl applyEvent { s.irq with inputs := rest } := by
  rw [boundary, h]
  rfl

/-- Settles O14: what is next goes by the flags of the request state and then by `foremost`; a boundary is its events
one after the other, the last of which changes what the others have left. -/
theorem eventPriority : Obligations.EventPriority := by
  refine ⟨fun s => ⟨nextEvent_of_reset, nextEvent_of_watchdog, fun r => nextEvent_irq, nextEvent_none_iff⟩,
    fun s => ⟨boundary_eq_setIrq s, fun h => congrArg State.irq (boundary_of_noInputs h),
      fun rest h => boundary_irq_of_inputs h⟩, ?_⟩
  rintro s before e rest p q hinputs rfl rfl
  refine ⟨?_, ?_⟩
  · rw [boundary_irq_of_inputs hinputs, foldl_applyEvent_inputs]
  · rw [boundary_snoc s before e rest hinputs]
    exact applyEvent_spec _ e

/-! ### The stopped states (R423) -/

theorem turn_of_stopped {s : State} (hrun : s.run ≠ .running) (hnone : nextEvent (boundary s) = none) :
    turn s = .next (boundary s) := by
  have hkept : (boundary s).run = s.run := by rw [boundary_eq_setIrq, setIrq_run]
  rw [← hkept] at hrun
  simp only [turn, hnone]
  cases h : (boundary s).run with
  | running => exact absurd h hrun
  | wait => rfl
  | stop => rfl

/-- Settles O15: the turn is the boundary, which changes the requests alone and so keeps the contract. -/
theorem stoppedStatesPersist : Obligations.StoppedStatesPersist := by
  intro s hin hrun hnone
  have hstep : step s = .next (boundary s) :=
    (step_eq_next_iff _ _).mpr ⟨turn_of_stopped hrun hnone, (withinContract_boundary s).trans hin⟩
  refine ⟨hstep, _, hstep, ?_⟩
  rw [boundary_eq_setIrq]
  exact ⟨fun r => by cases r <;> rfl, rfl, rfl, rfl, rfl, rfl⟩

/-! ### Requests taken (R410, R413, R419) -/

theorem turn_of_nextEvent {s : State} {e : Event} (h : nextEvent (boundary s) = some e) :
    turn s = .next (takeEvent e (boundary s)) := by
  simp only [turn, h]

/-- The entry at a boundary: its result, the requests `q` that are left, and the step within the contract, which it
keeps where its vector stands in bank 0. -/
theorem step_of_entry {s : State} {vector : Word} {level : BitVec 3} {q : Requests}
    (hturn : turn s = .next (takeInterrupt vector (some level) ((boundary s).setIrq q))) :
    ∃ t, EntryResult vector (some level) (boundary s) t ∧ t.irq = q ∧
      step s = (if withinContract t then .next t else .refused .singleChip) ∧
      (withinContract s = true → (s.chip.singleChip = true → vector ≠ 0xFFFF#16) → step s = .next t) := by
  obtain ⟨hentry, hirq⟩ := takeInterrupt_result vector (some level) ((boundary s).setIrq q)
  refine ⟨_, entryResult_setIrq _ _ _ _ q hentry, hirq, by rw [step, hturn, keepContract_eq], fun hin hvector => ?_⟩
  rw [← (boundary_keeps s).1] at hvector
  have houtside := takeInterrupt_outside vector (some level) ((boundary s).setIrq q) hvector
  exact (step_eq_next_iff _ _).mpr
    ⟨hturn, withinContract_entry _ _ _ _ hentry houtside ((withinContract_boundary s).trans hin)⟩

/-- R404: the watchdog's vector in a legal state. -/
theorem vecWdt_of_legal {s : State} (h : legal s) :
    s.chip.vecWdt ∉ [0xFFFF#16, vecBreak, vecReset, s.chip.vecZeroDiv] := by
  obtain ⟨-, hchip, -⟩ := h
  obtain ⟨hfixed, hnodup⟩ := chip_wf_vectors _ hchip
  have hvector := hfixed s.chip.vecWdt (by simp [Chip.vectors])
  simp only [Chip.vectors, List.nodup_cons, List.mem_cons, not_or] at hnodup
  obtain ⟨⟨hzeroDiv, -⟩, -⟩ := hnodup
  simp only [List.mem_cons, List.not_mem_nil, or_false, not_or] at hvector ⊢
  obtain ⟨hffff, hbreak, hreset⟩ := hvector
  exact ⟨hffff, hbreak, hreset, Ne.symm hzeroDiv⟩

/-- R404: the vector of a request that is pending after the boundary of a legal state, which is from a source of the
chip. -/
theorem vectorIn_of_legal {s : State} (h : legal s) {r : Request} (hr : r ∈ (boundary s).irq.pending) :
    vectorIn s.chip.sources r.src ∉ [0xFFFF#16, vecBreak, vecReset, s.chip.vecZeroDiv, s.chip.vecWdt] ∧
      ∀ e ∈ s.chip.sources, e.vector = vectorIn s.chip.sources r.src → e.src = r.src := by
  obtain ⟨-, hchip, hlisted⟩ := h
  have hboundary := boundary_listed s hlisted
  simp only [requestsListed, Bool.and_eq_true, List.all_eq_true] at hboundary
  obtain ⟨hpending, -⟩ := hboundary
  exact vectorIn_listed _ hchip _ (hpending r hr)

/-- Settles O12: both kinds of request are the common entry after the request is removed. -/
theorem requestsAreTaken : Obligations.RequestsAreTaken := by
  intro s
  have hchip := (boundary_keeps s).1
  refine ⟨fun h => ?_, fun r h => ?_, vecWdt_of_legal⟩
  · have hturn := turn_of_nextEvent h
    rw [takeEvent, takeWatchdog, setIrq_chip, hchip] at hturn
    exact step_of_entry hturn
  · have hturn := turn_of_nextEvent h
    rw [takeEvent, takeIrq, setIrq_chip, hchip] at hturn
    obtain ⟨t, hentry, hirq, hstep, hnext⟩ := step_of_entry hturn
    obtain ⟨-, -, hpending, -⟩ := nextEvent_irq h
    exact ⟨t, hentry, hirq, hstep, hnext, fun hlegal => vectorIn_of_legal hlegal hpending⟩

/-! ### Zero division (R420) -/

/-- The trap after an operand has been read, which changes the bus record alone. -/
theorem takeZeroDivision_operand (w : Width) (o : Operand) (s : State) :
    EntryResult s.chip.vecZeroDiv none s (takeZeroDivision (operand w o s).2) := by
  obtain ⟨b, hb⟩ := operand_spec w o s
  rw [hb]
  exact entryResult_setBus _ _ _ _ b (takeInterrupt_result _ _ _).1

/-- Settles O46: with a divisor of 0 both instructions are the trap. -/
theorem zeroDivisionTraps : Obligations.ZeroDivisionTraps := by
  intro o s hzero
  have hentry := takeZeroDivision_operand s.mWidth o s
  exact ⟨⟨_, (exec_div s o).trans (if_pos hzero), hentry⟩,
    fun hseries => ⟨_, (exec_divs s o).trans ((if_pos hzero).trans (on7750_next hseries _)), hentry⟩⟩

/-! ### The return (R345, R415) -/

/-- The frame from the last byte pushed to the first, in the order in which RTI pulls it. -/
theorem reverse_frameBytes (s : State) :
    (frameBytes s).reverse = [s.psl, s.psh] ++ ((pushBytes .w16 s.pc).reverse ++ [s.pg]) := rfl

/-- Settles O13: RTI finds above S the bytes that the entry pushed, and neither of the two changes anything else that is
not undone. -/
theorem rtiUndoesEntry : Obligations.RtiUndoesEntry := by
  intro vector level s u t hram hentry hrti
  obtain ⟨hpushed, -, -, -, -, -, hregs, -, hbytes, hchip⟩ := hentry
  obtain ⟨⟨t', ht', hsp, ⟨hregs', hbytes', -⟩, hpulled⟩, -⟩ := returnInstructions u
  obtain rfl : t' = t := Host.Outcome.next.inj (ht'.symm.trans hrti)
  obtain ⟨hflags, hipl, hpc, hpg⟩ := hpulled (givesStack_of_pushed hpushed.1 hram hchip)
  have hheld := heldFrom_of_pushed hpushed.1 hram hpushed fun _ _ => rfl
  rw [reverse_frameBytes, heldFrom_append, heldFrom_append] at hheld
  obtain ⟨hheldPs, hheldPc, hheldPg⟩ := hheld
  have hspBack : t'.sp = s.sp := by
    rw [hsp, hpushed.1]
    exact BitVec.sub_add_cancel _ _
  have hpcBack : t'.pc.toNat = s.pc.toNat :=
    hpc.trans ((stackData_of_heldFrom (c := true) hheldPc rfl).trans (valueOf_of_lt .w16 _ s.pc.isLt))
  have hpgBack : t'.pg = s.pg := hpg.trans (hheldPg 0 _ rfl)
  refine ⟨fun r => ?_, ps_of_heldFrom hheldPs ⟨hflags, hipl⟩, fun p hp => (hbytes' p id).trans (hbytes p hp)⟩
  by_cases hr : r ∈ [Reg.sp, Reg.pc, Reg.pg]
  · simp only [List.mem_cons, List.not_mem_nil, or_false] at hr
    rcases hr with rfl | rfl | rfl
    · exact congrArg BitVec.toNat hspBack
    · exact hpcBack
    · exact congrArg BitVec.toNat hpgBack
  · exact (hregs' r hr).trans (hregs r hr)

end Sys2Proof.Proofs

/-! Settles O11: the reset event at a boundary.  Everything it does to the state is in one equation
(`takeReset_eq_updates`), from which its registers, its PS, its PC and what it leaves are read off. -/

namespace Sys2Proof.Proofs

open Sys2Proof.Machine Sys2Proof.Safety

/-! ### What the reset event does (R450) -/

section
variable (s : State)

/-- The state of the reset event before PC is loaded: the request gone, the values of R450, and drawn registers. -/
def beforeVector (a b x y sp : Word) (ps : BitVec 11) (bus : Bus) : State :=
  ((((((((((s.setIrq { s.irq with resetPending := false }).setPg 0#8).setDt 0#8).setDpr 0#16).setA a).setB b).setX
    x).setY y).setSp sp).setPs ps).setBus bus

/-- The vector's address as R450 writes it. -/
theorem mkAddr_vecReset : mkAddr 0#8 vecReset = 0x00FFFE#24 := rfl

/-- The reset event as updates of the state, with the read of the vector carried out: it changes the bus record alone,
and it gives the word in memory where the map lets it (R61). -/
theorem takeReset_eq_updates :
    ∃ a b x y sp n v z c bus pc,
      takeReset s =
        (((beforeVector s a b x y sp (resetPs n v z c) bus).setPc pc).setPg 0#8).setRun .running ∧
      (givesFrom 2 s 0x00FFFE#24 → pc = wordAt s 0x00FFFE#24) := by
  obtain ⟨a, b, x, y, sp, n, v, z, c, bus, u, hu, hreset⟩ := takeReset_spec s
  obtain ⟨bus', hread⟩ := read16_spec (mkAddr 0#8 vecReset) u
  have hword : givesFrom 2 s 0x00FFFE#24 → (read16 (mkAddr 0#8 vecReset) u).1 = wordAt s 0x00FFFE#24 := by
    intro hgives
    have hgivesU : givesFrom 2 u 0x00FFFE#24 := (givesFrom_congr (by rw [hu]; rfl) 2 _).mpr hgives
    rw [mkAddr_vecReset, read16_gives _ u hgivesU, hu]
    rfl
  refine ⟨a, b, x, y, sp, n, v, z, c, bus', _, ?_, hword⟩
  rw [hreset, hread, hu]
  rfl

theorem takeReset_registers :
    (takeReset s).pg = 0#8 ∧ (takeReset s).dt = 0#8 ∧ (takeReset s).dpr = 0#16 ∧
      (takeReset s).run = .running := by
  obtain ⟨a, b, x, y, sp, n, v, z, c, bus, pc, hreset, -⟩ := takeReset_eq_updates s
  rw [hreset]
  exact ⟨rfl, rfl, rfl, rfl⟩

/-- I = 1, D = x = m = 0 and IPL = 0, whatever is drawn for N, V, Z and C (D7). -/
theorem takeReset_status :
    (takeReset s).flag .i = true ∧ (takeReset s).flag .d = false ∧ (takeReset s).flag .x = false ∧
      (takeReset s).flag .m = false ∧ (takeReset s).ipl = 0#3 := by
  obtain ⟨a, b, x, y, sp, n, v, z, c, bus, pc, hreset, -⟩ := takeReset_eq_updates s
  obtain ⟨hipl, hi, hd, hx, hm⟩ := resetPs_spec n v z c
  rw [hreset]
  exact ⟨hi, hd, hx, hm, hipl⟩

theorem takeReset_pc (h : givesFrom 2 s 0x00FFFE#24) : (takeReset s).pc = wordAt s 0x00FFFE#24 := by
  obtain ⟨a, b, x, y, sp, n, v, z, c, bus, pc, hreset, hpc⟩ := takeReset_eq_updates s
  rw [hreset]
  exact hpc h

theorem takeReset_byteAt (p : Addr) : (takeReset s).byteAt p = s.byteAt p := by
  obtain ⟨a, b, x, y, sp, n, v, z, c, bus, pc, hreset, -⟩ := takeReset_eq_updates s
  rw [hreset]
  rfl

theorem takeReset_irq : (takeReset s).irq = { s.irq with resetPending := false } := by
  obtain ⟨a, b, x, y, sp, n, v, z, c, bus, pc, hreset, -⟩ := takeReset_eq_updates s
  rw [hreset]
  rfl

theorem takeReset_chip : (takeReset s).chip = s.chip := (takeReset_rest s).1

/-- The reset event comes back into the contract of single-chip mode, from any PG, DT and DPR, unless an access outside
bank 0 is on record. -/
theorem withinContract_takeReset (h : s.chip.singleChip = true → s.bus.outside = false) :
    withinContract (takeReset s) = true := by
  obtain ⟨hpg, hdt, hdpr, -⟩ := takeReset_registers s
  rw [withinContract, takeReset_chip, hpg, hdt, hdpr, takeReset_outside]
  cases hchip : s.chip.singleChip with
  | false => rfl
  | true => rw [h hchip]; rfl

end

/-! ### Reset taken -/

/-- The step takes a pending reset before every other event (D30) and is not refused. -/
theorem step_of_resetPending {s : State} (houtside : s.chip.singleChip = true → s.bus.outside = false)
    (hpending : (boundary s).irq.resetPending = true) : step s = .next (takeReset (boundary s)) := by
  have hinside : withinContract (takeReset (boundary s)) = true := by
    apply withinContract_takeReset
    rw [boundary_eq_setIrq]
    exact houtside
  exact (step_eq_next_iff _ _).mpr ⟨turn_of_nextEvent (nextEvent_of_reset hpending), hinside⟩

/-- Settles O11: the reset event in the state after the boundary, which differs from the one before in the requests
alone: in it the map of the chip and the word at the vector are the same. -/
theorem resetEvent : Obligations.ResetEvent := by
  intro s houtside hpending
  obtain ⟨hpg, hdt, hdpr, hrun⟩ := takeReset_registers (boundary s)
  obtain ⟨hi, hd, hx, hm, hipl⟩ := takeReset_status (boundary s)
  obtain ⟨hchip, -, -, hbyte⟩ := boundary_keeps s
  have hpc (h : givesFrom 2 s 0x00FFFE#24) : (takeReset (boundary s)).pc = wordAt s 0x00FFFE#24 := by
    rw [takeReset_pc _ ((givesFrom_congr hchip 2 _).mpr h), wordAt, wordAt, hbyte, hbyte]
  exact ⟨_, step_of_resetPending houtside hpending, hpg, hdt, hdpr, hi, hd, hx, hm, hipl, hpc, hrun,
    fun p => (takeReset_byteAt _ p).trans (hbyte p), (takeReset_chip _).trans hchip, takeReset_irq _⟩

end Sys2Proof.Proofs
